-- ==== Sys2Proof/Word.lean ====
section
/-! DEFINITION. The bit-vector types of PVCORE (spec/00_scope.md R8–R11): a byte, a 128-bit Block, a 64-bit half, a 64-bit
address or count, a 32-bit command word. Bit 0 is the least significant bit and the coefficient of `x^0` (R9, R10). -/

namespace Sys2Proof

/-- A byte of the host's memory (R50). -/
abbrev Byte := BitVec 8

/-- A Block: 16 bytes, 128 bits, a polynomial of degree below 128 (R8, R10). -/
abbrev Block := BitVec 128

/-- One 64-bit half of a Block (R11). -/
abbrev Half := BitVec 64

/-- A 64-bit address or block count (`AW` = `NW` = 64, R8). -/
abbrev Addr := BitVec 64

/-- A command word (`CW` = 32, R8, R70). -/
abbrev CmdWord := BitVec 32

end Sys2Proof
end

