-- ==== Sys2Proof/Syntax.lean ====
section
/-! DEFINITION. The 20 commands of PVCORE (spec/30_encoding.md R78, R86), one constructor per row of spec/opcode_table.json, with
the operands in the order of the assembler syntax (R86). -/

namespace Sys2Proof

/-- A field-register index (R26): 0–5 are F0–F5, 6 is S, 7 is G, 8–15 are KP1–KP8. -/
abbrev FIdx := Fin 16

/-- A scalar-register index (R71): X0–X3 by value. -/
abbrev XIdx := Fin 4

/-- A halfword position of SETXZ and SETXK (R80). -/
abbrev HalfwordIdx := Fin 4

/-- The commands, in the order of R78. -/
inductive Instr where
  | xor (fd fs1 fs2 : FIdx)
  | clmulLL (fd fs1 fs2 : FIdx)
  | clmulLH (fd fs1 fs2 : FIdx)
  | clmulHL (fd fs1 fs2 : FIdx)
  | clmulHH (fd fs1 fs2 : FIdx)
  | swap64 (fd fs1 : FIdx)
  | shl64 (fd fs1 : FIdx)
  | shr64 (fd fs1 : FIdx)
  | reduce (fd fph fpl : FIdx)
  | bmul (fd fs1 fs2 : FIdx)
  | blockmul (xa xb : XIdx)
  | keyexp (fs1 : FIdx)
  | kpld (xa : XIdx)
  | kpst (xa : XIdx)
  | kpclr
  | update (xin xn xacc : XIdx)
  | ldb (fd : FIdx) (xa : XIdx)
  | stb (fs : FIdx) (xa : XIdx)
  | setxz (xd : XIdx) (hw : HalfwordIdx) (imm16 : BitVec 16)
  | setxk (xd : XIdx) (hw : HalfwordIdx) (imm16 : BitVec 16)
  deriving DecidableEq, Repr

end Sys2Proof
end

