-- ==== Sys2Proof/WellFormed.lean ====
section
/-! DEFINITION. The one check a command's operands must pass beyond their types: a destination specifier names F0–F5 or S
(spec/10_state.md R26, R28; the destination constraint of spec/30_encoding.md R78, R83 (b)). -/

namespace Sys2Proof

/-- A field-register index that may be written: 0–6 (R26, R28). -/
def FIdx.writable (f : FIdx) : Bool := decide (f.val ≤ 6)

/-- The field-register destination of a command, if it has one (R72–R77). -/
def Instr.dest : Instr → Option FIdx
  | .xor fd _ _ => some fd
  | .clmulLL fd _ _ => some fd
  | .clmulLH fd _ _ => some fd
  | .clmulHL fd _ _ => some fd
  | .clmulHH fd _ _ => some fd
  | .swap64 fd _ => some fd
  | .shl64 fd _ => some fd
  | .shr64 fd _ => some fd
  | .reduce fd _ _ => some fd
  | .bmul fd _ _ => some fd
  | .blockmul _ _ => none
  | .keyexp _ => none
  | .kpld _ => none
  | .kpst _ => none
  | .kpclr => none
  | .update _ _ _ => none
  | .ldb fd _ => some fd
  | .stb _ _ => none
  | .setxz _ _ _ => none
  | .setxk _ _ _ => none

/-- A well-formed command: its destination, if it has one, may be written (R83 (b)). -/
def Instr.wf (i : Instr) : Bool :=
  match i.dest with
  | some fd => FIdx.writable fd
  | none => true

end Sys2Proof
end

