-- ==== Sys2Proof/Decode.lean ====
section
/-! DEFINITION. The decoder of spec/30_encoding.md R78 and R85, a table of match and mask rows read in table order, total on all
words, and after it the encoder written from the formats R72–R77. -/

namespace Sys2Proof

/-- Bits 23:20, the field-register specifier `fd` or `f` (R72, R73, R75). -/
def fieldAt20 (w : CmdWord) : FIdx := (w.extractLsb' 20 4).toFin

/-- Bits 19:16, the field-register specifier `fs1` (R72–R74). -/
def fieldAt16 (w : CmdWord) : FIdx := (w.extractLsb' 16 4).toFin

/-- Bits 15:12, the field-register specifier `fs2` (R72). -/
def fieldAt12 (w : CmdWord) : FIdx := (w.extractLsb' 12 4).toFin

/-- Bits 23:22, the scalar specifier `xa`, `xin` or `xd` of formats X and I (R76, R77). -/
def scalarAt22 (w : CmdWord) : XIdx := (w.extractLsb' 22 2).toFin

/-- Bits 21:20, the scalar specifier `xb` or `xn` (R76), and the halfword position `hw` (R77). -/
def scalarAt20 (w : CmdWord) : XIdx := (w.extractLsb' 20 2).toFin

/-- Bits 19:18, the scalar specifier `xacc` (R76), or `xa` of format M (R75). -/
def scalarAt18 (w : CmdWord) : XIdx := (w.extractLsb' 18 2).toFin

/-- Bits 15:0, `imm16` (R77, R80). -/
def immAt0 (w : CmdWord) : BitVec 16 := w.extractLsb' 0 16

/-- One row of R78: the bits that select the command, and the command with its fields read. -/
structure DecodeRow where
  pat : CmdWord
  mask : CmdWord
  build : CmdWord → Instr

/-- A word is a row's command when its masked bits are the row's pattern (R78). -/
def DecodeRow.selects (r : DecodeRow) (w : CmdWord) : Bool := w &&& r.mask == r.pat

/-- The rows of R78 in table order: FieldOps. -/
def decodeRowsFieldOps : List DecodeRow := [
  ⟨0x01000000, 0xFF000FFF, fun w => .xor (fieldAt20 w) (fieldAt16 w) (fieldAt12 w)⟩,
  ⟨0x02000000, 0xFF000FFF, fun w => .clmulLL (fieldAt20 w) (fieldAt16 w) (fieldAt12 w)⟩,
  ⟨0x02000001, 0xFF000FFF, fun w => .clmulLH (fieldAt20 w) (fieldAt16 w) (fieldAt12 w)⟩,
  ⟨0x02000002, 0xFF000FFF, fun w => .clmulHL (fieldAt20 w) (fieldAt16 w) (fieldAt12 w)⟩,
  ⟨0x02000003, 0xFF000FFF, fun w => .clmulHH (fieldAt20 w) (fieldAt16 w) (fieldAt12 w)⟩,
  ⟨0x03000000, 0xFF00FFFF, fun w => .swap64 (fieldAt20 w) (fieldAt16 w)⟩,
  ⟨0x04000000, 0xFF00FFFF, fun w => .shl64 (fieldAt20 w) (fieldAt16 w)⟩,
  ⟨0x05000000, 0xFF00FFFF, fun w => .shr64 (fieldAt20 w) (fieldAt16 w)⟩,
  ⟨0x06000000, 0xFF000FFF, fun w => .reduce (fieldAt20 w) (fieldAt16 w) (fieldAt12 w)⟩]

/-- The rows of R78 in table order: BlockMul, KeyPowers, Streamer and host data movement. -/
def decodeRowsOther : List DecodeRow := [
  ⟨0x10000000, 0xFF000FFF, fun w => .bmul (fieldAt20 w) (fieldAt16 w) (fieldAt12 w)⟩,
  ⟨0x11000000, 0xFF0FFFFF, fun w => .blockmul (scalarAt22 w) (scalarAt20 w)⟩,
  ⟨0x20000000, 0xFFF0FFFF, fun w => .keyexp (fieldAt16 w)⟩,
  ⟨0x21000000, 0xFF3FFFFF, fun w => .kpld (scalarAt22 w)⟩,
  ⟨0x22000000, 0xFF3FFFFF, fun w => .kpst (scalarAt22 w)⟩,
  ⟨0x23000000, 0xFFFFFFFF, fun _ => .kpclr⟩,
  ⟨0x30000000, 0xFF03FFFF, fun w => .update (scalarAt22 w) (scalarAt20 w) (scalarAt18 w)⟩,
  ⟨0x40000000, 0xFF03FFFF, fun w => .ldb (fieldAt20 w) (scalarAt18 w)⟩,
  ⟨0x41000000, 0xFF03FFFF, fun w => .stb (fieldAt20 w) (scalarAt18 w)⟩,
  ⟨0x42000000, 0xFF0F0000, fun w => .setxz (scalarAt22 w) (scalarAt20 w) (immAt0 w)⟩,
  ⟨0x42080000, 0xFF0F0000, fun w => .setxk (scalarAt22 w) (scalarAt20 w) (immAt0 w)⟩]

/-- The opcode map of R78. -/
def decodeRows : List DecodeRow := decodeRowsFieldOps ++ decodeRowsOther

/-- The decoder of R85: the command of the first row that selects the word, unless its destination may not be written; `none` is
R85's `Illegal` (R82, R83, R84). -/
def decode (w : CmdWord) : Option Instr :=
  match decodeRows.find? (fun r => r.selects w) with
  | some r => if (r.build w).wf then some (r.build w) else none
  | none => none

/-- Format R3 (R72): op, fd, fs1, fs2, ten zeros, sel. -/
def encodeR3 (op : BitVec 8) (fd fs1 fs2 : FIdx) (sel : BitVec 2) : CmdWord :=
  op ++ BitVec.ofFin (w := 4) fd ++ BitVec.ofFin (w := 4) fs1 ++ BitVec.ofFin (w := 4) fs2 ++ 0#10 ++ sel

/-- Format R2 (R73): op, fd, fs1, sixteen zeros. -/
def encodeR2 (op : BitVec 8) (fd fs1 : FIdx) : CmdWord :=
  op ++ BitVec.ofFin (w := 4) fd ++ BitVec.ofFin (w := 4) fs1 ++ 0#16

/-- Format R1 (R74): op, four zeros, fs1, sixteen zeros. -/
def encodeR1 (op : BitVec 8) (fs1 : FIdx) : CmdWord :=
  op ++ 0#4 ++ BitVec.ofFin (w := 4) fs1 ++ 0#16

/-- Format M (R75): op, f, xa, eighteen zeros. -/
def encodeM (op : BitVec 8) (f : FIdx) (xa : XIdx) : CmdWord :=
  op ++ BitVec.ofFin (w := 4) f ++ BitVec.ofFin (w := 2) xa ++ 0#18

/-- Format X (R76): op, three scalar specifiers (zero where the command has fewer), eighteen zeros. -/
def encodeX (op : BitVec 8) (x1 x2 x3 : XIdx) : CmdWord :=
  op ++ BitVec.ofFin (w := 2) x1 ++ BitVec.ofFin (w := 2) x2 ++ BitVec.ofFin (w := 2) x3 ++ 0#18

/-- Format I (R77): op, xd, hw, k, three zeros, imm16. -/
def encodeI (op : BitVec 8) (xd : XIdx) (hw : HalfwordIdx) (k : BitVec 1) (imm16 : BitVec 16) : CmdWord :=
  op ++ BitVec.ofFin (w := 2) xd ++ BitVec.ofFin (w := 2) hw ++ k ++ 0#3 ++ imm16

/-- The word of a command (R72–R77, the opcodes of R78, the CLMUL selector of R79). -/
def encode : Instr → CmdWord
  | .xor fd fs1 fs2 => encodeR3 0x01 fd fs1 fs2 0b00
  | .clmulLL fd fs1 fs2 => encodeR3 0x02 fd fs1 fs2 0b00
  | .clmulLH fd fs1 fs2 => encodeR3 0x02 fd fs1 fs2 0b01
  | .clmulHL fd fs1 fs2 => encodeR3 0x02 fd fs1 fs2 0b10
  | .clmulHH fd fs1 fs2 => encodeR3 0x02 fd fs1 fs2 0b11
  | .swap64 fd fs1 => encodeR2 0x03 fd fs1
  | .shl64 fd fs1 => encodeR2 0x04 fd fs1
  | .shr64 fd fs1 => encodeR2 0x05 fd fs1
  | .reduce fd fph fpl => encodeR3 0x06 fd fph fpl 0b00
  | .bmul fd fs1 fs2 => encodeR3 0x10 fd fs1 fs2 0b00
  | .blockmul xa xb => encodeX 0x11 xa xb 0
  | .keyexp fs1 => encodeR1 0x20 fs1
  | .kpld xa => encodeX 0x21 xa 0 0
  | .kpst xa => encodeX 0x22 xa 0 0
  | .kpclr => encodeX 0x23 0 0 0
  | .update xin xn xacc => encodeX 0x30 xin xn xacc
  | .ldb fd xa => encodeM 0x40 fd xa
  | .stb fs xa => encodeM 0x41 fs xa
  | .setxz xd hw imm16 => encodeI 0x42 xd hw 0 imm16
  | .setxk xd hw imm16 => encodeI 0x42 xd hw 1 imm16

/-- The decoder on a word of `nbits` bits numbered as spec/opcode_table.json numbers them: every row is one 32-bit command word
(R70), and a bit above `nbits` is zero. -/
def decodeTableWord (nbits w : Nat) : Option Instr := decode (BitVec.ofNat 32 (w % 2 ^ nbits))

end Sys2Proof
end

