-- ==== Sys2Proof/Config.lean ====
section
/-! DEFINITION. What the spec fixes once for the block (spec/00_scope.md R8, spec/10_state.md R23), what the model fixes where the
spec leaves the platform open, and the model's free values. -/

namespace Sys2Proof

/-- `G64` = g*(x), bits 127..64 of P (R8; spec/90_conflicts.md C4). -/
def Config.g64 : Half := 0xC200000000000000

/-- `GSTAR`: both 64-bit halves are `G64` (R8, R23). -/
def Config.gstar : Block := Config.g64 ++ Config.g64

/-- What a byte of memory that no entry lists reads as. The spec leaves the initial memory open
(spec/93_implementation_defined.md section 2) and takes unlisted bytes as zero in its programs (spec/95_test_vectors.md section 3).
DESIGN CHOICE, unsafe: notes/assumptions/2.md. -/
def Config.unlistedByte : Byte := 0

/-- FREE VALUE: the bits a register holds where the spec calls its contents unspecified. The first number is the model's counter
of such events, the second names the register. It has no body, so no proof can know a value of it.
DESIGN CHOICE, safe: notes/assumptions/3.md. -/
opaque Config.freeBits (w : Nat) : Nat → Nat → BitVec w

end Sys2Proof
end

