-- ==== Sys2Proof/Machine/State.lean ====
section
/-! DEFINITION. The state of PVCORE as plain data (spec/10_state.md R20–R39), the host's memory and the host's inputs beside it, and
the state after reset. -/

namespace Sys2Proof.Machine

/-- The host's byte-addressed memory (R50): address and byte pairs, addresses rising, no entry that reads as an unlisted byte does
(the form is `Memory.wf`, Machine/Ops.lean). -/
abbrev Memory := List Host.Cell

/-- The kind of a 16-byte access (R191). -/
inductive AccessKind where
  | read
  | write
  deriving DecidableEq, Repr

/-- One 16-byte access of the block: its kind and its address (R51). -/
structure Access where
  kind : AccessKind
  addr : Addr
  deriving DecidableEq, Repr

/-- A range of addresses at which the platform refuses accesses of one kind: where `MemOK(addr, kind)` is false (R191). A list of
these is any `MemOK` at all, as data. -/
structure Window where
  kind : AccessKind
  base : Nat
  size : Nat
  deriving DecidableEq, Repr

/-- The phases of the Streamer (R32, R145). -/
inductive Phase where
  | init
  | tail
  | aligned
  | strideFirst
  | strideInterleaved
  | finalize
  | done
  deriving DecidableEq, Repr

/-- The Streamer's internal state (R32): live only inside an UPDATE (R33). -/
structure Streamer where
  phase   : Phase
  rem     : Addr    -- REM, message blocks not yet consumed
  ptr     : Addr    -- PTR, address of the next message block
  acca    : Addr    -- ACCA, the acc address
  tailRan : Bool    -- TAILRAN, whether the TAIL phase ran
  ph      : Block   -- (PH, PL), the current PartialProduct
  pl      : Block
  qh      : Block   -- (QH, QL), the pending PartialProduct
  ql      : Block
  pend    : Bool    -- PEND, the reduction of (QH, QL) is deferred
  deriving DecidableEq, Repr

/-- The fields of the status register ST (R30): bit 0, bits 4:1, bit 5. The 16-bit register is `Status.word` (Machine/Flags.lean). -/
structure Status where
  err   : Bool
  cause : BitVec 4
  kpv   : Bool
  deriving DecidableEq, Repr

/-- What the outside world does to the block, one at a time, between commands (R18, R181): the host hands it a command word
(R70), asserts reset (R210), or writes a byte of its memory (R50), or the platform changes which accesses it admits (R191).
Reading the status port (R197) or memory changes nothing and needs no input. -/
inductive HostInput where
  | command (w : CmdWord)
  | reset
  | poke (addr : Addr) (b : Byte)
  | platform (refused : List Window)
  deriving DecidableEq, Repr

/-- The machine. The first seven fields are the block's state, complete by R20; then the host's memory and the platform's `MemOK`,
which R37 calls parameters and the model holds as data; the last four are the model's own. -/
structure State where
  f        : Vector Block 6      -- F0–F5 (R21)
  accS     : Block               -- S, the accumulator (R22)
  kp       : Vector Block 8      -- KP[1..8]; KP[k] stands at place k-1 (R24)
  x        : Vector Addr 4       -- X0–X3 (R29)
  status   : Status              -- ST (R30), KPV among it (R25)
  finfo    : BitVec 64           -- FINFO (R31)
  streamer : Streamer            -- R32
  mem      : Memory              -- the host's data memory (R50)
  refused  : List Window         -- where MemOK is false (R191)
  inputs   : List HostInput      -- what the host does next, first first (R36, R70)
  accesses : List Access         -- the accesses the block has made, oldest first (R51, R63)
  phases   : List Phase          -- the phases its UPDATEs have gone through, oldest first (R159)
  free     : Nat                 -- how many free values have been drawn
  deriving DecidableEq, Repr

/-- Reasons a step can stop with a fault. There is none: a fault of the spec is a next state, in which ERR is set and its record
kept (R182, R184). -/
inductive Fault where
  deriving DecidableEq, Repr

/-- Reasons a step can be refused. -/
inductive Refusal where
  /-- Raised by an arm of `exec` whose instruction has no meaning yet; no arm is left that raises it. Safe: nothing follows. -/
  | notModelled (mnemonic : String)
  deriving DecidableEq, Repr

/-- The Streamer right after reset: PHASE = DONE and PEND = 0 (R39); the other fields are unspecified and are zero here
(DESIGN CHOICE, unsafe: notes/assumptions/1.md). -/
def Streamer.reset : Streamer :=
  { phase := .done, rem := 0, ptr := 0, acca := 0, tailRan := false, ph := 0, pl := 0, qh := 0, ql := 0, pend := false }

/-- The status register right after reset: ERR, CAUSE and KPV are 0 (R39). -/
def Status.reset : Status := { err := false, cause := 0, kpv := false }

/-- The machine right after reset (R39, R210). ST, FINFO, PHASE and PEND are the spec's; the data registers, which it leaves
unspecified, are zero here (DESIGN CHOICE, unsafe: notes/assumptions/1.md); memory lists nothing, the platform refuses nothing
(DESIGN CHOICE: notes/assumptions/2.md, notes/assumptions/4.md), and the host has handed over nothing. -/
def State.reset : State :=
  { f := #v[0, 0, 0, 0, 0, 0], accS := 0, kp := #v[0, 0, 0, 0, 0, 0, 0, 0], x := #v[0, 0, 0, 0],
    status := Status.reset, finfo := 0, streamer := Streamer.reset,
    mem := [], refused := [], inputs := [], accesses := [], phases := [], free := 0 }

end Sys2Proof.Machine
end

