-- ==== Sys2Proof/Machine/Flags.lean ====
section
/-! DEFINITION. There are no flags and no condition codes (spec/10_state.md R34). The only status bits are ERR, CAUSE and KPV of the
status register ST (R30); this file has the fault causes, the updates of ST, and its reading through the status port (R197). -/

namespace Sys2Proof.Machine

/-- The causes of a fault (spec/60_exceptions.md R183). -/
inductive Cause where
  | illegalCommand
  | misaligned
  | keysInvalid
  | accessFault
  | addrRange
  deriving DecidableEq, Repr

/-- The cause codes of R183. Code 0 is "none", and 6–15 are never raised. -/
def Cause.code : Cause → BitVec 4
  | .illegalCommand => 1
  | .misaligned => 2
  | .keysInvalid => 3
  | .accessFault => 4
  | .addrRange => 5

/-- What a raise records: the cause, and the value for FINFO (R183, R184). -/
structure Trap where
  cause : Cause
  info : BitVec 64
  deriving DecidableEq, Repr

/-- ST on a fault: ERR set, CAUSE the code, KPV kept (R184). -/
def Status.record (st : Status) (c : Cause) : Status := { st with err := true, cause := c.code }

/-- ST with a new KPV (R25). -/
def Status.withKpv (st : Status) (b : Bool) : Status := { st with kpv := b }

/-- The 16-bit register ST (R30): bits 15:6 read as 0, bit 5 is KPV, bits 4:1 are CAUSE, bit 0 is ERR. -/
def Status.word (st : Status) : BitVec 16 :=
  0#10 ++ BitVec.ofBool st.kpv ++ st.cause ++ BitVec.ofBool st.err

/-- What the host reads through the status port between commands, ST and FINFO (R30, R31, R197). It is a function of the state, so
the read has no side effect. -/
def State.statusPort (s : State) : BitVec 16 × BitVec 64 := (s.status.word, s.finfo)

end Sys2Proof.Machine
end

