-- ==== Sys2Proof/Machine/Ops.lean ====
section
/-! DEFINITION. The named operations over memory and the machine: bytes and Blocks of memory (spec/20_memory.md R52–R57), a command
as a computation that completes or raises (spec/60_exceptions.md R182), taking a fault (R184), and reset, the only way out of the
halted state (R193, spec/70_reset_and_hazards.md R210). -/

namespace Sys2Proof.Machine

/-! Bytes of memory -/

/-- The byte at an address. -/
def Memory.read : Memory → Nat → Byte
  | [], _ => Config.unlistedByte
  | (a', b') :: m, a => if a = a' then b' else Memory.read m a

/-- The memory with one byte written, in canonical form: a byte that reads as an unlisted one is not listed. -/
def Memory.write : Memory → Nat → Byte → Memory
  | [], a, b => if b = Config.unlistedByte then [] else [(a, b)]
  | (a', b') :: m, a, b =>
    if a < a' then
      if b = Config.unlistedByte then (a', b') :: m else (a, b) :: (a', b') :: m
    else if a = a' then
      if b = Config.unlistedByte then m else (a, b) :: m
    else (a', b') :: Memory.write m a b

/-- The canonical form, for addresses from `lo` on: rising, inside the 64-bit address space (R50), and no entry that reads as an
unlisted byte does. -/
def Memory.wfFrom : Nat → Memory → Bool
  | _, [] => true
  | lo, (a, b) :: m => decide (lo ≤ a) && decide (a < 2 ^ 64) && decide (b ≠ Config.unlistedByte) && Memory.wfFrom (a + 1) m

/-- The canonical form of memory. -/
def Memory.wf (m : Memory) : Bool := Memory.wfFrom 0 m

/-! Blocks of memory -/

/-- Byte `i` of a Block: bits 8i+7..8i (R52). -/
def Block.byte (v : Block) (i : Nat) : Byte := v.extractLsb' (8 * i) 8

/-- The value of the `n` bytes at an address, the byte at the lowest address least significant (R52, R54). -/
def Memory.readBytes (m : Memory) (a : Nat) : Nat → Block
  | 0 => 0
  | n + 1 => Memory.readBytes m a n ||| (Memory.read m (a + n)).setWidth 128 <<< (8 * n)

/-- The Block at an address (R54). -/
def Memory.readBlock (m : Memory) (a : Nat) : Block := Memory.readBytes m a 16

/-- The memory with the `n` lowest bytes of a Block written at an address (R52, R55). -/
def Memory.writeBytes (m : Memory) (a : Nat) (v : Block) : Nat → Memory
  | 0 => m
  | n + 1 => Memory.write (Memory.writeBytes m a v n) (a + n) (Block.byte v n)

/-- The memory with a Block written at an address (R55). -/
def Memory.writeBlock (m : Memory) (a : Nat) (v : Block) : Memory := Memory.writeBytes m a v 16

/-! Commands -/

/-- A command as a computation on the state: it completes with a value or raises a trap, and either way says what the state was
then (R182, R184). -/
abbrev Cmd (α : Type) := EStateM Trap State α

/-- `raise <Fault>(info)` (R184): the command stops here. -/
def raise {α : Type} (c : Cause) (info : BitVec 64) : Cmd α := throw ⟨c, info⟩

/-- TAKING A FAULT, the one shared operation (R184): ERR, CAUSE and FINFO are written and nothing else. Control goes nowhere; the
block is halted from here on (R185). -/
def takeFault (t : Trap) (s : State) : State :=
  { s with status := s.status.record t.cause, finfo := t.info }

/-- The state in which a raise leaves the machine: registers as the command found them (spec/93_implementation_defined.md U10
lets a model keep them; DESIGN CHOICE: notes/assumptions/5.md), memory as it was when the command stopped (R192). -/
def atRaise (before now : State) : State :=
  { before with mem := now.mem, accesses := now.accesses, phases := now.phases }

/-- A command run to its end: completed, or the fault taken (R182). -/
def command (c : Cmd Unit) (s : State) : Host.Outcome State Fault Refusal :=
  match c.run s with
  | .ok _ s' => .next s'
  | .error t s' => .next (takeFault t (atRaise s s'))

/-! Reset, which leaves the halted state -/

/-- The Streamer outside an UPDATE: PHASE = DONE and PEND = 0, and every other field holds an unspecified value (R33, R39):
a free value, numbered `n` (notes/assumptions/3.md). -/
def Streamer.released (n : Nat) : Streamer :=
  { phase := .done, pend := false,
    rem := Config.freeBits 64 n 20, ptr := Config.freeBits 64 n 21, acca := Config.freeBits 64 n 22,
    tailRan := (Config.freeBits 1 n 23).getLsbD 0,
    ph := Config.freeBits 128 n 24, pl := Config.freeBits 128 n 25,
    qh := Config.freeBits 128 n 26, ql := Config.freeBits 128 n 27 }

/-- The reset input asserted between commands (R210, R211): ST and FINFO are 0, PHASE is DONE, PEND is 0, every data register
holds an unspecified value (a free value), and memory is not written. There is no return from a fault but this (R193). -/
def resetBlock (s : State) : State :=
  { s with
    f := Vector.ofFn fun i => Config.freeBits 128 s.free i.val
    accS := Config.freeBits 128 s.free 6
    kp := Vector.ofFn fun i => Config.freeBits 128 s.free (8 + i.val)
    x := Vector.ofFn fun i => Config.freeBits 64 s.free (16 + i.val)
    status := Status.reset
    finfo := 0
    streamer := Streamer.released s.free
    free := s.free + 1 }

/-! The platform and the accesses of a command -/

/-- `MemOK(addr, kind)` (R191): no window of the platform's refuses it. -/
def State.memOK (s : State) (a : Addr) (k : AccessKind) : Bool :=
  !(s.refused.any fun w => decide (w.kind = k) && decide (w.base ≤ a.toNat) && decide (a.toNat < w.base + w.size))

/-- A 16-byte access may be made only at a multiple of 16: `addr[3:0] = 0` (R54, R56, R186). -/
def aligned16 (a : Addr) : Bool := a.extractLsb' 0 4 == 0

/-- The alignment test of one address (R186). -/
def checkAligned (a : Addr) : Cmd Unit := if aligned16 a then pure () else raise .misaligned a

/-- The range test of a command that reads or writes `n` Blocks from a base on (R57, R188): the sum is not truncated. -/
def checkRange (base : Addr) (n : Nat) : Cmd Unit :=
  if base.toNat + 16 * n > 2 ^ 64 then raise .addrRange base else pure ()

/-- The address of Block `i` of a buffer. After `checkRange` the sum is below 2^64, so nothing wraps (R57). -/
def blockAddr (base : Addr) (i : Nat) : Addr := BitVec.ofNat 64 (base.toNat + 16 * i)

/-- The state after one more access of the block. -/
def State.logged (s : State) (k : AccessKind) (a : Addr) : State := { s with accesses := s.accesses ++ [⟨k, a⟩] }

/-- `MemRead(addr, 16)` (R54). -/
def memRead (a : Addr) : Cmd Block := fun s =>
  if aligned16 a then
    if s.memOK a .read then .ok (Memory.readBlock s.mem a.toNat) (s.logged .read a)
    else .error ⟨.accessFault, a⟩ s
  else .error ⟨.misaligned, a⟩ s

/-- The state after a Block is stored at an address. -/
def State.stored (s : State) (a : Addr) (v : Block) : State :=
  { s.logged .write a with mem := Memory.writeBlock s.mem a.toNat v }

/-- `MemWrite(addr, 16, v)` (R55). -/
def memWrite (a : Addr) (v : Block) : Cmd Unit := fun s =>
  if aligned16 a then
    if s.memOK a .write then .ok () (s.stored a v)
    else .error ⟨.accessFault, a⟩ s
  else .error ⟨.misaligned, a⟩ s

/-- `n` Blocks read from a base on, from Block `i`, in ascending order (R124). -/
def memReadBlocks (base : Addr) : Nat → Nat → Cmd (List Block)
  | 0, _ => pure []
  | n + 1, i => do
    let v ← memRead (blockAddr base i)
    let vs ← memReadBlocks base n (i + 1)
    pure (v :: vs)

/-- Blocks written from a base on, from Block `i`, in ascending order (R125). -/
def memWriteBlocks (base : Addr) : List Block → Nat → Cmd Unit
  | [], _ => pure ()
  | v :: vs, i => do
    memWrite (blockAddr base i) v
    memWriteBlocks base vs (i + 1)

end Sys2Proof.Machine
end

