-- ==== Sys2Proof/Machine/Operands.lean ====
section
/-! DEFINITION. Every operand form: field registers by index (spec/10_state.md R26–R28), scalar registers (R29), key powers, the
halfword immediates (spec/30_encoding.md R80), and the destination check a word must pass (R83 (b)). -/

namespace Sys2Proof.Machine

/-! Field registers -/

/-- KP[k], 1 ≤ k ≤ 8 (R24). No rule uses another k (spec/42_keypowers.md R128). -/
def State.keyPower (s : State) (k : Nat) : Block := if h : k - 1 < 8 then s.kp[k - 1] else 0

/-- What a field-register index holds: F0–F5, S, the constant G, KP1–KP8 (R26). -/
def State.field (s : State) (i : FIdx) : Block :=
  if h : i.val < 6 then s.f[i.val]
  else if i.val = 6 then s.accS
  else if i.val = 7 then Config.gstar
  else s.keyPower (i.val - 7)

/-- Whether an index may be read now: KP1–KP8 only when KPV = 1 (R26, R27). -/
def State.readable (s : State) (i : FIdx) : Bool := decide (i.val < 8) || s.status.kpv

/-- `F[i]` (R27): `KeysInvalid`, with FINFO 0, for KP1–KP8 while KPV = 0. A read has no side effect. -/
def readField (i : FIdx) : Cmd Block := fun s =>
  if s.readable i then .ok (s.field i) s else .error ⟨.keysInvalid, 0⟩ s

/-- The state after all 128 bits of F0–F5 or S are replaced (R28); other indices are not written. -/
def State.withField (s : State) (i : FIdx) (v : Block) : State :=
  if h : i.val < 6 then { s with f := s.f.set i.val v }
  else if i.val = 6 then { s with accS := v }
  else s

/-- `F[i] <- v` (R28). -/
def writeField (i : FIdx) (v : Block) : Cmd Unit := fun s => .ok () (s.withField i v)

/-- The destination constraint of R83 (b): a command that names G or KP1–KP8 as destination is illegal, and FINFO holds its word
(R183, R190). The decoder passes no such command on; this is what the command does all the same. -/
def checkDest (i : Instr) (fd : FIdx) : Cmd Unit :=
  if FIdx.writable fd then pure () else raise .illegalCommand ((encode i).setWidth 64)

/-! Scalar registers -/

/-- What a scalar register holds (R29). -/
def State.scalar (s : State) (i : XIdx) : Addr := s.x[i.val]

/-- `X[i]` (R29): reading never faults. -/
def readScalar (i : XIdx) : Cmd Addr := fun s => .ok (s.scalar i) s

/-- The state after a scalar register is replaced. -/
def State.withScalar (s : State) (i : XIdx) (v : Addr) : State := { s with x := s.x.set i.val v }

/-- `X[i] <- v` (R29). -/
def writeScalar (i : XIdx) (v : Addr) : Cmd Unit := fun s => .ok () (s.withScalar i v)

/-- `zext_64(imm16) << (16·hw)` (R80, R172). -/
def immAtHalfword (hw : HalfwordIdx) (imm16 : BitVec 16) : Addr := imm16.setWidth 64 <<< (16 * hw.val)

/-- A value with halfword `hw` replaced, the other 48 bits kept (R80, R173). -/
def insertHalfword (old : Addr) (hw : HalfwordIdx) (imm16 : BitVec 16) : Addr :=
  (old &&& ~~~(immAtHalfword hw 0xFFFF)) ||| immAtHalfword hw imm16

/-! The KeyPowers store -/

/-- The state after a whole table is written and KPV set (R121, R124). -/
def State.withKeys (s : State) (t : Vector Block 8) : State := { s with kp := t, status := s.status.withKpv true }

/-- The state after the table is destroyed and KPV cleared (R126). -/
def State.withoutKeys (s : State) : State :=
  { s with kp := #v[0, 0, 0, 0, 0, 0, 0, 0], status := s.status.withKpv false }

/-- A command that needs the table raises `KeysInvalid` while KPV = 0 (R187). -/
def checkKeys : Cmd Unit := fun s => if s.status.kpv then .ok () s else .error ⟨.keysInvalid, 0⟩ s

end Sys2Proof.Machine
end

