-- ==== Sys2Proof/Machine/Arith.lean ====
section
/-! DEFINITION. The data path: halves, the half swap, the two 64-bit shifts, the carry-less multiplier, Montgomery reduction,
one-block multiplication and the key table (spec/00_scope.md R11–R15, spec/40_fieldops.md R91–R101, spec/41_blockmul.md R110,
spec/42_keypowers.md R121). All are total (R106, R110). -/

namespace Sys2Proof.Machine

/-- `lo(v) = v[63:0]` (R11). -/
def lo (v : Block) : Half := v.extractLsb' 0 64

/-- `hi(v) = v[127:64]` (R11). -/
def hi (v : Block) : Half := v.extractLsb' 64 64

/-- `swap64(v) = {lo(v), hi(v)}` (R13, R97). -/
def swap64 (v : Block) : Block := lo v ++ hi v

/-- `v << 64` within 128 bits (R98). -/
def shl64 (v : Block) : Block := lo v ++ (0 : Half)

/-- `v >> 64` (R99). -/
def shr64 (v : Block) : Block := (0 : Half) ++ hi v

/-- The part of a carry-less product that the `n` low bits of `b` contribute: the exclusive or of `a·x^i` over the `i < n` with
`b[i]` set. -/
def clmulLow (a : Half) (b : Half) : Nat → Block
  | 0 => 0
  | n + 1 => clmulLow a b n ^^^ (if b.getLsbD n then a.setWidth 128 <<< n else 0)

/-- `clmul64(a, b)`, the 64×64→128 carry-less product (R14). -/
def clmul64 (a b : Half) : Block := clmulLow a b 64

/-- A 256-bit PartialProduct (PH, PL) (R17). -/
structure Partial where
  ph : Block
  pl : Block
  deriving DecidableEq, Repr

/-- Both halves exclusive-ored (R143, R147). -/
def Partial.xor (p q : Partial) : Partial := ⟨p.ph ^^^ q.ph, p.pl ^^^ q.pl⟩

/-- `clmul128(A, B)`, the 256-bit carry-less product in the schoolbook form (R15). -/
def clmul128 (a b : Block) : Partial :=
  let ll := clmul64 (lo a) (lo b)
  let lh := clmul64 (lo a) (hi b)
  let hl := clmul64 (hi a) (lo b)
  let hh := clmul64 (hi a) (hi b)
  let mid := lh ^^^ hl
  ⟨hh ^^^ shr64 mid, ll ^^^ shl64 mid⟩

/-- `reduce(PH, PL)`, the six steps of R101. -/
def reduce (p : Partial) : Block :=
  let t := clmul64 (lo Config.gstar) (lo p.pl)
  let t' := swap64 t
  let pl2 := p.pl ^^^ t'
  let z := clmul64 (hi Config.gstar) (hi pl2)
  let z2 := pl2 ^^^ z
  p.ph ^^^ z2

/-- `BlockMul(A, B) = reduce(clmul128(A, B))` (R110). -/
def blockMul (a b : Block) : Block := reduce (clmul128 a b)

/-- The entries of the table KEYEXP builds (R121): KP[1] = K, and KP[i+1] = BlockMul(KP[i], K). The number is i, from 0. -/
def keyEntry (k : Block) : Nat → Block
  | 0 => k
  | i + 1 => blockMul (keyEntry k i) k

/-- The whole table of a raw key (R121). -/
def keyTable (k : Block) : Vector Block 8 := Vector.ofFn fun i => keyEntry k i.val

end Sys2Proof.Machine
end

