-- ==== Sys2Proof/Machine/FieldOps.lean ====
section
/-! DEFINITION. The FieldOps commands (spec/40_fieldops.md R90–R101). Common to all: `IllegalCommand` for a destination that may not
be written, then `KeysInvalid` for a KP source while KPV = 0, sources read before the destination is written, nothing else
written. -/

namespace Sys2Proof.Machine

/-- A command of format R3 that writes a function of two sources to its destination. -/
def fieldOp2 (i : Instr) (fd fs1 fs2 : FIdx) (op : Block → Block → Block) : Cmd Unit := do
  checkDest i fd
  let a ← readField fs1
  let b ← readField fs2
  writeField fd (op a b)

/-- A command of format R2 that writes a function of one source to its destination. -/
def fieldOp1 (i : Instr) (fd fs1 : FIdx) (op : Block → Block) : Cmd Unit := do
  checkDest i fd
  let a ← readField fs1
  writeField fd (op a)

/-- XOR (R90). -/
def execXor (fd fs1 fs2 : FIdx) (s : State) : Host.Outcome State Fault Refusal :=
  command (fieldOp2 (.xor fd fs1 fs2) fd fs1 fs2 fun a b => a ^^^ b) s

/-- CLMUL.LL (R92). -/
def execClmulLL (fd fs1 fs2 : FIdx) (s : State) : Host.Outcome State Fault Refusal :=
  command (fieldOp2 (.clmulLL fd fs1 fs2) fd fs1 fs2 fun a b => clmul64 (lo a) (lo b)) s

/-- CLMUL.LH (R93): low half of the first source, high half of the second. -/
def execClmulLH (fd fs1 fs2 : FIdx) (s : State) : Host.Outcome State Fault Refusal :=
  command (fieldOp2 (.clmulLH fd fs1 fs2) fd fs1 fs2 fun a b => clmul64 (lo a) (hi b)) s

/-- CLMUL.HL (R94): high half of the first source, low half of the second. -/
def execClmulHL (fd fs1 fs2 : FIdx) (s : State) : Host.Outcome State Fault Refusal :=
  command (fieldOp2 (.clmulHL fd fs1 fs2) fd fs1 fs2 fun a b => clmul64 (hi a) (lo b)) s

/-- CLMUL.HH (R95). -/
def execClmulHH (fd fs1 fs2 : FIdx) (s : State) : Host.Outcome State Fault Refusal :=
  command (fieldOp2 (.clmulHH fd fs1 fs2) fd fs1 fs2 fun a b => clmul64 (hi a) (hi b)) s

/-- SWAP64 (R97). -/
def execSwap64 (fd fs1 : FIdx) (s : State) : Host.Outcome State Fault Refusal :=
  command (fieldOp1 (.swap64 fd fs1) fd fs1 swap64) s

/-- SHL64 (R98). -/
def execShl64 (fd fs1 : FIdx) (s : State) : Host.Outcome State Fault Refusal :=
  command (fieldOp1 (.shl64 fd fs1) fd fs1 shl64) s

/-- SHR64 (R99). -/
def execShr64 (fd fs1 : FIdx) (s : State) : Host.Outcome State Fault Refusal :=
  command (fieldOp1 (.shr64 fd fs1) fd fs1 shr64) s

/-- REDUCE (R100): the first source is PH, the second PL. -/
def execReduce (fd fph fpl : FIdx) (s : State) : Host.Outcome State Fault Refusal :=
  command (fieldOp2 (.reduce fd fph fpl) fd fph fpl fun ph pl => reduce ⟨ph, pl⟩) s

end Sys2Proof.Machine
end

