-- ==== Sys2Proof/Machine/BlockMul.lean ====
section
/-! DEFINITION. The BlockMul commands (spec/41_blockmul.md R112, R113). -/

namespace Sys2Proof.Machine

/-- BMUL (R112). -/
def execBmul (fd fs1 fs2 : FIdx) (s : State) : Host.Outcome State Fault Refusal :=
  command (fieldOp2 (.bmul fd fs1 fs2) fd fs1 fs2 blockMul) s

/-- The accesses of BLOCKMUL (R113): both addresses tested, both operands read, then the product written over the first. -/
def blockMulInMemory (xa xb : XIdx) : Cmd Unit := do
  let a1 ← readScalar xa
  let a2 ← readScalar xb
  checkAligned a1
  checkAligned a2
  let op1 ← memRead a1
  let op2 ← memRead a2
  memWrite a1 (blockMul op1 op2)

/-- BLOCKMUL (R113, R114). -/
def execBlockmul (xa xb : XIdx) (s : State) : Host.Outcome State Fault Refusal :=
  command (blockMulInMemory xa xb) s

end Sys2Proof.Machine
end

