-- ==== Sys2Proof/Machine/HostMove.lean ====
section
/-! DEFINITION. The host data-movement commands (spec/44_host_commands.md R170–R173). -/

namespace Sys2Proof.Machine

/-- LDB's work (R170). -/
def loadBlock (fd : FIdx) (xa : XIdx) : Cmd Unit := do
  checkDest (.ldb fd xa) fd
  let a ← readScalar xa
  let v ← memRead a
  writeField fd v

/-- LDB (R170). -/
def execLdb (fd : FIdx) (xa : XIdx) (s : State) : Host.Outcome State Fault Refusal :=
  command (loadBlock fd xa) s

/-- STB's work (R171): the source is read before the address is tested, so `KeysInvalid` comes before `Misaligned` (R189). -/
def storeBlock (fs : FIdx) (xa : XIdx) : Cmd Unit := do
  let v ← readField fs
  let a ← readScalar xa
  memWrite a v

/-- STB (R171). -/
def execStb (fs : FIdx) (xa : XIdx) (s : State) : Host.Outcome State Fault Refusal :=
  command (storeBlock fs xa) s

/-- SETXZ (R172). -/
def execSetxz (xd : XIdx) (hw : HalfwordIdx) (imm16 : BitVec 16) (s : State) : Host.Outcome State Fault Refusal :=
  command (writeScalar xd (immAtHalfword hw imm16)) s

/-- SETXK's work (R173). -/
def keepHalfwords (xd : XIdx) (hw : HalfwordIdx) (imm16 : BitVec 16) : Cmd Unit := do
  let old ← readScalar xd
  writeScalar xd (insertHalfword old hw imm16)

/-- SETXK (R173). -/
def execSetxk (xd : XIdx) (hw : HalfwordIdx) (imm16 : BitVec 16) (s : State) : Host.Outcome State Fault Refusal :=
  command (keepHalfwords xd hw imm16) s

end Sys2Proof.Machine
end

