-- ==== Sys2Proof/Machine/KeyPowers.lean ====
section
/-! DEFINITION. The KeyPowers commands (spec/42_keypowers.md R121–R126). -/

namespace Sys2Proof.Machine

/-- KEYEXP's work (R121, R122): the raw key is stored as KP[1] unchanged. -/
def expandKey (fs1 : FIdx) : Cmd Unit := do
  let k ← readField fs1
  modify fun s => s.withKeys (keyTable k)

/-- KEYEXP (R121). -/
def execKeyexp (fs1 : FIdx) (s : State) : Host.Outcome State Fault Refusal :=
  command (expandKey fs1) s

/-- KPLD's work (R124): all eight reads come before anything is written. Entry k stands at offset 16·(k-1) (R61). -/
def loadKeys (xa : XIdx) : Cmd Unit := do
  let base ← readScalar xa
  checkAligned base
  checkRange base 8
  let t ← memReadBlocks base 8 0
  modify fun s => s.withKeys (Vector.ofFn fun i => t.getD i.val 0)

/-- KPLD (R124). -/
def execKpld (xa : XIdx) (s : State) : Host.Outcome State Fault Refusal :=
  command (loadKeys xa) s

/-- KPST's work (R125): `KeysInvalid`, then the tests of the address, then eight writes in ascending order, of which those before
a refused one have been made (R192). -/
def storeKeys (xa : XIdx) : Cmd Unit := do
  checkKeys
  let base ← readScalar xa
  checkAligned base
  checkRange base 8
  let s ← get
  memWriteBlocks base s.kp.toList 0

/-- KPST (R125). -/
def execKpst (xa : XIdx) (s : State) : Host.Outcome State Fault Refusal :=
  command (storeKeys xa) s

/-- KPCLR (R126). -/
def execKpclr (s : State) : Host.Outcome State Fault Refusal :=
  command (modify State.withoutKeys) s

end Sys2Proof.Machine
end

