-- ==== Sys2Proof/Machine/Streamer.lean ====
section
/-! DEFINITION. The Streamer command UPDATE as the phase machine of spec/43_streamer.md R145–R152. Each phase rule is one definition,
says what PHASE becomes, and is run by `runPhases` until PHASE is DONE. -/

namespace Sys2Proof.Machine

/-- The Streamer's fields changed by a function. -/
def modifyStreamer (g : Streamer → Streamer) : Cmd Unit := modify fun s => { s with streamer := g s.streamer }

/-- `PHASE <- p` (R145). -/
def toPhase (p : Phase) : Cmd Unit := modifyStreamer fun st => { st with phase := p }

/-- `S <- v` inside an UPDATE. -/
def setS (v : Block) : Cmd Unit := modify fun s => { s with accS := v }

/-- `(PH, PL) <- (0, 0)` (R147, R149, R150). -/
def clearPartial : Cmd Unit := modifyStreamer fun st => { st with ph := 0, pl := 0 }

/-- `(PH, PL) <- (PH, PL) xor p` (R147, R149, R150). -/
def accumulate (p : Partial) : Cmd Unit :=
  modifyStreamer fun st => { st with ph := st.ph ^^^ p.ph, pl := st.pl ^^^ p.pl }

/-- Blocks `j`, `j+1`, … of a group of `r`, `n` of them, multiplied and accumulated: block j, with S folded in when j is 0, times
KP[r - j] (R142, R144, R147, R149). -/
def absorb (r : Nat) : Nat → Nat → Cmd Unit
  | 0, _ => pure ()
  | n + 1, j => do
    let s ← get
    let m ← memRead (blockAddr s.streamer.ptr j)
    accumulate (clmul128 (if j = 0 then m ^^^ s.accS else m) (s.keyPower (r - j)))
    absorb r n (j + 1)

/-- `PTR <- PTR + 16·r; REM <- REM - r` (R140). -/
def consume (r : Nat) : Cmd Unit :=
  modifyStreamer fun st => { st with ptr := st.ptr + BitVec.ofNat 64 (16 * r), rem := st.rem - BitVec.ofNat 64 r }

/-- Whether at least a stride remains: REM ≥ 8 (R145). -/
def strideLeft (s : State) : Bool := decide (8 ≤ s.streamer.rem.toNat)

/-- INIT (R146), with the checks of R138 made in their order before any access when N > 0. -/
def phaseInit (xin xn xacc : XIdx) : Cmd Unit := do
  let input ← readScalar xin
  let n ← readScalar xn
  let acc ← readScalar xacc
  modifyStreamer fun st => { st with rem := n, ptr := input, acca := acc, tailRan := false, pend := false }
  if n.toNat > 0 then
    checkKeys
    checkAligned input
    checkAligned acc
    checkRange input n.toNat
    let v ← memRead acc
    setS v
  toPhase (if n.toNat % 8 > 0 then .tail else .aligned)

/-- TAIL (R147): the first r = REM mod 8 blocks, reduced at once. -/
def phaseTail : Cmd Unit := do
  let s ← get
  let r := s.streamer.rem.toNat % 8
  clearPartial
  absorb r r 0
  let s ← get
  setS (reduce ⟨s.streamer.ph, s.streamer.pl⟩)
  consume r
  modifyStreamer fun st => { st with tailRan := true }
  toPhase .aligned

/-- ALIGNED (R148): a stride remains, or the tail's result is the result, or N was 0. -/
def phaseAligned : Cmd Unit := do
  let s ← get
  if strideLeft s then
    toPhase .strideFirst
  else
    if s.streamer.tailRan then
      memWrite s.streamer.acca s.accS
    toPhase .done

/-- What both stride rules do after S is settled (R149, R150): eight blocks accumulated, their product kept as the pending one. -/
def stride : Cmd Unit := do
  clearPartial
  absorb 8 8 0
  modifyStreamer fun st => { st with qh := st.ph, ql := st.pl, pend := true }
  consume 8
  let s ← get
  toPhase (if strideLeft s then .strideInterleaved else .finalize)

/-- STRIDE_FIRST (R149). -/
def phaseStrideFirst : Cmd Unit := stride

/-- STRIDE_INTERLEAVED (R150): the previous stride's deferred reduction becomes S before this stride's blocks. -/
def phaseStrideInterleaved : Cmd Unit := do
  let s ← get
  setS (reduce ⟨s.streamer.qh, s.streamer.ql⟩)
  stride

/-- FINALIZE (R151). -/
def phaseFinalize : Cmd Unit := do
  let s ← get
  let v := reduce ⟨s.streamer.qh, s.streamer.ql⟩
  setS v
  modifyStreamer fun st => { st with pend := false }
  memWrite s.streamer.acca v
  toPhase .done

/-- The phase PHASE names now, noted in the trace. -/
def enterPhase : Cmd Phase := fun s => .ok s.streamer.phase { s with phases := s.phases ++ [s.streamer.phase] }

/-- The rule of each phase (R146–R152). -/
def phaseRule (xin xn xacc : XIdx) : Phase → Cmd Unit
  | .init => phaseInit xin xn xacc
  | .tail => phaseTail
  | .aligned => phaseAligned
  | .strideFirst => phaseStrideFirst
  | .strideInterleaved => phaseStrideInterleaved
  | .finalize => phaseFinalize
  | .done => pure ()

/-- The phase machine, at most `fuel` phases long (R145): the rule of the current phase, until PHASE is DONE. -/
def runPhases (xin xn xacc : XIdx) : Nat → Cmd Unit
  | 0 => pure ()
  | fuel + 1 => do
    let p ← enterPhase
    if p = .done then pure ()
    else
      phaseRule xin xn xacc p
      runPhases xin xn xacc fuel

/-- A command's worth of phases for N blocks: INIT, TAIL, ALIGNED, FINALIZE and DONE, and N/8 strides (R159, R231). -/
def phaseFuel (n : Addr) : Nat := n.toNat / 8 + 6

/-- The Streamer is released at the end of the command: what it held is unspecified from here on (R33, R136). -/
def releaseStreamer : Cmd Unit := modify fun s => { s with streamer := Streamer.released s.free, free := s.free + 1 }

/-- UPDATE's work (R135, R145): INIT is entered, and the phases run until DONE. -/
def updateAccumulator (xin xn xacc : XIdx) : Cmd Unit := do
  let n ← readScalar xn
  toPhase .init
  runPhases xin xn xacc (phaseFuel n)
  releaseStreamer

/-- UPDATE (R135). -/
def execUpdate (xin xn xacc : XIdx) (s : State) : Host.Outcome State Fault Refusal :=
  command (updateAccumulator xin xn xacc) s

end Sys2Proof.Machine
end

