-- ==== Sys2Proof/Machine/Dispatch.lean ====
section
/-! DEFINITION. One arm per command (spec/30_encoding.md R78), each a direct call of the command's meaning. -/

namespace Sys2Proof.Machine

def exec (i : Instr) (s : State) : Host.Outcome State Fault Refusal :=
  match i with
  -- FieldOps
  | .xor fd fs1 fs2 => Sys2Proof.Machine.execXor fd fs1 fs2 s
  | .clmulLL fd fs1 fs2 => Sys2Proof.Machine.execClmulLL fd fs1 fs2 s
  | .clmulLH fd fs1 fs2 => Sys2Proof.Machine.execClmulLH fd fs1 fs2 s
  | .clmulHL fd fs1 fs2 => Sys2Proof.Machine.execClmulHL fd fs1 fs2 s
  | .clmulHH fd fs1 fs2 => Sys2Proof.Machine.execClmulHH fd fs1 fs2 s
  | .swap64 fd fs1 => Sys2Proof.Machine.execSwap64 fd fs1 s
  | .shl64 fd fs1 => Sys2Proof.Machine.execShl64 fd fs1 s
  | .shr64 fd fs1 => Sys2Proof.Machine.execShr64 fd fs1 s
  | .reduce fd fph fpl => Sys2Proof.Machine.execReduce fd fph fpl s
  -- BlockMul
  | .bmul fd fs1 fs2 => Sys2Proof.Machine.execBmul fd fs1 fs2 s
  | .blockmul xa xb => Sys2Proof.Machine.execBlockmul xa xb s
  -- KeyPowers
  | .keyexp fs1 => Sys2Proof.Machine.execKeyexp fs1 s
  | .kpld xa => Sys2Proof.Machine.execKpld xa s
  | .kpst xa => Sys2Proof.Machine.execKpst xa s
  | .kpclr => Sys2Proof.Machine.execKpclr s
  -- Streamer
  | .update xin xn xacc => Sys2Proof.Machine.execUpdate xin xn xacc s
  -- host data movement
  | .ldb fd xa => Sys2Proof.Machine.execLdb fd xa s
  | .stb fs xa => Sys2Proof.Machine.execStb fs xa s
  | .setxz xd hw imm16 => Sys2Proof.Machine.execSetxz xd hw imm16 s
  | .setxk xd hw imm16 => Sys2Proof.Machine.execSetxk xd hw imm16 s

end Sys2Proof.Machine
end

