-- ==== Sys2Proof/Machine/Port.lean ====
section
/-! DEFINITION. The command port (spec/30_encoding.md R70), the halted state (spec/60_exceptions.md R185), illegal words (R190), and
the other things the outside world does between commands (R18, R181). -/

namespace Sys2Proof.Machine

/-- A command word handed to the block. While ERR = 1 it is discarded undecoded (R185); an illegal word raises `IllegalCommand`
with the word in FINFO (R83, R190); any other is executed. -/
def acceptCommand (w : CmdWord) (s : State) : Host.Outcome State Fault Refusal :=
  if s.status.err then .next s
  else
    match decode w with
    | none => .next (takeFault ⟨.illegalCommand, w.setWidth 64⟩ s)
    | some i => exec i s

/-- One input of the outside world taken (R18, R181). -/
def acceptInput (inp : HostInput) (s : State) : Host.Outcome State Fault Refusal :=
  match inp with
  | .command w => acceptCommand w s
  | .reset => .next (resetBlock s)
  | .poke a b => .next { s with mem := Memory.write s.mem a.toNat b }
  | .platform ws => .next { s with refused := ws }

/-- The next input taken from the host's list. With none left the block waits and holds its state (R39, R205). -/
def takeInput (s : State) : Host.Outcome State Fault Refusal :=
  match s.inputs with
  | [] => .next s
  | inp :: rest => acceptInput inp { s with inputs := rest }

/-- The command word that `nbits` bits of `w` are, the bits above zero (R70). -/
def wordOfBits (nbits w : Nat) : CmdWord := BitVec.ofNat 32 (w % 2 ^ nbits)

/-- The state in which the host hands over a command word next. -/
def offerWord (s : State) (w : CmdWord) : State := { s with inputs := .command w :: s.inputs }

end Sys2Proof.Machine
end

