-- ==== Sys2Proof/Machine/Step.lean ====
section
/-! DEFINITION. One step of the machine: the next thing the outside world does, a whole command being one transition
(spec/60_exceptions.md R181), and how a word is placed so that the next step runs it. -/

namespace Sys2Proof.Machine

/-- One step. -/
def step (s : State) : Host.Outcome State Fault Refusal := takeInput s

/-- The state in which the host hands over the given word next. The block fetches nothing (R36): a program is the list of words the
host issues (notes/assumptions/6.md). -/
def State.withFetchWord (s : State) (nbits w : Nat) : State := offerWord s (wordOfBits nbits w)

end Sys2Proof.Machine
end

