-- ==== Sys2Proof/Safety.lean ====
section
/-! DEFINITION. The terms the claims use: the invariant of the machine, the polynomial a bit vector denotes and the field GF(2^128)
(spec/00_scope.md R10, R16), what a command leaves unchanged, and the conditions under which an access goes through. -/

namespace Sys2Proof.Machine

/-! The invariant -/

/-- What holds of the machine between commands: memory in canonical form (notes/assumptions/2.md), CAUSE and FINFO 0 while ERR = 0
(R30, R31), CAUSE one of the codes 1–5 while ERR = 1 (R183), and the Streamer outside an UPDATE with PHASE = DONE and PEND = 0
(R33). -/
structure State.Inv (s : State) : Prop where
  memory_canonical : Memory.wf s.mem = true
  no_record_while_running : s.status.err = false → s.status.cause = 0 ∧ s.finfo = 0
  cause_while_halted : s.status.err = true → 1 ≤ s.status.cause.toNat ∧ s.status.cause.toNat ≤ 5
  streamer_idle : s.streamer.phase = .done ∧ s.streamer.pend = false

/-- The table satisfies the KeyPowers invariant: KP[i+1] = BlockMul(KP[i], KP[1]) for i in 1..7 (R24, R123). -/
def State.keysConsistent (s : State) : Prop :=
  ∀ i, 1 ≤ i → i ≤ 7 → s.keyPower (i + 1) = blockMul (s.keyPower i) (s.keyPower 1)

/-! Polynomials over GF(2) -/

open Polynomial in
/-- The polynomial a value denotes: bit i is the coefficient of x^i (R10). -/
@[irreducible] noncomputable def poly {w : Nat} (v : BitVec w) : (ZMod 2)[X] :=
  ∑ i ∈ Finset.range w, if v.getLsbD i then X ^ i else 0

open Polynomial in
/-- P = x^128 + x^127 + x^126 + x^121 + 1 (R1, R8). -/
@[irreducible] noncomputable def polyP : (ZMod 2)[X] := X ^ 128 + X ^ 127 + X ^ 126 + X ^ 121 + 1

/-- GF(2^128) as polynomials modulo P (R16). -/
abbrev Field128 := AdjoinRoot polyP

/-- x, as an element of the field. -/
noncomputable def fieldX : Field128 := AdjoinRoot.root polyP

/-- The element a Block denotes (R16). -/
noncomputable def elem (v : Block) : Field128 := AdjoinRoot.mk polyP (poly v)

/-- x^-128, the element of the integer R16 prints. -/
noncomputable def xInv128 : Field128 := elem 0x92040000000000000000000000000001

/-! What stays the same -/

/-- Every byte of memory reads as before. -/
def SameMemory (s t : State) : Prop := ∀ a : Nat, Memory.read t.mem a = Memory.read s.mem a

/-- Every byte of memory outside the `n` bytes from `a` on reads as before. -/
def SameMemoryOutside (a n : Nat) (s t : State) : Prop :=
  ∀ c : Nat, (c < a ∨ a + n ≤ c) → Memory.read t.mem c = Memory.read s.mem c

/-- ST and FINFO are as before: ERR, CAUSE, KPV and the record. -/
def SameStatus (s t : State) : Prop := t.status = s.status ∧ t.finfo = s.finfo

/-- The Streamer's internal state and the model's counter of free values are as before. -/
def SameStreamer (s t : State) : Prop := t.streamer = s.streamer ∧ t.free = s.free ∧ t.phases = s.phases

/-- What belongs to the host and the platform is as before: the inputs to come and what the platform refuses. -/
def SameHost (s t : State) : Prop := t.inputs = s.inputs ∧ t.refused = s.refused

/-- The four scalar registers are as before. -/
def SameScalars (s t : State) : Prop := ∀ j : XIdx, t.scalar j = s.scalar j

/-- F0–F5 and S are as before. -/
def SameFields (s t : State) : Prop := ∀ j : FIdx, FIdx.writable j = true → t.field j = s.field j

/-- The table is as before. -/
def SameKeys (s t : State) : Prop := ∀ k, 1 ≤ k → k ≤ 8 → t.keyPower k = s.keyPower k

/-- Every register of the block is as before: F0–F5, S, KP[1..8], X0–X3. -/
def SameRegisters (s t : State) : Prop := SameFields s t ∧ SameKeys s t ∧ SameScalars s t

/-- A command that writes one field register and makes no access: everything but that register is as before. -/
structure FieldFrame (fd : FIdx) (s t : State) : Prop where
  other_fields : ∀ j : FIdx, j ≠ fd → t.field j = s.field j
  keys : SameKeys s t
  scalars : SameScalars s t
  status : SameStatus s t
  memory : SameMemory s t
  accesses : t.accesses = s.accesses
  streamer : SameStreamer s t
  host : SameHost s t

/-- A command that writes one scalar register and makes no access: everything but that register is as before. -/
structure ScalarFrame (xd : XIdx) (s t : State) : Prop where
  other_scalars : ∀ j : XIdx, j ≠ xd → t.scalar j = s.scalar j
  fields : SameFields s t
  keys : SameKeys s t
  status : SameStatus s t
  memory : SameMemory s t
  accesses : t.accesses = s.accesses
  streamer : SameStreamer s t
  host : SameHost s t

/-! When an access goes through -/

/-- The platform admits the accesses of `n` Blocks from a base on. -/
def State.admitsBlocks (s : State) (base : Addr) (n : Nat) (k : AccessKind) : Prop :=
  ∀ i, i < n → s.memOK (blockAddr base i) k = true

/-- A buffer of `n` Blocks ends within the address space: base + 16·n ≤ 2^64, not truncated (R57, R188). -/
def inRange (base : Addr) (n : Nat) : Prop := base.toNat + 16 * n ≤ 2 ^ 64

/-- Block i of a message: the Block at `input + 16·i` (R60). -/
def State.messageBlock (s : State) (input : Addr) (i : Nat) : Block := Memory.readBlock s.mem (input.toNat + 16 * i)

/-! What an UPDATE computes, as values -/

/-- The 256-bit sum of the products of blocks `j`, `j+1`, … of a group of `r`, `n` of them: block j, with the accumulator folded in
when j is 0, times KP[r - j] (R142, R144, R147, R149). -/
def groupSum (key : Nat → Block) (r : Nat) (acc : Block) (m : Nat → Block) : Nat → Nat → Partial
  | 0, _ => ⟨0, 0⟩
  | n + 1, j => (clmul128 (if j = 0 then m j ^^^ acc else m j) (key (r - j))).xor (groupSum key r acc m n (j + 1))

/-- The accumulator after a group of `r` blocks: one reduction of the sum (R143). -/
def groupValue (key : Nat → Block) (r : Nat) (acc : Block) (m : Nat → Block) : Block := reduce (groupSum key r acc m r 0)

/-- The accumulator after `q` strides whose first block is block `b` of the message (R149–R151). -/
def strideValue (key : Nat → Block) (acc : Block) (m : Nat → Block) (b : Nat) : Nat → Block
  | 0 => acc
  | q + 1 => groupValue key 8 (strideValue key acc m b q) fun j => m (b + 8 * q + j)

/-- The accumulator after the tail of `n mod 8` blocks, if there is one (R140, R147). -/
def tailValue (key : Nat → Block) (acc : Block) (m : Nat → Block) (n : Nat) : Block :=
  if n % 8 > 0 then groupValue key (n % 8) acc m else acc

/-- The accumulator after all `n` blocks: the tail first, then the strides (R140, R141). -/
def streamValue (key : Nat → Block) (acc : Block) (m : Nat → Block) (n : Nat) : Block :=
  strideValue key (tailValue key acc m n) m (n % 8) (n / 8)

/-- The one-block-at-a-time evaluation (R156): T = BlockMul(T xor M_i, KP[1]) for each block. -/
def scalarReference (h acc : Block) (m : Nat → Block) : Nat → Block
  | 0 => acc
  | n + 1 => blockMul (scalarReference h acc m n ^^^ m n) h

/-- The reads of blocks `b` .. `b+n-1` of a buffer, ascending (R51, R63). -/
def readsOf (input : Addr) (b n : Nat) : List Access := (List.range' b n).map fun i => ⟨.read, blockAddr input i⟩

/-- The writes of blocks `b` .. `b+n-1` of a buffer, ascending (R51, R63). -/
def writesOf (base : Addr) (b n : Nat) : List Access := (List.range' b n).map fun i => ⟨.write, blockAddr base i⟩

/-- The phases of an UPDATE of n blocks: the table of R159. -/
def phaseTrace (n : Nat) : List Phase :=
  [.init] ++ (if n % 8 > 0 then [.tail] else []) ++ [.aligned] ++
    (if n / 8 > 0 then [.strideFirst] ++ List.replicate (n / 8 - 1) .strideInterleaved ++ [.finalize] else []) ++ [.done]

/-- The state with a fault recorded (R184): ERR = 1, CAUSE the code, FINFO the value, KPV kept, every register, all of memory and
everything else as before. -/
def faulted (s : State) (code : BitVec 4) (info : BitVec 64) : State :=
  { s with status := { s.status with err := true, cause := code }, finfo := info }

/-! When UPDATE completes -/

/-- When an UPDATE of N > 0 blocks completes: KPV = 1, both addresses aligned, the message within the address space, and every access
admitted by the platform (R138, R191). -/
structure UpdateRuns (xin xn xacc : XIdx) (s : State) : Prop where
  blocks : 0 < (s.scalar xn).toNat
  keys : s.status.kpv = true
  input_aligned : aligned16 (s.scalar xin) = true
  acc_aligned : aligned16 (s.scalar xacc) = true
  range : inRange (s.scalar xin) (s.scalar xn).toNat
  acc_read : s.memOK (s.scalar xacc) .read = true
  message_read : s.admitsBlocks (s.scalar xin) (s.scalar xn).toNat .read
  acc_write : s.memOK (s.scalar xacc) .write = true

/-! Faults, as a host sees them -/

/-- A fault as the host sees it (R184, R192): ERR = 1, CAUSE the code, KPV kept, FINFO the value, and no byte of memory written. What
the registers hold then is not observable (spec/93_implementation_defined.md U10), so nothing is said of them. -/
structure Raised (code : BitVec 4) (info : BitVec 64) (s t : State) : Prop where
  err : t.status.err = true
  cause : t.status.cause = code
  kpv : t.status.kpv = s.status.kpv
  finfo : t.finfo = info
  memory : SameMemory s t
  host : SameHost s t

/-- The field-register sources of a command (R72–R75). -/
def sourcesOf : Instr → List FIdx
  | .xor _ fs1 fs2 => [fs1, fs2]
  | .clmulLL _ fs1 fs2 => [fs1, fs2]
  | .clmulLH _ fs1 fs2 => [fs1, fs2]
  | .clmulHL _ fs1 fs2 => [fs1, fs2]
  | .clmulHH _ fs1 fs2 => [fs1, fs2]
  | .swap64 _ fs1 => [fs1]
  | .shl64 _ fs1 => [fs1]
  | .shr64 _ fs1 => [fs1]
  | .reduce _ fph fpl => [fph, fpl]
  | .bmul _ fs1 fs2 => [fs1, fs2]
  | .keyexp fs1 => [fs1]
  | .stb fs _ => [fs]
  | .blockmul _ _ => []
  | .kpld _ => []
  | .kpst _ => []
  | .kpclr => []
  | .update _ _ _ => []
  | .ldb _ _ => []
  | .setxz _ _ _ => []
  | .setxk _ _ _ => []

/-- Whether a command needs the table (R187): KPST, UPDATE with N > 0, or a source specifier 8–15. -/
def needsKeys (i : Instr) (s : State) : Bool :=
  match i with
  | .kpst _ => true
  | .update _ xn _ => decide (0 < (s.scalar xn).toNat)
  | i => (sourcesOf i).any fun f => decide (8 ≤ f.val)

/-- The addresses of a command in operand order, those its alignment tests are made on (R186, R189). -/
def operandAddresses (i : Instr) (s : State) : List Addr :=
  match i with
  | .ldb _ xa => [s.scalar xa]
  | .stb _ xa => [s.scalar xa]
  | .blockmul xa xb => [s.scalar xa, s.scalar xb]
  | .kpld xa => [s.scalar xa]
  | .kpst xa => [s.scalar xa]
  | .update xin xn xacc => if 0 < (s.scalar xn).toNat then [s.scalar xin, s.scalar xacc] else []
  | _ => []

/-- The buffer of a multi-block command, as its base and its number of Blocks (R57, R188). -/
def blockBuffer (i : Instr) (s : State) : Option (Addr × Nat) :=
  match i with
  | .kpld xa => some (s.scalar xa, 8)
  | .kpst xa => some (s.scalar xa, 8)
  | .update xin xn _ => if 0 < (s.scalar xn).toNat then some (s.scalar xin, (s.scalar xn).toNat) else none
  | _ => none

/-- The accesses of a command that completes, in the order its rule lists them: the table of R51, the order of R63. -/
def accessesOf (i : Instr) (s : State) : List Access :=
  match i with
  | .ldb _ xa => [⟨.read, s.scalar xa⟩]
  | .stb _ xa => [⟨.write, s.scalar xa⟩]
  | .blockmul xa xb => [⟨.read, s.scalar xa⟩, ⟨.read, s.scalar xb⟩, ⟨.write, s.scalar xa⟩]
  | .kpld xa => readsOf (s.scalar xa) 0 8
  | .kpst xa => writesOf (s.scalar xa) 0 8
  | .update xin xn xacc =>
    if 0 < (s.scalar xn).toNat then
      [⟨.read, s.scalar xacc⟩] ++ readsOf (s.scalar xin) 0 (s.scalar xn).toNat ++ [⟨.write, s.scalar xacc⟩]
    else []
  | _ => []

/-- The first misaligned address of a command, code 2 (R186). -/
def misalignment (i : Instr) (s : State) : Option (BitVec 4 × BitVec 64) :=
  ((operandAddresses i s).find? fun a => decide (a.toNat % 16 ≠ 0)).map fun a => (2, a)

/-- A buffer that would run past the address space, code 5 with its base (R188). -/
def rangeOverrun (i : Instr) (s : State) : Option (BitVec 4 × BitVec 64) :=
  ((blockBuffer i s).filter fun b => decide (b.1.toNat + 16 * b.2 > 2 ^ 64)).map fun b => (5, b.1)

/-- The first refused access of a command, code 4 (R191). -/
def refusedAccess (i : Instr) (s : State) : Option (BitVec 4 × BitVec 64) :=
  ((accessesOf i s).find? fun a => !s.memOK a.addr a.kind).map fun a => (4, a.addr)

/-- The fault a command reports, as its code and the value for FINFO, or `none` where it completes: the order of checks of R189, the
codes and values of R183. -/
def firstFault (i : Instr) (s : State) : Option (BitVec 4 × BitVec 64) :=
  if i.wf = false then some (1, (encode i).setWidth 64)
  else if (needsKeys i s && !s.status.kpv) = true then some (3, 0)
  else (misalignment i s).or ((rangeOverrun i s).or (refusedAccess i s))

/-- The fault a command word reports (R189): `IllegalCommand` with the word for a word that decodes to no command, else the fault of
its command. -/
def faultOfWord (w : CmdWord) (s : State) : Option (BitVec 4 × BitVec 64) :=
  match decode w with
  | none => some (1, w.setWidth 64)
  | some i => firstFault i s

/-! The opcode map -/

/-- The mnemonic of a command (R78). -/
def mnemonicOf : Instr → String
  | .xor _ _ _ => "XOR"
  | .clmulLL _ _ _ => "CLMUL.LL"
  | .clmulLH _ _ _ => "CLMUL.LH"
  | .clmulHL _ _ _ => "CLMUL.HL"
  | .clmulHH _ _ _ => "CLMUL.HH"
  | .swap64 _ _ => "SWAP64"
  | .shl64 _ _ => "SHL64"
  | .shr64 _ _ => "SHR64"
  | .reduce _ _ _ => "REDUCE"
  | .bmul _ _ _ => "BMUL"
  | .blockmul _ _ => "BLOCKMUL"
  | .keyexp _ => "KEYEXP"
  | .kpld _ => "KPLD"
  | .kpst _ => "KPST"
  | .kpclr => "KPCLR"
  | .update _ _ _ => "UPDATE"
  | .ldb _ _ => "LDB"
  | .stb _ _ => "STB"
  | .setxz _ _ _ => "SETXZ"
  | .setxk _ _ _ => "SETXK"

/-- One row of the table of R78: mnemonic, match, mask, and whether the destination constraint `≤ 6` applies. -/
structure OpcodeRow where
  mnemonic : String
  pattern : CmdWord
  mask : CmdWord
  constrained : Bool

/-- The table of R78, written out once more beside the decoder's own rows, so that a claim can hold one against the other. -/
def opcodeMap : List OpcodeRow := [
  ⟨"XOR", 0x01000000, 0xFF000FFF, true⟩,
  ⟨"CLMUL.LL", 0x02000000, 0xFF000FFF, true⟩,
  ⟨"CLMUL.LH", 0x02000001, 0xFF000FFF, true⟩,
  ⟨"CLMUL.HL", 0x02000002, 0xFF000FFF, true⟩,
  ⟨"CLMUL.HH", 0x02000003, 0xFF000FFF, true⟩,
  ⟨"SWAP64", 0x03000000, 0xFF00FFFF, true⟩,
  ⟨"SHL64", 0x04000000, 0xFF00FFFF, true⟩,
  ⟨"SHR64", 0x05000000, 0xFF00FFFF, true⟩,
  ⟨"REDUCE", 0x06000000, 0xFF000FFF, true⟩,
  ⟨"BMUL", 0x10000000, 0xFF000FFF, true⟩,
  ⟨"BLOCKMUL", 0x11000000, 0xFF0FFFFF, false⟩,
  ⟨"KEYEXP", 0x20000000, 0xFFF0FFFF, false⟩,
  ⟨"KPLD", 0x21000000, 0xFF3FFFFF, false⟩,
  ⟨"KPST", 0x22000000, 0xFF3FFFFF, false⟩,
  ⟨"KPCLR", 0x23000000, 0xFFFFFFFF, false⟩,
  ⟨"UPDATE", 0x30000000, 0xFF03FFFF, false⟩,
  ⟨"LDB", 0x40000000, 0xFF03FFFF, true⟩,
  ⟨"STB", 0x41000000, 0xFF03FFFF, false⟩,
  ⟨"SETXZ", 0x42000000, 0xFF0F0000, false⟩,
  ⟨"SETXK", 0x42080000, 0xFF0F0000, false⟩]

/-! The data path once more -/

/-- The Karatsuba schedule of one product (R111). -/
def karatsuba (a b : Block) : Partial :=
  let l := clmul64 (lo a) (lo b)
  let h := clmul64 (hi a) (hi b)
  let m := clmul64 (lo (a ^^^ swap64 a)) (lo (b ^^^ swap64 b))
  let m' := m ^^^ l ^^^ h
  ⟨h ^^^ shr64 m', l ^^^ shl64 m'⟩

/-- The exclusive or of the one-block products of a group: the right side of R143's equation, block j times KP[r - j]. -/
def productSum (key : Nat → Block) (r : Nat) (acc : Block) (m : Nat → Block) : Nat → Nat → Block
  | 0, _ => 0
  | n + 1, j => blockMul (if j = 0 then m j ^^^ acc else m j) (key (r - j)) ^^^ productSum key r acc m n (j + 1)

end Sys2Proof.Machine
end

