-- ==== Sys2Proof/Certificates/Slice0/Obligations.lean ====
section
/-! DEFINITION. The statements for the provers: the numbered rules of spec/ that say what a command or the machine does. A docstring
names the rule a statement formalises; where a clause is the model's own choice, it says so and names the log entry. -/

open Sys2Proof Sys2Proof.Machine

/-! Encoding (spec/30_encoding.md) -/

/-- R72–R77, R85: the decoder gives every well-formed command back from its word, with every operand at every value. -/
def Obligations.DecodeInvertsEncode : Prop := ∀ i : Instr, i.wf = true → decode (encode i) = some i

/-- R82, R84, R85: a word the decoder accepts is the word of the well-formed command it gives, so no reserved bit is ignored and no
two words mean one command. -/
def Obligations.EncodeInvertsDecode : Prop := ∀ (w : CmdWord) (i : Instr), decode w = some i → i.wf = true ∧ encode i = w

/-- R78: a word is a row's command iff its masked bits are the row's match and the destination constraint holds, for the table of
R78 as Safety.lean writes it out a second time. -/
def Obligations.WordIsCommandIffItsRowMatches : Prop :=
  ∀ r ∈ opcodeMap, ∀ w : CmdWord,
    (∃ i, decode w = some i ∧ mnemonicOf i = r.mnemonic) ↔
      (w &&& r.mask = r.pattern ∧ (r.constrained = true → (w.extractLsb' 20 4).toNat ≤ 6))

/-- R83: a word is illegal iff it matches no row of R78, or matches a row with a destination constraint and names 7–15 as its
destination; the all-zero and the all-ones word are illegal; an illegal word handed over while ERR = 0 raises `IllegalCommand` and
nothing but the fault record is written. -/
def Obligations.IllegalWordsAreExactlyTheSpecs : Prop :=
  (∀ w : CmdWord,
    decode w = none ↔
      ((∀ r ∈ opcodeMap, w &&& r.mask ≠ r.pattern) ∨
        ∃ r ∈ opcodeMap, w &&& r.mask = r.pattern ∧ r.constrained = true ∧ 7 ≤ (w.extractLsb' 20 4).toNat)) ∧
  decode 0x00000000 = none ∧ decode 0xFFFFFFFF = none ∧
  (∀ (s : State) (w : CmdWord) (rest : List HostInput),
    s.inputs = .command w :: rest → s.status.err = false → decode w = none →
      ∃ t, step s = .next t ∧ Raised 1 (w.setWidth 64) { s with inputs := rest } t ∧ SameRegisters s t ∧
        t.streamer = s.streamer)

/-- R85 (which the spec marks derived): the rows the decoder tries are disjoint, so their order does not matter. -/
def Obligations.DecoderRowsAreDisjoint : Prop :=
  decodeRows.Pairwise fun r r' => ∀ w : CmdWord, ¬ (r.selects w = true ∧ r'.selects w = true)

/-- spec/95_test_vectors.md V100–V119: the words the spec prints, one of each command, decode to what it says they are. -/
def Obligations.SpecWordsDecodeAsPrinted : Prop :=
  decode 0x01201000 = some (.xor 2 0 1) ∧ decode 0x0267f000 = some (.clmulLL 6 7 15) ∧
  decode 0x02201001 = some (.clmulLH 2 0 1) ∧ decode 0x02586002 = some (.clmulHL 5 8 6) ∧
  decode 0x02472003 = some (.clmulHH 4 7 2) ∧ decode 0x03400000 = some (.swap64 4 0) ∧
  decode 0x04540000 = some (.shl64 5 4) ∧ decode 0x056a0000 = some (.shr64 6 10) ∧
  decode 0x06032000 = some (.reduce 0 3 2) ∧ decode 0x10668000 = some (.bmul 6 6 8) ∧
  decode 0x11100000 = some (.blockmul 0 1) ∧ decode 0x20090000 = some (.keyexp 9) ∧
  decode 0x21800000 = some (.kpld 2) ∧ decode 0x22c00000 = some (.kpst 3) ∧ decode 0x23000000 = some .kpclr ∧
  decode 0x30fc0000 = some (.update 3 3 3) ∧ decode 0x40680000 = some (.ldb 6 2) ∧
  decode 0x41fc0000 = some (.stb 15 3) ∧ decode 0x4290abcd = some (.setxz 2 1 0xabcd) ∧
  decode 0x42f8ffff = some (.setxk 3 3 0xffff)

/-! The command port and the step (spec/60_exceptions.md) -/

/-- R70, R181: while ERR = 0 a step runs the command the host's next word decodes to, that word taken off the host's list and nothing
else done around it. The list is the model's way to hold what the host issues (notes/assumptions/6.md). -/
def Obligations.StepRunsTheDecodedCommand : Prop :=
  (∀ (s : State) (w : CmdWord) (rest : List HostInput) (i : Instr),
    s.inputs = .command w :: rest → s.status.err = false → decode w = some i →
      step s = exec i { s with inputs := rest }) ∧
  (∀ (s : State) (nbits w : Nat) (i : Instr),
    s.status.err = false → decodeTableWord nbits w = some i → step (s.withFetchWord nbits w) = exec i s)

/-- R185: while ERR = 1 a command word is discarded: nothing changes but that the host has handed it over. A step that clears ERR
takes a reset input. -/
def Obligations.HaltedBlockDiscardsCommandWords : Prop :=
  (∀ (s : State) (w : CmdWord) (rest : List HostInput),
    s.inputs = .command w :: rest → s.status.err = true → step s = .next { s with inputs := rest }) ∧
  (∀ s t : State, s.status.err = true → step s = .next t → t.status.err = false → ∃ rest, s.inputs = .reset :: rest)

/-- R193, R194: until a reset no step, whatever the host or the platform does, changes ST, FINFO or any register of a halted block. -/
def Obligations.HaltedBlockIsFrozenUntilReset : Prop :=
  ∀ s t : State, s.status.err = true → (∀ rest, s.inputs ≠ .reset :: rest) → step s = .next t →
    SameStatus s t ∧ SameRegisters s t ∧ SameStreamer s t ∧ t.accesses = s.accesses

/-- R190: a word that decodes to no command raises `IllegalCommand` (code 1) with the word in FINFO, and no register, no byte of
memory and nothing else is written. -/
def Obligations.IllegalWordRaisesIllegalCommand : Prop :=
  ∀ (s : State) (w : CmdWord) (rest : List HostInput),
    s.inputs = .command w :: rest → s.status.err = false → decode w = none →
      step s = .next (faulted { s with inputs := rest } 1 (w.setWidth 64))

/-- R39, R210, R211: a reset between commands leaves ST and FINFO 0, PHASE = DONE and PEND = 0, and writes no memory. Nothing is said
of the data registers, which it leaves unspecified. -/
def Obligations.ResetInputLeavesTheSpecsValues : Prop :=
  ∀ (s : State) (rest : List HostInput), s.inputs = .reset :: rest →
    ∃ t, step s = .next t ∧ t.status.word = 0 ∧ t.finfo = 0 ∧ t.streamer.phase = .done ∧ t.streamer.pend = false ∧
      t.field 7 = 0xc200000000000000c200000000000000 ∧ t.mem = s.mem ∧ t.refused = s.refused ∧ t.accesses = s.accesses ∧
      t.inputs = rest

/-- R39: the values the spec gives the machine right after reset, as the status port and the field-register index 7 show them, and
that every index 8–15 is then unreadable. -/
def Obligations.ResetStateHoldsTheSpecsValues : Prop :=
  State.reset.statusPort = (0, 0) ∧ State.reset.streamer.phase = .done ∧ State.reset.streamer.pend = false ∧
  State.reset.field 7 = 0xc200000000000000c200000000000000 ∧ ∀ i : FIdx, 8 ≤ i.val → State.reset.readable i = false

/-- The invariant holds right after reset. That memory then lists nothing is the model's choice (notes/assumptions/2.md). -/
def Obligations.ResetStateMeetsTheInvariant : Prop := State.reset.Inv

/-- Every step keeps the invariant: memory stays canonical (notes/assumptions/2.md), CAUSE and FINFO stay 0 while ERR = 0 (R30, R31),
CAUSE is one of the codes 1–5 while ERR = 1 (R183), and the Streamer is idle between commands (R33). -/
def Obligations.EveryStepKeepsTheInvariant : Prop := ∀ s t : State, s.Inv → step s = .next t → t.Inv

/-- R18, R50, R191, R205: with nothing from the host the block holds its state; the host writes one byte of memory and nothing else;
the platform's change of what it admits changes nothing else. The inputs are the model's form (notes/assumptions/6.md, 10.md). -/
def Obligations.HostActionsBetweenCommandsTouchNoRegister : Prop :=
  (∀ s : State, s.inputs = [] → step s = .next s) ∧
  (∀ (s : State) (a : Addr) (b : Byte) (rest : List HostInput), s.Inv → s.inputs = .poke a b :: rest →
    ∃ t, step s = .next t ∧ Memory.read t.mem a.toNat = b ∧ SameMemoryOutside a.toNat 1 s t ∧ SameRegisters s t ∧
      SameStatus s t ∧ SameStreamer s t ∧ t.refused = s.refused ∧ t.inputs = rest ∧ t.accesses = s.accesses) ∧
  (∀ (s : State) (ws : List Window) (rest : List HostInput), s.inputs = .platform ws :: rest →
    step s = .next { s with inputs := rest, refused := ws })

/-! Faults and whole-machine rules -/

/-- R182–R184: a command given while ERR = 0 has one of two outcomes. Either it completes and ERR, CAUSE and FINFO are as before, or
it faults and ERR = 1, CAUSE is one of the codes 1–5 and KPV is kept. That a command with a destination 7–15, which no word decodes
to, faults with its word (last clause) is DEDUCED (notes/assumptions/8.md). -/
def Obligations.CommandCompletesOrFaults : Prop :=
  ∀ (i : Instr) (s : State), s.status.err = false →
    ∃ t, exec i s = .next t ∧
      ((t.status.err = false ∧ t.status.cause = s.status.cause ∧ t.finfo = s.finfo) ∨
        (t.status.err = true ∧ 1 ≤ t.status.cause.toNat ∧ t.status.cause.toNat ≤ 5 ∧ t.status.kpv = s.status.kpv)) ∧
      (i.wf = false → Raised 1 ((encode i).setWidth 64) s t ∧ t.accesses = s.accesses)

/-- R189, with the codes and values of R183 and the clean faults of R192: every word handed over in a state with ERR = 0 completes or
reports the first fault of R189's order; a fault of code 1, 2, 3 or 5 comes before any access, and a fault of any command but KPST
writes no memory. `faultOfWord` (Safety.lean) writes R189's order out. -/
def Obligations.FaultReportedIsTheFirstInOrder : Prop :=
  ∀ (s : State) (w : CmdWord) (rest : List HostInput), s.inputs = .command w :: rest → s.status.err = false →
    match faultOfWord w s with
    | none => ∃ t, step s = .next t ∧ t.status.err = false
    | some (code, info) =>
      ∃ t, step s = .next t ∧ t.status.err = true ∧ t.status.cause = code ∧ t.status.kpv = s.status.kpv ∧ t.finfo = info ∧
        (code ≠ 4 → t.accesses = s.accesses) ∧ ((∀ xa, decode w ≠ some (.kpst xa)) → SameMemory s t)

/-- R51, R63: a command that completes has made exactly the accesses of the table of R51, each once, in the order its rule lists
them. That the message reads of UPDATE ascend is one of the orders U12 allows (notes/assumptions/11.md). -/
def Obligations.AccessesAreThoseOfTheTable : Prop :=
  ∀ (i : Instr) (s t : State), s.status.err = false → exec i s = .next t → t.status.err = false →
    t.accesses = s.accesses ++ accessesOf i s

/-- R21, R22, R28: a command that completes leaves every one of F0–F5 and S as it was, but for its destination, and S after an
UPDATE. -/
def Obligations.OnlyTheDestinationFieldRegisterChanges : Prop :=
  ∀ (i : Instr) (s t : State), s.status.err = false → exec i s = .next t → t.status.err = false →
    ∀ j : FIdx, FIdx.writable j = true → i.dest ≠ some j → ((∃ xin xn xacc, i = .update xin xn xacc) → j ≠ 6) →
      t.field j = s.field j

/-- R29: the scalar registers are written only by SETXZ and SETXK. (That a fault leaves them too is the model's choice,
notes/assumptions/5.md, so the statement is about a command that completes.) -/
def Obligations.OnlySetxWritesScalarRegisters : Prop :=
  ∀ (i : Instr) (s t : State), s.status.err = false → exec i s = .next t → t.status.err = false →
    (∀ xd hw imm, i ≠ .setxz xd hw imm ∧ i ≠ .setxk xd hw imm) → SameScalars s t

/-- R25: KPV is set by KEYEXP and KPLD on success, cleared by KPCLR and by reset, and changed by nothing else. -/
def Obligations.KeyValidBitIsSetAndClearedAsStated : Prop :=
  (∀ (fs1 : FIdx) (s t : State), s.status.err = false → exec (.keyexp fs1) s = .next t → t.status.err = false →
    t.status.kpv = true) ∧
  (∀ (xa : XIdx) (s t : State), s.status.err = false → exec (.kpld xa) s = .next t → t.status.err = false →
    t.status.kpv = true) ∧
  (∀ s t : State, exec .kpclr s = .next t → t.status.kpv = false) ∧
  (∀ (s t : State) (rest : List HostInput), s.inputs = .reset :: rest → step s = .next t → t.status.kpv = false) ∧
  (∀ (i : Instr) (s t : State), exec i s = .next t → (∀ fs1, i ≠ .keyexp fs1) → (∀ xa, i ≠ .kpld xa) → i ≠ .kpclr →
    t.status.kpv = s.status.kpv)

/-- R127: between KEYEXP, KPLD, KPCLR and reset no command that completes changes the table. -/
def Obligations.OnlyTableWritersChangeTheTable : Prop :=
  ∀ (i : Instr) (s t : State), s.status.err = false → exec i s = .next t → t.status.err = false →
    (∀ fs1, i ≠ .keyexp fs1) → (∀ xa, i ≠ .kpld xa) → i ≠ .kpclr → SameKeys s t

/-- R161, R232: the addresses a command accesses, the phases it goes through and the fault it reports depend on the command, X0–X3,
ST and what the platform admits only: in two states that agree on those, whatever F0–F5, S, KP and memory hold, the same accesses and
phases follow and ST and FINFO end the same. -/
def Obligations.AddressesAndPhasesAreIndependentOfData : Prop :=
  ∀ (i : Instr) (s s' t t' : State),
    s.x = s'.x → s.status = s'.status → s.finfo = s'.finfo → s.refused = s'.refused → s.accesses = s'.accesses →
      s.phases = s'.phases → exec i s = .next t → exec i s' = .next t' →
        t.accesses = t'.accesses ∧ t.phases = t'.phases ∧ t.status = t'.status ∧ t.finfo = t'.finfo

/-! Registers and memory (spec/10_state.md, spec/20_memory.md) -/

/-- R26: what each field-register index reads; an index is read as it stands, but KP1–KP8 while KPV = 0 raise `KeysInvalid`; only 0–6
may be written, and no word decodes to a command with another destination. -/
def Obligations.FieldRegisterIndexMap : Prop :=
  ∀ s : State,
    (∀ i : Fin 6, s.field (Fin.castLE (by decide) i) = s.f[i]) ∧ s.field 6 = s.accS ∧
    s.field 7 = 0xc200000000000000c200000000000000 ∧
    (∀ k : Fin 8, s.field (Fin.natAdd 8 k) = s.kp[k]) ∧
    (∀ i : FIdx, s.readable i = true ↔ (8 ≤ i.val → s.status.kpv = true)) ∧
    (∀ i : FIdx, FIdx.writable i = true ↔ i.val ≤ 6) ∧
    (∀ i : FIdx, (readField i).run s = if 8 ≤ i.val ∧ s.status.kpv = false then .error ⟨.keysInvalid, 0⟩ s else .ok (s.field i) s) ∧
    (∀ (w : CmdWord) (i : Instr) (fd : FIdx), decode w = some i → i.dest = some fd → fd.val ≤ 6)

/-- R54: `MemRead(addr, 16)`. A misaligned address raises `Misaligned`, a refused one `AccessFault`, each with the address; else the
value is the sixteen bytes, little-endian, and the block's registers, ST and memory are as before. -/
def Obligations.MemReadIsSixteenBytesLittleEndian : Prop :=
  ∀ (a : Addr) (s : State),
    (a.toNat % 16 ≠ 0 → (memRead a).run s = .error ⟨.misaligned, a⟩ s) ∧
    (a.toNat % 16 = 0 → s.memOK a .read = false → (memRead a).run s = .error ⟨.accessFault, a⟩ s) ∧
    (a.toNat % 16 = 0 → s.memOK a .read = true →
      ∃ v t, (memRead a).run s = .ok v t ∧ t = { s with accesses := s.accesses ++ [⟨.read, a⟩] } ∧
        ∀ i, i < 16 → v.extractLsb' (8 * i) 8 = Memory.read s.mem (a.toNat + i))

/-- R55: `MemWrite(addr, 16, v)`. A misaligned address raises `Misaligned`, a refused one `AccessFault`; else byte i of the sixteen is
bits 8i+7..8i of v, no byte outside them changes, and nothing else of the block does. The premise that memory is in canonical form, and
the last clause that it stays so, are the model's choice of form (notes/assumptions/2.md). -/
def Obligations.MemWriteStoresSixteenBytesLittleEndian : Prop :=
  ∀ (a : Addr) (v : Block) (s : State), Memory.wf s.mem = true →
    (a.toNat % 16 ≠ 0 → (memWrite a v).run s = .error ⟨.misaligned, a⟩ s) ∧
    (a.toNat % 16 = 0 → s.memOK a .write = false → (memWrite a v).run s = .error ⟨.accessFault, a⟩ s) ∧
    (a.toNat % 16 = 0 → s.memOK a .write = true →
      ∃ t, (memWrite a v).run s = .ok () t ∧ t = { s with mem := t.mem, accesses := s.accesses ++ [⟨.write, a⟩] } ∧
        (∀ i, i < 16 → Memory.read t.mem (a.toNat + i) = v.extractLsb' (8 * i) 8) ∧ SameMemoryOutside a.toNat 16 s t ∧
        Memory.wf t.mem = true)

/-! FieldOps (spec/40_fieldops.md) -/

/-- R90: XOR. -/
def Obligations.XorWritesTheExclusiveOr : Prop :=
  ∀ (fd fs1 fs2 : FIdx) (s : State), FIdx.writable fd = true → s.readable fs1 = true → s.readable fs2 = true →
    ∃ t, exec (.xor fd fs1 fs2) s = .next t ∧ FieldFrame fd s t ∧
      ∀ k, k < 128 → (t.field fd).getLsbD k = ((s.field fs1).getLsbD k ^^ (s.field fs2).getLsbD k)

/-- R92–R95: the four CLMUL commands, each the carry-less product of the halves its name selects. -/
def Obligations.ClmulMultipliesTheSelectedHalves : Prop :=
  ∀ (fd fs1 fs2 : FIdx) (s : State), FIdx.writable fd = true → s.readable fs1 = true → s.readable fs2 = true →
    (∃ t, exec (.clmulLL fd fs1 fs2) s = .next t ∧ FieldFrame fd s t ∧
      t.field fd = clmul64 ((s.field fs1).extractLsb' 0 64) ((s.field fs2).extractLsb' 0 64)) ∧
    (∃ t, exec (.clmulLH fd fs1 fs2) s = .next t ∧ FieldFrame fd s t ∧
      t.field fd = clmul64 ((s.field fs1).extractLsb' 0 64) ((s.field fs2).extractLsb' 64 64)) ∧
    (∃ t, exec (.clmulHL fd fs1 fs2) s = .next t ∧ FieldFrame fd s t ∧
      t.field fd = clmul64 ((s.field fs1).extractLsb' 64 64) ((s.field fs2).extractLsb' 0 64)) ∧
    (∃ t, exec (.clmulHH fd fs1 fs2) s = .next t ∧ FieldFrame fd s t ∧
      t.field fd = clmul64 ((s.field fs1).extractLsb' 64 64) ((s.field fs2).extractLsb' 64 64))

/-- R97–R99: SWAP64 exchanges the halves, SHL64 and SHR64 shift by 64 within 128 bits. -/
def Obligations.HalfMovesPlaceTheHalves : Prop :=
  ∀ (fd fs1 : FIdx) (s : State), FIdx.writable fd = true → s.readable fs1 = true →
    (∃ t, exec (.swap64 fd fs1) s = .next t ∧ FieldFrame fd s t ∧ t.field fd = (s.field fs1).rotateLeft 64) ∧
    (∃ t, exec (.shl64 fd fs1) s = .next t ∧ FieldFrame fd s t ∧ t.field fd = s.field fs1 <<< 64) ∧
    (∃ t, exec (.shr64 fd fs1) s = .next t ∧ FieldFrame fd s t ∧ t.field fd = s.field fs1 >>> 64)

/-- R100, R102: REDUCE writes the Block of (PH·x^128 + PL)·x^-128 mod P, PH in the first source and PL in the second. -/
def Obligations.ReduceCommandReducesThePair : Prop :=
  ∀ (fd fph fpl : FIdx) (s : State), FIdx.writable fd = true → s.readable fph = true → s.readable fpl = true →
    ∃ t, exec (.reduce fd fph fpl) s = .next t ∧ FieldFrame fd s t ∧ t.field fd = reduce ⟨s.field fph, s.field fpl⟩ ∧
      elem (t.field fd) * fieldX ^ 128 = elem (s.field fph) * fieldX ^ 128 + elem (s.field fpl)

/-- R14: `clmul64` by its coefficients: bit k is the exclusive or of a[i] and b[j] over all i + j = k, bit 127 is 0; it is commutative
and linear, and 0 and 1 act as they should. -/
def Obligations.Clmul64IsTheCarrylessProduct : Prop :=
  (∀ (a b : Half) (k : Nat), k < 128 →
    (clmul64 a b).getLsbD k =
      decide ((((Finset.range 64) ×ˢ (Finset.range 64)).filter fun p =>
        p.1 + p.2 = k ∧ a.getLsbD p.1 = true ∧ b.getLsbD p.2 = true).card % 2 = 1)) ∧
  (∀ a b : Half, (clmul64 a b).getLsbD 127 = false) ∧
  (∀ a b : Half, clmul64 a b = clmul64 b a) ∧
  (∀ a a' b : Half, clmul64 (a ^^^ a') b = clmul64 a b ^^^ clmul64 a' b) ∧
  (∀ a : Half, clmul64 a 0 = 0) ∧ (∀ a : Half, clmul64 a 1 = a.setWidth 128)

/-- R102: `reduce` is the unique Block R with R ≡ (PH·x^128 + PL)·x^-128 mod P, for every PH and PL. -/
def Obligations.ReduceIsTheUniqueMontgomeryResult : Prop :=
  ∀ ph pl r : Block, r = reduce ⟨ph, pl⟩ ↔ elem r = (elem ph * fieldX ^ 128 + elem pl) * xInv128

/-- R105 (which the spec marks derived from R102): `reduce` is linear, and its values on the four pairs the rule names. -/
def Obligations.ReduceIsLinear : Prop :=
  (∀ a a' b b' : Block, reduce ⟨a ^^^ a', b ^^^ b'⟩ = reduce ⟨a, b⟩ ^^^ reduce ⟨a', b'⟩) ∧
  reduce ⟨0, 0⟩ = 0 ∧ (∀ ph : Block, reduce ⟨ph, 0⟩ = ph) ∧ reduce ⟨0, 1⟩ = 0x92040000000000000000000000000001 ∧
  reduce ⟨1, 0xc2000000000000000000000000000001⟩ = 0

/-- R16: the two constants of the field, x^128 mod P and its inverse, and addition as exclusive or. -/
def Obligations.FieldConstantsAndAddition : Prop :=
  elem 0xc2000000000000000000000000000001 = fieldX ^ 128 ∧
  elem 0x92040000000000000000000000000001 * fieldX ^ 128 = 1 ∧
  (∀ a b : Block, elem (a ^^^ b) = elem a + elem b) ∧ (∀ a b : Block, elem a = elem b → a = b)

/-! BlockMul (spec/41_blockmul.md) -/

/-- R110: `BlockMul(A, B)` is the unique Block congruent to A·B·x^-128 modulo P. -/
def Obligations.BlockMulIsTheMontgomeryProduct : Prop :=
  ∀ a b r : Block, r = blockMul a b ↔ elem r = elem a * elem b * xInv128

/-- R111 (whose last sentence the spec marks derived): the Karatsuba schedule gives the pair (PH, PL) of `clmul128` bit for bit. -/
def Obligations.KaratsubaGivesTheSamePair : Prop := ∀ a b : Block, karatsuba a b = clmul128 a b

/-- R116: the laws P1–P4 of BlockMul. -/
def Obligations.BlockMulLaws : Prop :=
  (∀ a b : Block, blockMul a b = blockMul b a) ∧
  (∀ a b c : Block, blockMul (blockMul a b) c = blockMul a (blockMul b c)) ∧
  (∀ a : Block, blockMul a 0xc2000000000000000000000000000001 = a) ∧
  (∀ a b c : Block, blockMul a (b ^^^ c) = blockMul a b ^^^ blockMul a c)

/-- R112: BMUL writes BlockMul of its sources to fd and nothing else; a KP source while KPV = 0 raises `KeysInvalid` (code 3). -/
def Obligations.BmulWritesTheBlockProduct : Prop :=
  ∀ (fd fs1 fs2 : FIdx) (s : State), FIdx.writable fd = true →
    (s.readable fs1 = true → s.readable fs2 = true →
      ∃ t, exec (.bmul fd fs1 fs2) s = .next t ∧ FieldFrame fd s t ∧ t.field fd = blockMul (s.field fs1) (s.field fs2)) ∧
    ((s.readable fs1 = false ∨ s.readable fs2 = false) → ∃ t, exec (.bmul fd fs1 fs2) s = .next t ∧ Raised 3 0 s t)

/-- R113: BLOCKMUL replaces the Block at X[xa] with its BlockMul by the Block at X[xb] and writes no register; the address tests come
before any access and in operand order, the refused accesses in access order, and a fault leaves memory as it was. -/
def Obligations.BlockmulReplacesTheFirstOperand : Prop :=
  ∀ (xa xb : XIdx) (s : State), s.Inv →
    (aligned16 (s.scalar xa) = true → aligned16 (s.scalar xb) = true → s.memOK (s.scalar xa) .read = true →
      s.memOK (s.scalar xb) .read = true → s.memOK (s.scalar xa) .write = true →
      ∃ t, exec (.blockmul xa xb) s = .next t ∧
        Memory.readBlock t.mem (s.scalar xa).toNat =
          blockMul (Memory.readBlock s.mem (s.scalar xa).toNat) (Memory.readBlock s.mem (s.scalar xb).toNat) ∧
        SameMemoryOutside (s.scalar xa).toNat 16 s t ∧ SameRegisters s t ∧ SameStatus s t ∧ SameStreamer s t ∧ SameHost s t) ∧
    (aligned16 (s.scalar xa) = false → ∃ t, exec (.blockmul xa xb) s = .next t ∧ Raised 2 (s.scalar xa) s t ∧
      t.accesses = s.accesses) ∧
    (aligned16 (s.scalar xa) = true → aligned16 (s.scalar xb) = false →
      ∃ t, exec (.blockmul xa xb) s = .next t ∧ Raised 2 (s.scalar xb) s t ∧ t.accesses = s.accesses) ∧
    (aligned16 (s.scalar xa) = true → aligned16 (s.scalar xb) = true →
      (s.memOK (s.scalar xa) .read = false → ∃ t, exec (.blockmul xa xb) s = .next t ∧ Raised 4 (s.scalar xa) s t) ∧
      (s.memOK (s.scalar xa) .read = true → s.memOK (s.scalar xb) .read = false →
        ∃ t, exec (.blockmul xa xb) s = .next t ∧ Raised 4 (s.scalar xb) s t) ∧
      (s.memOK (s.scalar xa) .read = true → s.memOK (s.scalar xb) .read = true → s.memOK (s.scalar xa) .write = false →
        ∃ t, exec (.blockmul xa xb) s = .next t ∧ Raised 4 (s.scalar xa) s t))

/-! KeyPowers (spec/42_keypowers.md) -/

/-- R121: KEYEXP stores the raw key as KP[1], each further entry as BlockMul of the one before it and KP[1], and sets KPV; a KP source
while KPV = 0 raises `KeysInvalid`. -/
def Obligations.KeyexpBuildsTheTable : Prop :=
  ∀ (fs1 : FIdx) (s : State),
    (s.readable fs1 = true →
      ∃ t, exec (.keyexp fs1) s = .next t ∧ t.keyPower 1 = s.field fs1 ∧
        (∀ k, 2 ≤ k → k ≤ 8 → t.keyPower k = blockMul (t.keyPower (k - 1)) (t.keyPower 1)) ∧
        t.status = { s.status with kpv := true } ∧ t.finfo = s.finfo ∧ SameFields s t ∧ SameScalars s t ∧ SameMemory s t ∧
        SameStreamer s t ∧ SameHost s t ∧ t.accesses = s.accesses) ∧
    (s.readable fs1 = false → ∃ t, exec (.keyexp fs1) s = .next t ∧ Raised 3 0 s t)

/-- R123 (whose second half the spec marks derived): after KEYEXP the table is consistent, and KP[i+j] = BlockMul(KP[i], KP[j])
whenever i + j ≤ 8. -/
def Obligations.KeyexpTableIsSelfConsistent : Prop :=
  ∀ (fs1 : FIdx) (s t : State), s.readable fs1 = true → exec (.keyexp fs1) s = .next t →
    t.keysConsistent ∧ ∀ i j, 1 ≤ i → 1 ≤ j → i + j ≤ 8 → t.keyPower (i + j) = blockMul (t.keyPower i) (t.keyPower j)

/-- R124: KPLD loads entry k from offset 16·(k-1) and sets KPV; its faults, in order, leave the table and KPV as they were. -/
def Obligations.KpldLoadsTheImage : Prop :=
  ∀ (xa : XIdx) (s : State),
    (aligned16 (s.scalar xa) = true → inRange (s.scalar xa) 8 → s.admitsBlocks (s.scalar xa) 8 .read →
      ∃ t, exec (.kpld xa) s = .next t ∧
        (∀ k, 1 ≤ k → k ≤ 8 → t.keyPower k = Memory.readBlock s.mem ((s.scalar xa).toNat + 16 * (k - 1))) ∧
        t.status = { s.status with kpv := true } ∧ t.finfo = s.finfo ∧ SameFields s t ∧ SameScalars s t ∧ SameMemory s t ∧
        SameStreamer s t ∧ SameHost s t) ∧
    (aligned16 (s.scalar xa) = false →
      ∃ t, exec (.kpld xa) s = .next t ∧ Raised 2 (s.scalar xa) s t ∧ SameKeys s t) ∧
    (aligned16 (s.scalar xa) = true → ¬ inRange (s.scalar xa) 8 →
      ∃ t, exec (.kpld xa) s = .next t ∧ Raised 5 (s.scalar xa) s t ∧ SameKeys s t) ∧
    (∀ k, k < 8 → aligned16 (s.scalar xa) = true → inRange (s.scalar xa) 8 → s.admitsBlocks (s.scalar xa) k .read →
      s.memOK (blockAddr (s.scalar xa) k) .read = false →
      ∃ t, exec (.kpld xa) s = .next t ∧ Raised 4 (blockAddr (s.scalar xa) k) s t ∧ SameKeys s t)

/-- R125: KPST stores entry k at offset 16·(k-1) and changes no register; its faults in order, of which an `AccessFault` at entry
k + 1 leaves the first k entries written and every other byte as it was (U11). -/
def Obligations.KpstStoresTheImage : Prop :=
  ∀ (xa : XIdx) (s : State), s.Inv →
    (s.status.kpv = true → aligned16 (s.scalar xa) = true → inRange (s.scalar xa) 8 → s.admitsBlocks (s.scalar xa) 8 .write →
      ∃ t, exec (.kpst xa) s = .next t ∧
        (∀ k, 1 ≤ k → k ≤ 8 → Memory.readBlock t.mem ((s.scalar xa).toNat + 16 * (k - 1)) = s.keyPower k) ∧
        SameMemoryOutside (s.scalar xa).toNat 128 s t ∧ SameRegisters s t ∧ SameStatus s t ∧ SameStreamer s t ∧
        SameHost s t) ∧
    (s.status.kpv = false → ∃ t, exec (.kpst xa) s = .next t ∧ Raised 3 0 s t) ∧
    (s.status.kpv = true → aligned16 (s.scalar xa) = false →
      ∃ t, exec (.kpst xa) s = .next t ∧ Raised 2 (s.scalar xa) s t) ∧
    (s.status.kpv = true → aligned16 (s.scalar xa) = true → ¬ inRange (s.scalar xa) 8 →
      ∃ t, exec (.kpst xa) s = .next t ∧ Raised 5 (s.scalar xa) s t) ∧
    (∀ k, k < 8 → s.status.kpv = true → aligned16 (s.scalar xa) = true → inRange (s.scalar xa) 8 →
      s.admitsBlocks (s.scalar xa) k .write → s.memOK (blockAddr (s.scalar xa) k) .write = false →
      ∃ t, exec (.kpst xa) s = .next t ∧ t.status = { s.status with err := true, cause := 4 } ∧
        t.finfo = blockAddr (s.scalar xa) k ∧
        (∀ j, 1 ≤ j → j ≤ k → Memory.readBlock t.mem ((s.scalar xa).toNat + 16 * (j - 1)) = s.keyPower j) ∧
        SameMemoryOutside (s.scalar xa).toNat (16 * k) s t)

/-- R126: KPCLR clears all eight entries and KPV, whatever KPV was, and changes nothing else. -/
def Obligations.KpclrDestroysTheTable : Prop :=
  ∀ s : State,
    ∃ t, exec .kpclr s = .next t ∧ (∀ k, 1 ≤ k → k ≤ 8 → t.keyPower k = 0) ∧ t.status = { s.status with kpv := false } ∧
      (∀ i : FIdx, 8 ≤ i.val → t.readable i = false) ∧ t.finfo = s.finfo ∧ SameFields s t ∧ SameScalars s t ∧
      SameMemory s t ∧ SameStreamer s t ∧ SameHost s t ∧ t.accesses = s.accesses

/-- R61, R124, R125: a table stored by KPST is the table KPLD loads back from that memory, in any block whose scalar register holds
the same base. -/
def Obligations.StoredTableLoadsBack : Prop :=
  ∀ (xa xb : XIdx) (s t u v : State), s.Inv → s.status.err = false → u.status.err = false →
    exec (.kpst xa) s = .next t → t.status.err = false → u.mem = t.mem → u.scalar xb = s.scalar xa →
      exec (.kpld xb) u = .next v → v.status.err = false → SameKeys s v

/-! Streamer (spec/43_streamer.md) -/

/-- R139: UPDATE with N = 0 makes no access and no check, writes no register and runs INIT, ALIGNED, DONE. -/
def Obligations.UpdateOfNoBlocksDoesNothing : Prop :=
  ∀ (xin xn xacc : XIdx) (s : State), s.scalar xn = 0 →
    ∃ t, exec (.update xin xn xacc) s = .next t ∧ SameRegisters s t ∧ SameStatus s t ∧ SameMemory s t ∧ SameHost s t ∧
      t.accesses = s.accesses ∧ t.phases = s.phases ++ [.init, .aligned, .done]

/-- R136, R146–R151: with N > 0, no check failing and every access admitted, UPDATE leaves in S and at `acc` the value of the phase
machine for the table as it stands (`streamValue`: the tail's group, then the strides, one reduction each), and changes nothing else.
The Streamer is idle again. -/
def Obligations.UpdateComputesThePhaseMachinesValue : Prop :=
  ∀ (xin xn xacc : XIdx) (s : State), s.Inv → UpdateRuns xin xn xacc s →
    ∃ t, exec (.update xin xn xacc) s = .next t ∧
      t.field 6 = streamValue s.keyPower (Memory.readBlock s.mem (s.scalar xacc).toNat) (s.messageBlock (s.scalar xin))
        (s.scalar xn).toNat ∧
      Memory.readBlock t.mem (s.scalar xacc).toNat = t.field 6 ∧
      SameMemoryOutside (s.scalar xacc).toNat 16 s t ∧
      (∀ j : FIdx, j ≠ 6 → t.field j = s.field j) ∧ SameKeys s t ∧ SameScalars s t ∧ SameStatus s t ∧ SameHost s t ∧
      t.streamer.phase = .done ∧ t.streamer.pend = false

/-- R138: the checks of UPDATE with N > 0 in their order, then the refused accesses in access order; whatever the fault, no byte of
memory changes. -/
def Obligations.UpdateChecksInOrder : Prop :=
  ∀ (xin xn xacc : XIdx) (s : State), 0 < (s.scalar xn).toNat →
    (s.status.kpv = false → ∃ t, exec (.update xin xn xacc) s = .next t ∧ Raised 3 0 s t ∧ t.accesses = s.accesses) ∧
    (s.status.kpv = true → aligned16 (s.scalar xin) = false →
      ∃ t, exec (.update xin xn xacc) s = .next t ∧ Raised 2 (s.scalar xin) s t ∧ t.accesses = s.accesses) ∧
    (s.status.kpv = true → aligned16 (s.scalar xin) = true → aligned16 (s.scalar xacc) = false →
      ∃ t, exec (.update xin xn xacc) s = .next t ∧ Raised 2 (s.scalar xacc) s t ∧ t.accesses = s.accesses) ∧
    (s.status.kpv = true → aligned16 (s.scalar xin) = true → aligned16 (s.scalar xacc) = true →
      ¬ inRange (s.scalar xin) (s.scalar xn).toNat →
      ∃ t, exec (.update xin xn xacc) s = .next t ∧ Raised 5 (s.scalar xin) s t ∧ t.accesses = s.accesses) ∧
    (s.status.kpv = true → aligned16 (s.scalar xin) = true → aligned16 (s.scalar xacc) = true →
      inRange (s.scalar xin) (s.scalar xn).toNat →
      ∀ a, (accessesOf (.update xin xn xacc) s).find? (fun a => !s.memOK a.addr a.kind) = some a →
        ∃ t, exec (.update xin xn xacc) s = .next t ∧ Raised 4 a.addr s t)

/-- R159: the phases and the accesses of an UPDATE that completes, for every N: the rows of the table. The N message reads stand
between the read and the write of `acc`, in some order (R63). -/
def Obligations.UpdatePhaseTraces : Prop :=
  ∀ (xin xn xacc : XIdx) (s : State),
    (s.scalar xn = 0 →
      ∃ t, exec (.update xin xn xacc) s = .next t ∧ t.phases = s.phases ++ [.init, .aligned, .done] ∧
        t.accesses = s.accesses) ∧
    (UpdateRuns xin xn xacc s →
      ∃ t, exec (.update xin xn xacc) s = .next t ∧
        t.phases = s.phases ++ [.init] ++ (if (s.scalar xn).toNat % 8 > 0 then [.tail] else []) ++ [.aligned] ++
          (if (s.scalar xn).toNat / 8 > 0 then
            [.strideFirst] ++ List.replicate ((s.scalar xn).toNat / 8 - 1) .strideInterleaved ++ [.finalize]
          else []) ++ [.done] ∧
        ∃ reads : List Access, t.accesses = s.accesses ++ [⟨.read, s.scalar xacc⟩] ++ reads ++ [⟨.write, s.scalar xacc⟩] ∧
          reads.Perm (readsOf (s.scalar xin) 0 (s.scalar xn).toNat))

/-- R143 (which the spec marks derived): a group's products are added unreduced and the sum is reduced once, which is the exclusive or of the one-block products. -/
def Obligations.OneReductionPerGroup : Prop :=
  ∀ (key : Nat → Block) (r : Nat) (acc : Block) (m : Nat → Block), groupValue key r acc m = productSum key r acc m r 0

/-- R135: the contract. With a consistent table and H = KP[1]·x^-128, UPDATE of N > 0 blocks stores
H^N·acc_in + H^N·M_0 + H^(N-1)·M_1 + … + H·M_(N-1) at `acc` and leaves it in S. -/
def Obligations.UpdateMeetsTheContract : Prop :=
  ∀ (xin xn xacc : XIdx) (s : State), s.Inv → UpdateRuns xin xn xacc s → s.keysConsistent →
    ∃ t, exec (.update xin xn xacc) s = .next t ∧
      elem (t.field 6) =
        (elem (s.keyPower 1) * xInv128) ^ (s.scalar xn).toNat * elem (Memory.readBlock s.mem (s.scalar xacc).toNat) +
          ∑ i ∈ Finset.range (s.scalar xn).toNat,
            (elem (s.keyPower 1) * xInv128) ^ ((s.scalar xn).toNat - i) * elem (s.messageBlock (s.scalar xin) i) ∧
      Memory.readBlock t.mem (s.scalar xacc).toNat = t.field 6 ∧ SameMemoryOutside (s.scalar xacc).toNat 16 s t

/-- R156 (which the spec marks derived): with a consistent table UPDATE gives what one multiplication at a time gives. -/
def Obligations.UpdateEqualsTheScalarReference : Prop :=
  ∀ (xin xn xacc : XIdx) (s : State), s.Inv → UpdateRuns xin xn xacc s → s.keysConsistent →
    ∃ t, exec (.update xin xn xacc) s = .next t ∧
      Memory.readBlock t.mem (s.scalar xacc).toNat =
        scalarReference (s.keyPower 1) (Memory.readBlock s.mem (s.scalar xacc).toNat) (s.messageBlock (s.scalar xin))
          (s.scalar xn).toNat

/-- R157 (which the spec marks derived): a message split in two at any block, absorbed by two UPDATEs into one `acc`, gives what one UPDATE gives. `u` is the block
before the second UPDATE: memory and table as the first left them, the scalar registers set for the rest of the message. The `acc`
Block lies outside the rest of the message, since the first UPDATE writes it (R69). -/
def Obligations.UpdateOfASplitMessage : Prop :=
  ∀ (xin xn xacc : XIdx) (s s1 t1 u t2 t : State), s.Inv → s.keysConsistent →
    UpdateRuns xin xn xacc s → UpdateRuns xin xn xacc s1 → UpdateRuns xin xn xacc u →
    s1.mem = s.mem → (∀ k, s1.keyPower k = s.keyPower k) → s1.scalar xin = s.scalar xin → s1.scalar xacc = s.scalar xacc →
    exec (.update xin xn xacc) s1 = .next t1 →
    u.mem = t1.mem → (∀ k, u.keyPower k = s.keyPower k) → u.scalar xacc = s.scalar xacc →
    (u.scalar xin).toNat = (s.scalar xin).toNat + 16 * (s1.scalar xn).toNat →
    (s.scalar xn).toNat = (s1.scalar xn).toNat + (u.scalar xn).toNat →
    ((s.scalar xacc).toNat + 16 ≤ (u.scalar xin).toNat ∨
      (u.scalar xin).toNat + 16 * (u.scalar xn).toNat ≤ (s.scalar xacc).toNat) →
    exec (.update xin xn xacc) u = .next t2 → exec (.update xin xn xacc) s = .next t →
      Memory.readBlock t2.mem (s.scalar xacc).toNat = Memory.readBlock t.mem (s.scalar xacc).toNat ∧ t2.field 6 = t.field 6

/-! Host data movement (spec/44_host_commands.md) -/

/-- R170: LDB loads the Block at X[xa] into fd, X[xa] kept; its faults leave memory, and fd, as they were. (That fd is kept is R170's
own word; the other registers after a fault are the model's choice, notes/assumptions/5.md, and nothing is said of them.) -/
def Obligations.LdbLoadsABlock : Prop :=
  ∀ (fd : FIdx) (xa : XIdx) (s : State), FIdx.writable fd = true →
    (aligned16 (s.scalar xa) = true → s.memOK (s.scalar xa) .read = true →
      ∃ t, exec (.ldb fd xa) s = .next t ∧ t.field fd = Memory.readBlock s.mem (s.scalar xa).toNat ∧
        (∀ j : FIdx, j ≠ fd → t.field j = s.field j) ∧ SameKeys s t ∧ SameScalars s t ∧ SameStatus s t ∧ SameMemory s t ∧
        SameStreamer s t ∧ SameHost s t) ∧
    (aligned16 (s.scalar xa) = false →
      ∃ t, exec (.ldb fd xa) s = .next t ∧ Raised 2 (s.scalar xa) s t ∧ t.field fd = s.field fd) ∧
    (aligned16 (s.scalar xa) = true → s.memOK (s.scalar xa) .read = false →
      ∃ t, exec (.ldb fd xa) s = .next t ∧ Raised 4 (s.scalar xa) s t ∧ t.field fd = s.field fd)

/-- R171: STB stores any readable index, G and KP1–KP8 among them, at X[xa] and changes no register; its faults leave memory as it
was, `KeysInvalid` before `Misaligned`. -/
def Obligations.StbStoresABlock : Prop :=
  ∀ (fs : FIdx) (xa : XIdx) (s : State), s.Inv →
    (s.readable fs = true → aligned16 (s.scalar xa) = true → s.memOK (s.scalar xa) .write = true →
      ∃ t, exec (.stb fs xa) s = .next t ∧ Memory.readBlock t.mem (s.scalar xa).toNat = s.field fs ∧
        SameMemoryOutside (s.scalar xa).toNat 16 s t ∧ SameRegisters s t ∧ SameStatus s t ∧ SameStreamer s t ∧ SameHost s t) ∧
    (s.readable fs = false → ∃ t, exec (.stb fs xa) s = .next t ∧ Raised 3 0 s t) ∧
    (s.readable fs = true → aligned16 (s.scalar xa) = false →
      ∃ t, exec (.stb fs xa) s = .next t ∧ Raised 2 (s.scalar xa) s t) ∧
    (s.readable fs = true → aligned16 (s.scalar xa) = true → s.memOK (s.scalar xa) .write = false →
      ∃ t, exec (.stb fs xa) s = .next t ∧ Raised 4 (s.scalar xa) s t)

/-- R172: SETXZ sets halfword hw of X[xd] to imm16 and the other 48 bits to 0, whatever X[xd] held. -/
def Obligations.SetxzDefinesTheWholeRegister : Prop :=
  ∀ (xd : XIdx) (hw : HalfwordIdx) (imm16 : BitVec 16) (s : State),
    ∃ t, exec (.setxz xd hw imm16) s = .next t ∧ ScalarFrame xd s t ∧
      ∀ k, k < 64 → (t.scalar xd).getLsbD k = (decide (k / 16 = hw.val) && imm16.getLsbD (k % 16))

/-- R173: SETXK replaces halfword hw of X[xd] and keeps the other 48 bits. -/
def Obligations.SetxkReplacesOneHalfword : Prop :=
  ∀ (xd : XIdx) (hw : HalfwordIdx) (imm16 : BitVec 16) (s : State),
    ∃ t, exec (.setxk xd hw imm16) s = .next t ∧ ScalarFrame xd s t ∧
      ∀ k, k < 64 →
        (t.scalar xd).getLsbD k = if k / 16 = hw.val then imm16.getLsbD (k % 16) else (s.scalar xd).getLsbD k

/-! Status port (spec/10_state.md, spec/60_exceptions.md) -/

/-- R30, R31, R197: what the host reads through the status port, in every state: bit 0 of ST is ERR, bits 4:1 are CAUSE, bit 5 is KPV,
bits 15:6 are 0, and the other word is FINFO. After a step in which a word faults (R183, R184) the port shows ERR = 1, the fault's
code, KPV as it was, and the fault's value. -/
def Obligations.StatusPortShowsStAndFinfo : Prop :=
  (∀ s : State,
    s.statusPort.1.getLsbD 0 = s.status.err ∧ s.statusPort.1.extractLsb' 1 4 = s.status.cause ∧
    s.statusPort.1.getLsbD 5 = s.status.kpv ∧ s.statusPort.1.extractLsb' 6 10 = 0 ∧ s.statusPort.2 = s.finfo) ∧
  (∀ (s : State) (w : CmdWord) (rest : List HostInput) (code : BitVec 4) (info : BitVec 64),
    s.inputs = .command w :: rest → s.status.err = false → faultOfWord w s = some (code, info) →
      ∃ t, step s = .next t ∧ t.statusPort.1.getLsbD 0 = true ∧ t.statusPort.1.extractLsb' 1 4 = code ∧
        t.statusPort.1.getLsbD 5 = s.statusPort.1.getLsbD 5 ∧ t.statusPort.1.extractLsb' 6 10 = 0 ∧ t.statusPort.2 = info)
end

