-- ==== Sys2Proof/Laws/State.lean ====
section
/-! SUPPORT. One lemma per field of `State` for each named update of it, so that no later proof unfolds a record update. -/

namespace Sys2Proof.Machine

/-! An access noted -/

@[simp] theorem State.logged_f (s : State) (k : AccessKind) (a : Addr) : (s.logged k a).f = s.f := rfl
@[simp] theorem State.logged_accS (s : State) (k : AccessKind) (a : Addr) : (s.logged k a).accS = s.accS := rfl
@[simp] theorem State.logged_kp (s : State) (k : AccessKind) (a : Addr) : (s.logged k a).kp = s.kp := rfl
@[simp] theorem State.logged_x (s : State) (k : AccessKind) (a : Addr) : (s.logged k a).x = s.x := rfl
@[simp] theorem State.logged_status (s : State) (k : AccessKind) (a : Addr) : (s.logged k a).status = s.status := rfl
@[simp] theorem State.logged_finfo (s : State) (k : AccessKind) (a : Addr) : (s.logged k a).finfo = s.finfo := rfl
@[simp] theorem State.logged_streamer (s : State) (k : AccessKind) (a : Addr) : (s.logged k a).streamer = s.streamer := rfl
@[simp] theorem State.logged_mem (s : State) (k : AccessKind) (a : Addr) : (s.logged k a).mem = s.mem := rfl
@[simp] theorem State.logged_refused (s : State) (k : AccessKind) (a : Addr) : (s.logged k a).refused = s.refused := rfl
@[simp] theorem State.logged_inputs (s : State) (k : AccessKind) (a : Addr) : (s.logged k a).inputs = s.inputs := rfl
@[simp] theorem State.logged_accesses (s : State) (k : AccessKind) (a : Addr) : (s.logged k a).accesses = s.accesses ++ [⟨k, a⟩] := rfl
@[simp] theorem State.logged_phases (s : State) (k : AccessKind) (a : Addr) : (s.logged k a).phases = s.phases := rfl
@[simp] theorem State.logged_free (s : State) (k : AccessKind) (a : Addr) : (s.logged k a).free = s.free := rfl

/-! A Block stored -/

@[simp] theorem State.stored_f (s : State) (a : Addr) (v : Block) : (s.stored a v).f = s.f := by simp only [State.stored, State.logged]
@[simp] theorem State.stored_accS (s : State) (a : Addr) (v : Block) : (s.stored a v).accS = s.accS := by simp only [State.stored, State.logged]
@[simp] theorem State.stored_kp (s : State) (a : Addr) (v : Block) : (s.stored a v).kp = s.kp := by simp only [State.stored, State.logged]
@[simp] theorem State.stored_x (s : State) (a : Addr) (v : Block) : (s.stored a v).x = s.x := by simp only [State.stored, State.logged]
@[simp] theorem State.stored_status (s : State) (a : Addr) (v : Block) : (s.stored a v).status = s.status := by simp only [State.stored, State.logged]
@[simp] theorem State.stored_finfo (s : State) (a : Addr) (v : Block) : (s.stored a v).finfo = s.finfo := by simp only [State.stored, State.logged]
@[simp] theorem State.stored_streamer (s : State) (a : Addr) (v : Block) : (s.stored a v).streamer = s.streamer := by simp only [State.stored, State.logged]
@[simp] theorem State.stored_mem (s : State) (a : Addr) (v : Block) : (s.stored a v).mem = Memory.writeBlock s.mem a.toNat v := by simp only [State.stored, State.logged]
@[simp] theorem State.stored_refused (s : State) (a : Addr) (v : Block) : (s.stored a v).refused = s.refused := by simp only [State.stored, State.logged]
@[simp] theorem State.stored_inputs (s : State) (a : Addr) (v : Block) : (s.stored a v).inputs = s.inputs := by simp only [State.stored, State.logged]
@[simp] theorem State.stored_accesses (s : State) (a : Addr) (v : Block) : (s.stored a v).accesses = s.accesses ++ [⟨.write, a⟩] := by simp only [State.stored, State.logged]
@[simp] theorem State.stored_phases (s : State) (a : Addr) (v : Block) : (s.stored a v).phases = s.phases := by simp only [State.stored, State.logged]
@[simp] theorem State.stored_free (s : State) (a : Addr) (v : Block) : (s.stored a v).free = s.free := by simp only [State.stored, State.logged]

/-! A scalar register written -/

@[simp] theorem State.withScalar_f (s : State) (i : XIdx) (v : Addr) : (s.withScalar i v).f = s.f := rfl
@[simp] theorem State.withScalar_accS (s : State) (i : XIdx) (v : Addr) : (s.withScalar i v).accS = s.accS := rfl
@[simp] theorem State.withScalar_kp (s : State) (i : XIdx) (v : Addr) : (s.withScalar i v).kp = s.kp := rfl
@[simp] theorem State.withScalar_x (s : State) (i : XIdx) (v : Addr) : (s.withScalar i v).x = s.x.set i.val v := rfl
@[simp] theorem State.withScalar_status (s : State) (i : XIdx) (v : Addr) : (s.withScalar i v).status = s.status := rfl
@[simp] theorem State.withScalar_finfo (s : State) (i : XIdx) (v : Addr) : (s.withScalar i v).finfo = s.finfo := rfl
@[simp] theorem State.withScalar_streamer (s : State) (i : XIdx) (v : Addr) : (s.withScalar i v).streamer = s.streamer := rfl
@[simp] theorem State.withScalar_mem (s : State) (i : XIdx) (v : Addr) : (s.withScalar i v).mem = s.mem := rfl
@[simp] theorem State.withScalar_refused (s : State) (i : XIdx) (v : Addr) : (s.withScalar i v).refused = s.refused := rfl
@[simp] theorem State.withScalar_inputs (s : State) (i : XIdx) (v : Addr) : (s.withScalar i v).inputs = s.inputs := rfl
@[simp] theorem State.withScalar_accesses (s : State) (i : XIdx) (v : Addr) : (s.withScalar i v).accesses = s.accesses := rfl
@[simp] theorem State.withScalar_phases (s : State) (i : XIdx) (v : Addr) : (s.withScalar i v).phases = s.phases := rfl
@[simp] theorem State.withScalar_free (s : State) (i : XIdx) (v : Addr) : (s.withScalar i v).free = s.free := rfl

/-! The key table written -/

@[simp] theorem State.withKeys_f (s : State) (t : Vector Block 8) : (s.withKeys t).f = s.f := rfl
@[simp] theorem State.withKeys_accS (s : State) (t : Vector Block 8) : (s.withKeys t).accS = s.accS := rfl
@[simp] theorem State.withKeys_kp (s : State) (t : Vector Block 8) : (s.withKeys t).kp = t := rfl
@[simp] theorem State.withKeys_x (s : State) (t : Vector Block 8) : (s.withKeys t).x = s.x := rfl
@[simp] theorem State.withKeys_status (s : State) (t : Vector Block 8) : (s.withKeys t).status = s.status.withKpv true := rfl
@[simp] theorem State.withKeys_finfo (s : State) (t : Vector Block 8) : (s.withKeys t).finfo = s.finfo := rfl
@[simp] theorem State.withKeys_streamer (s : State) (t : Vector Block 8) : (s.withKeys t).streamer = s.streamer := rfl
@[simp] theorem State.withKeys_mem (s : State) (t : Vector Block 8) : (s.withKeys t).mem = s.mem := rfl
@[simp] theorem State.withKeys_refused (s : State) (t : Vector Block 8) : (s.withKeys t).refused = s.refused := rfl
@[simp] theorem State.withKeys_inputs (s : State) (t : Vector Block 8) : (s.withKeys t).inputs = s.inputs := rfl
@[simp] theorem State.withKeys_accesses (s : State) (t : Vector Block 8) : (s.withKeys t).accesses = s.accesses := rfl
@[simp] theorem State.withKeys_phases (s : State) (t : Vector Block 8) : (s.withKeys t).phases = s.phases := rfl
@[simp] theorem State.withKeys_free (s : State) (t : Vector Block 8) : (s.withKeys t).free = s.free := rfl

/-! The key table destroyed -/

@[simp] theorem State.withoutKeys_f (s : State) : (s.withoutKeys).f = s.f := rfl
@[simp] theorem State.withoutKeys_accS (s : State) : (s.withoutKeys).accS = s.accS := rfl
@[simp] theorem State.withoutKeys_kp (s : State) : (s.withoutKeys).kp = #v[0, 0, 0, 0, 0, 0, 0, 0] := rfl
@[simp] theorem State.withoutKeys_x (s : State) : (s.withoutKeys).x = s.x := rfl
@[simp] theorem State.withoutKeys_status (s : State) : (s.withoutKeys).status = s.status.withKpv false := rfl
@[simp] theorem State.withoutKeys_finfo (s : State) : (s.withoutKeys).finfo = s.finfo := rfl
@[simp] theorem State.withoutKeys_streamer (s : State) : (s.withoutKeys).streamer = s.streamer := rfl
@[simp] theorem State.withoutKeys_mem (s : State) : (s.withoutKeys).mem = s.mem := rfl
@[simp] theorem State.withoutKeys_refused (s : State) : (s.withoutKeys).refused = s.refused := rfl
@[simp] theorem State.withoutKeys_inputs (s : State) : (s.withoutKeys).inputs = s.inputs := rfl
@[simp] theorem State.withoutKeys_accesses (s : State) : (s.withoutKeys).accesses = s.accesses := rfl
@[simp] theorem State.withoutKeys_phases (s : State) : (s.withoutKeys).phases = s.phases := rfl
@[simp] theorem State.withoutKeys_free (s : State) : (s.withoutKeys).free = s.free := rfl

/-! A fault taken -/

@[simp] theorem takeFault_f (t : Trap) (s : State) : (takeFault t s).f = s.f := rfl
@[simp] theorem takeFault_accS (t : Trap) (s : State) : (takeFault t s).accS = s.accS := rfl
@[simp] theorem takeFault_kp (t : Trap) (s : State) : (takeFault t s).kp = s.kp := rfl
@[simp] theorem takeFault_x (t : Trap) (s : State) : (takeFault t s).x = s.x := rfl
@[simp] theorem takeFault_status (t : Trap) (s : State) : (takeFault t s).status = s.status.record t.cause := rfl
@[simp] theorem takeFault_finfo (t : Trap) (s : State) : (takeFault t s).finfo = t.info := rfl
@[simp] theorem takeFault_streamer (t : Trap) (s : State) : (takeFault t s).streamer = s.streamer := rfl
@[simp] theorem takeFault_mem (t : Trap) (s : State) : (takeFault t s).mem = s.mem := rfl
@[simp] theorem takeFault_refused (t : Trap) (s : State) : (takeFault t s).refused = s.refused := rfl
@[simp] theorem takeFault_inputs (t : Trap) (s : State) : (takeFault t s).inputs = s.inputs := rfl
@[simp] theorem takeFault_accesses (t : Trap) (s : State) : (takeFault t s).accesses = s.accesses := rfl
@[simp] theorem takeFault_phases (t : Trap) (s : State) : (takeFault t s).phases = s.phases := rfl
@[simp] theorem takeFault_free (t : Trap) (s : State) : (takeFault t s).free = s.free := rfl

/-! The state at a raise -/

@[simp] theorem atRaise_f (s now : State) : (atRaise s now).f = s.f := rfl
@[simp] theorem atRaise_accS (s now : State) : (atRaise s now).accS = s.accS := rfl
@[simp] theorem atRaise_kp (s now : State) : (atRaise s now).kp = s.kp := rfl
@[simp] theorem atRaise_x (s now : State) : (atRaise s now).x = s.x := rfl
@[simp] theorem atRaise_status (s now : State) : (atRaise s now).status = s.status := rfl
@[simp] theorem atRaise_finfo (s now : State) : (atRaise s now).finfo = s.finfo := rfl
@[simp] theorem atRaise_streamer (s now : State) : (atRaise s now).streamer = s.streamer := rfl
@[simp] theorem atRaise_mem (s now : State) : (atRaise s now).mem = now.mem := rfl
@[simp] theorem atRaise_refused (s now : State) : (atRaise s now).refused = s.refused := rfl
@[simp] theorem atRaise_inputs (s now : State) : (atRaise s now).inputs = s.inputs := rfl
@[simp] theorem atRaise_accesses (s now : State) : (atRaise s now).accesses = now.accesses := rfl
@[simp] theorem atRaise_phases (s now : State) : (atRaise s now).phases = now.phases := rfl
@[simp] theorem atRaise_free (s now : State) : (atRaise s now).free = s.free := rfl

/-! A word handed over -/

@[simp] theorem offerWord_f (s : State) (w : CmdWord) : (offerWord s w).f = s.f := rfl
@[simp] theorem offerWord_accS (s : State) (w : CmdWord) : (offerWord s w).accS = s.accS := rfl
@[simp] theorem offerWord_kp (s : State) (w : CmdWord) : (offerWord s w).kp = s.kp := rfl
@[simp] theorem offerWord_x (s : State) (w : CmdWord) : (offerWord s w).x = s.x := rfl
@[simp] theorem offerWord_status (s : State) (w : CmdWord) : (offerWord s w).status = s.status := rfl
@[simp] theorem offerWord_finfo (s : State) (w : CmdWord) : (offerWord s w).finfo = s.finfo := rfl
@[simp] theorem offerWord_streamer (s : State) (w : CmdWord) : (offerWord s w).streamer = s.streamer := rfl
@[simp] theorem offerWord_mem (s : State) (w : CmdWord) : (offerWord s w).mem = s.mem := rfl
@[simp] theorem offerWord_refused (s : State) (w : CmdWord) : (offerWord s w).refused = s.refused := rfl
@[simp] theorem offerWord_inputs (s : State) (w : CmdWord) : (offerWord s w).inputs = .command w :: s.inputs := rfl
@[simp] theorem offerWord_accesses (s : State) (w : CmdWord) : (offerWord s w).accesses = s.accesses := rfl
@[simp] theorem offerWord_phases (s : State) (w : CmdWord) : (offerWord s w).phases = s.phases := rfl
@[simp] theorem offerWord_free (s : State) (w : CmdWord) : (offerWord s w).free = s.free := rfl

/-! A field register written: F0–F5 or S, and nothing else -/

@[simp] theorem State.withField_kp (s : State) (i : FIdx) (v : Block) : (s.withField i v).kp = s.kp := by
  unfold State.withField
  split
  · rfl
  · split <;> rfl
@[simp] theorem State.withField_x (s : State) (i : FIdx) (v : Block) : (s.withField i v).x = s.x := by
  unfold State.withField
  split
  · rfl
  · split <;> rfl
@[simp] theorem State.withField_status (s : State) (i : FIdx) (v : Block) : (s.withField i v).status = s.status := by
  unfold State.withField
  split
  · rfl
  · split <;> rfl
@[simp] theorem State.withField_finfo (s : State) (i : FIdx) (v : Block) : (s.withField i v).finfo = s.finfo := by
  unfold State.withField
  split
  · rfl
  · split <;> rfl
@[simp] theorem State.withField_streamer (s : State) (i : FIdx) (v : Block) : (s.withField i v).streamer = s.streamer := by
  unfold State.withField
  split
  · rfl
  · split <;> rfl
@[simp] theorem State.withField_mem (s : State) (i : FIdx) (v : Block) : (s.withField i v).mem = s.mem := by
  unfold State.withField
  split
  · rfl
  · split <;> rfl
@[simp] theorem State.withField_refused (s : State) (i : FIdx) (v : Block) : (s.withField i v).refused = s.refused := by
  unfold State.withField
  split
  · rfl
  · split <;> rfl
@[simp] theorem State.withField_inputs (s : State) (i : FIdx) (v : Block) : (s.withField i v).inputs = s.inputs := by
  unfold State.withField
  split
  · rfl
  · split <;> rfl
@[simp] theorem State.withField_accesses (s : State) (i : FIdx) (v : Block) : (s.withField i v).accesses = s.accesses := by
  unfold State.withField
  split
  · rfl
  · split <;> rfl
@[simp] theorem State.withField_phases (s : State) (i : FIdx) (v : Block) : (s.withField i v).phases = s.phases := by
  unfold State.withField
  split
  · rfl
  · split <;> rfl
@[simp] theorem State.withField_free (s : State) (i : FIdx) (v : Block) : (s.withField i v).free = s.free := by
  unfold State.withField
  split
  · rfl
  · split <;> rfl

/-! Reset -/

@[simp] theorem resetBlock_status (s : State) : (resetBlock s).status = Status.reset := rfl
@[simp] theorem resetBlock_finfo (s : State) : (resetBlock s).finfo = 0 := rfl
@[simp] theorem resetBlock_streamer (s : State) : (resetBlock s).streamer = Streamer.released s.free := rfl
@[simp] theorem resetBlock_mem (s : State) : (resetBlock s).mem = s.mem := rfl
@[simp] theorem resetBlock_refused (s : State) : (resetBlock s).refused = s.refused := rfl
@[simp] theorem resetBlock_inputs (s : State) : (resetBlock s).inputs = s.inputs := rfl
@[simp] theorem resetBlock_accesses (s : State) : (resetBlock s).accesses = s.accesses := rfl
@[simp] theorem resetBlock_phases (s : State) : (resetBlock s).phases = s.phases := rfl
@[simp] theorem resetBlock_free (s : State) : (resetBlock s).free = s.free + 1 := rfl
@[simp] theorem Streamer.released_phase (n : Nat) : (Streamer.released n).phase = .done := rfl
@[simp] theorem Streamer.released_pend (n : Nat) : (Streamer.released n).pend = false := rfl

/-! The status register -/

@[simp] theorem Status.record_err (st : Status) (c : Cause) : (st.record c).err = true := rfl
@[simp] theorem Status.record_cause (st : Status) (c : Cause) : (st.record c).cause = c.code := rfl
@[simp] theorem Status.record_kpv (st : Status) (c : Cause) : (st.record c).kpv = st.kpv := rfl
@[simp] theorem Status.withKpv_err (st : Status) (b : Bool) : (st.withKpv b).err = st.err := rfl
@[simp] theorem Status.withKpv_cause (st : Status) (b : Bool) : (st.withKpv b).cause = st.cause := rfl
@[simp] theorem Status.withKpv_kpv (st : Status) (b : Bool) : (st.withKpv b).kpv = b := rfl
@[simp] theorem Status.reset_err : Status.reset.err = false := rfl
@[simp] theorem Status.reset_cause : Status.reset.cause = 0 := rfl
@[simp] theorem Status.reset_kpv : Status.reset.kpv = false := rfl

/-! The status register as the host reads it -/

@[simp] theorem Status.word_err (st : Status) : st.word[0] = st.err := by
  obtain ⟨err, cause, kpv⟩ := st
  revert cause
  cases err <;> cases kpv <;> decide
@[simp] theorem Status.word_cause (st : Status) : st.word.extractLsb' 1 4 = st.cause := by
  obtain ⟨err, cause, kpv⟩ := st
  revert cause
  cases err <;> cases kpv <;> decide
@[simp] theorem Status.word_kpv (st : Status) : st.word[5] = st.kpv := by
  obtain ⟨err, cause, kpv⟩ := st
  revert cause
  cases err <;> cases kpv <;> decide
@[simp] theorem Status.word_reserved (st : Status) : st.word.extractLsb' 6 10 = 0 := by
  obtain ⟨err, cause, kpv⟩ := st
  revert cause
  cases err <;> cases kpv <;> decide
@[simp] theorem State.statusPort_st (s : State) : s.statusPort.1 = s.status.word := rfl
@[simp] theorem State.statusPort_finfo (s : State) : s.statusPort.2 = s.finfo := rfl

/-! What the platform admits, and the registers, do not depend on the fields an access changes -/

@[simp] theorem State.logged_memOK (s : State) (k : AccessKind) (a : Addr) : (s.logged k a).memOK = s.memOK := rfl
@[simp] theorem State.stored_memOK (s : State) (a : Addr) (v : Block) : (s.stored a v).memOK = s.memOK := by
  funext b k
  simp only [State.memOK, State.stored_refused]
@[simp] theorem State.logged_keyPower (s : State) (k : AccessKind) (a : Addr) (n : Nat) :
    (s.logged k a).keyPower n = s.keyPower n := rfl
@[simp] theorem State.stored_keyPower (s : State) (a : Addr) (v : Block) (n : Nat) :
    (s.stored a v).keyPower n = s.keyPower n := by simp only [State.keyPower, State.stored_kp]
@[simp] theorem State.logged_scalar (s : State) (k : AccessKind) (a : Addr) (i : XIdx) :
    (s.logged k a).scalar i = s.scalar i := rfl
@[simp] theorem State.withField_scalar (s : State) (i : FIdx) (v : Block) (j : XIdx) :
    (s.withField i v).scalar j = s.scalar j := by simp [State.scalar]
@[simp] theorem State.withField_keyPower (s : State) (i : FIdx) (v : Block) (n : Nat) :
    (s.withField i v).keyPower n = s.keyPower n := by simp [State.keyPower]

end Sys2Proof.Machine
end

