-- ==== Sys2Proof/Laws/Memory.lean ====
section
/-! SUPPORT. The laws of memory: read after write, the canonical form, and Blocks as their sixteen bytes. -/

namespace Sys2Proof.Machine

/-! One byte -/

theorem Memory.read_write_other (m : Memory) {a c : Nat} (b : Byte) (h : c ≠ a) :
    Memory.read (Memory.write m a b) c = Memory.read m c := by
  induction m with
  | nil =>
    simp only [Memory.write]
    split <;> simp [Memory.read, h]
  | cons p m ih =>
    obtain ⟨a', b'⟩ := p
    simp only [Memory.write]
    split
    · split <;> simp [Memory.read, h]
    · split
      · rename_i heq
        subst heq
        split <;> simp [Memory.read, h]
      · simp [Memory.read, ih]

theorem Memory.read_of_wfFrom {m : Memory} {lo a : Nat} (hm : Memory.wfFrom lo m = true) (h : a < lo) :
    Memory.read m a = Config.unlistedByte := by
  induction m generalizing lo with
  | nil => rfl
  | cons p m ih =>
    obtain ⟨a', b'⟩ := p
    simp only [Memory.wfFrom, Bool.and_eq_true, decide_eq_true_eq] at hm
    obtain ⟨⟨⟨h1, -⟩, -⟩, h4⟩ := hm
    have hne : a ≠ a' := by omega
    simp only [Memory.read, hne, if_false]
    exact ih h4 (by omega)

theorem Memory.wfFrom_mono {m : Memory} {lo lo' : Nat} (hm : Memory.wfFrom lo m = true) (h : lo' ≤ lo) :
    Memory.wfFrom lo' m = true := by
  cases m with
  | nil => rfl
  | cons p m =>
    obtain ⟨a', b'⟩ := p
    simp only [Memory.wfFrom, Bool.and_eq_true, decide_eq_true_eq] at hm ⊢
    exact ⟨⟨⟨by omega, hm.1.1.2⟩, hm.1.2⟩, hm.2⟩

theorem Memory.wfFrom_write {m : Memory} {lo a : Nat} (b : Byte) (hm : Memory.wfFrom lo m = true) (h : lo ≤ a)
    (ha : a < 2 ^ 64) : Memory.wfFrom lo (Memory.write m a b) = true := by
  induction m generalizing lo with
  | nil =>
    simp only [Memory.write]
    split <;> rename_i hb <;> simp [Memory.wfFrom, h, hb]
    omega
  | cons p m ih =>
    obtain ⟨a', b'⟩ := p
    have hm' := hm
    simp only [Memory.wfFrom, Bool.and_eq_true, decide_eq_true_eq] at hm
    obtain ⟨⟨⟨h1, h2⟩, h3⟩, h4⟩ := hm
    simp only [Memory.write]
    split
    · rename_i hlt
      split
      · exact hm'
      · rename_i hb
        simp only [Memory.wfFrom, Bool.and_eq_true, decide_eq_true_eq]
        exact ⟨⟨⟨h, ha⟩, hb⟩, ⟨⟨by omega, h2⟩, h3⟩, h4⟩
    · split
      · rename_i heq
        subst heq
        split
        · exact Memory.wfFrom_mono h4 (by omega)
        · rename_i hb
          simp only [Memory.wfFrom, Bool.and_eq_true, decide_eq_true_eq]
          exact ⟨⟨⟨h, ha⟩, hb⟩, h4⟩
      · simp only [Memory.wfFrom, Bool.and_eq_true, decide_eq_true_eq]
        exact ⟨⟨⟨h1, h2⟩, h3⟩, ih h4 (by omega)⟩

/-- Writing a byte keeps the canonical form. -/
theorem Memory.wf_write {m : Memory} {a : Nat} (b : Byte) (hm : Memory.wf m = true) (ha : a < 2 ^ 64) :
    Memory.wf (Memory.write m a b) = true :=
  Memory.wfFrom_write b hm (Nat.zero_le a) ha

theorem Memory.read_write_same_from {m : Memory} {lo a : Nat} (b : Byte) (hm : Memory.wfFrom lo m = true) :
    Memory.read (Memory.write m a b) a = b := by
  induction m generalizing lo with
  | nil =>
    simp only [Memory.write]
    split <;> rename_i hb <;> simp [Memory.read, hb]
  | cons p m ih =>
    obtain ⟨a', b'⟩ := p
    have hm' := hm
    simp only [Memory.wfFrom, Bool.and_eq_true, decide_eq_true_eq] at hm
    obtain ⟨⟨⟨h1, h2⟩, h3⟩, h4⟩ := hm
    simp only [Memory.write]
    split
    · rename_i hlt
      split
      · rename_i hb
        have hne : a ≠ a' := by omega
        simp only [Memory.read, hne, if_false, hb]
        exact Memory.read_of_wfFrom h4 (by omega)
      · simp [Memory.read]
    · split
      · rename_i heq
        subst heq
        split
        · rename_i hb
          rw [hb]
          exact Memory.read_of_wfFrom h4 (by omega)
        · simp [Memory.read]
      · rename_i hne
        simp only [Memory.read, hne, if_false]
        exact ih h4

/-- A byte reads as what was written. -/
theorem Memory.read_write_same {m : Memory} {a : Nat} (b : Byte) (hm : Memory.wf m = true) :
    Memory.read (Memory.write m a b) a = b :=
  Memory.read_write_same_from b hm

/-! Blocks -/

theorem Memory.read_writeBytes_other (m : Memory) {a c : Nat} (v : Block) {n : Nat} (h : c < a ∨ a + n ≤ c) :
    Memory.read (Memory.writeBytes m a v n) c = Memory.read m c := by
  induction n with
  | zero => rfl
  | succ n ih =>
    simp only [Memory.writeBytes]
    rw [Memory.read_write_other _ _ (by omega), ih (by omega)]

/-- A byte outside a stored Block reads as before. -/
theorem Memory.read_writeBlock_other (m : Memory) {a c : Nat} (v : Block) (h : c < a ∨ a + 16 ≤ c) :
    Memory.read (Memory.writeBlock m a v) c = Memory.read m c :=
  Memory.read_writeBytes_other m v h

theorem Memory.wf_writeBytes {m : Memory} {a : Nat} (v : Block) {n : Nat} (hm : Memory.wf m = true) (ha : a + n ≤ 2 ^ 64) :
    Memory.wf (Memory.writeBytes m a v n) = true := by
  induction n with
  | zero => exact hm
  | succ n ih => exact Memory.wf_write _ (ih (by omega)) (by omega)

/-- Storing a Block keeps the canonical form. -/
theorem Memory.wf_writeBlock {m : Memory} {a : Nat} (v : Block) (hm : Memory.wf m = true) (ha : a + 16 ≤ 2 ^ 64) :
    Memory.wf (Memory.writeBlock m a v) = true :=
  Memory.wf_writeBytes v hm ha

theorem Memory.read_writeBytes_same {m : Memory} {a : Nat} (v : Block) {n i : Nat} (hm : Memory.wf m = true)
    (ha : a + n ≤ 2 ^ 64) (hi : i < n) : Memory.read (Memory.writeBytes m a v n) (a + i) = Block.byte v i := by
  induction n with
  | zero => omega
  | succ n ih =>
    simp only [Memory.writeBytes]
    by_cases h : i = n
    · subst h
      exact Memory.read_write_same _ (Memory.wf_writeBytes v hm (by omega))
    · rw [Memory.read_write_other _ _ (by omega), ih (by omega) (by omega)]

/-- Byte `i` of a stored Block is bits 8i+7..8i of it (R52). -/
theorem Memory.read_writeBlock_same {m : Memory} {a : Nat} (v : Block) {i : Nat} (hm : Memory.wf m = true)
    (ha : a + 16 ≤ 2 ^ 64) (hi : i < 16) : Memory.read (Memory.writeBlock m a v) (a + i) = Block.byte v i :=
  Memory.read_writeBytes_same v hm ha hi

theorem Memory.getLsbD_readBytes (m : Memory) (a n k : Nat) (hn : n ≤ 16) :
    (Memory.readBytes m a n).getLsbD k = (decide (k < 8 * n) && (Memory.read m (a + k / 8)).getLsbD (k % 8)) := by
  induction n with
  | zero => simp [Memory.readBytes]
  | succ n ih =>
    simp only [Memory.readBytes, BitVec.getLsbD_or, ih (by omega), BitVec.getLsbD_shiftLeft, BitVec.getLsbD_setWidth]
    by_cases h1 : k < 8 * n
    · have h3 : k < 8 * (n + 1) := by omega
      simp [h1, h3]
    · by_cases h2 : k < 8 * (n + 1)
      · have hd : k / 8 = n := by omega
        have hm : k % 8 = k - 8 * n := by omega
        have h4 : k < 128 := by omega
        have h5 : k - 8 * n < 128 := by omega
        simp [h1, h2, hd, hm, h4, h5]
      · have : 8 ≤ k - 8 * n := by omega
        simp [h1, h2, BitVec.getLsbD_of_ge _ _ this]

/-- Bit `k` of the Block at an address is bit `k mod 8` of byte `k / 8` (R52). -/
theorem Memory.getLsbD_readBlock (m : Memory) (a k : Nat) (hk : k < 128) :
    (Memory.readBlock m a).getLsbD k = (Memory.read m (a + k / 8)).getLsbD (k % 8) := by
  have h : k < 8 * 16 := by omega
  rw [Memory.readBlock, Memory.getLsbD_readBytes _ _ _ _ (Nat.le_refl 16)]
  simp [h]

/-- Two memories that agree on sixteen bytes hold the same Block there. -/
theorem Memory.readBlock_congr {m m' : Memory} {a a' : Nat}
    (h : ∀ i, i < 16 → Memory.read m (a + i) = Memory.read m' (a' + i)) : Memory.readBlock m a = Memory.readBlock m' a' := by
  apply BitVec.eq_of_getLsbD_eq
  intro k hk
  rw [Memory.getLsbD_readBlock _ _ _ hk, Memory.getLsbD_readBlock _ _ _ hk, h (k / 8) (by omega)]

/-- A Block reads as what was stored (R54, R55). -/
theorem Memory.readBlock_writeBlock_same {m : Memory} {a : Nat} (v : Block) (hm : Memory.wf m = true)
    (ha : a + 16 ≤ 2 ^ 64) : Memory.readBlock (Memory.writeBlock m a v) a = v := by
  apply BitVec.eq_of_getLsbD_eq
  intro k hk
  rw [Memory.getLsbD_readBlock _ _ _ hk, Memory.read_writeBlock_same v hm ha (by omega)]
  have h : k % 8 < 8 := by omega
  have h2 : 8 * (k / 8) + k % 8 = k := by omega
  simp [Block.byte, h, h2]

/-- A Block that does not overlap a stored one reads as before. -/
theorem Memory.readBlock_writeBlock_other (m : Memory) {a c : Nat} (v : Block) (h : c + 16 ≤ a ∨ a + 16 ≤ c) :
    Memory.readBlock (Memory.writeBlock m a v) c = Memory.readBlock m c :=
  Memory.readBlock_congr fun _ _ => Memory.read_writeBlock_other _ _ (by omega)

/-! Addresses -/

/-- An aligned address leaves room for sixteen bytes (R54). -/
theorem aligned16_room {a : Addr} (h : aligned16 a = true) : a.toNat + 16 ≤ 2 ^ 64 := by
  have h1 : a.toNat % 16 = 0 := by
    have h2 : (a.extractLsb' 0 4).toNat = 0 := by
      rw [beq_iff_eq.mp h]
      rfl
    simpa [BitVec.extractLsb'_toNat] using h2
  have := a.isLt
  omega

/-- The test of R186 is that the address is a multiple of 16. -/
theorem aligned16_iff (a : Addr) : aligned16 a = true ↔ a.toNat % 16 = 0 := by
  unfold aligned16
  rw [beq_iff_eq, ← BitVec.toNat_inj]
  simp [BitVec.extractLsb'_toNat]

/-- The address of a Block of a buffer that ends within the address space (R57). -/
theorem blockAddr_toNat {base : Addr} {i : Nat} (h : base.toNat + 16 * i < 2 ^ 64) :
    (blockAddr base i).toNat = base.toNat + 16 * i := by
  rw [blockAddr, BitVec.toNat_ofNat, Nat.mod_eq_of_lt h]

/-- The Blocks of an aligned buffer are aligned. -/
theorem aligned16_blockAddr {base : Addr} (i : Nat) (h : aligned16 base = true) : aligned16 (blockAddr base i) = true := by
  rw [aligned16_iff] at h ⊢
  simp only [blockAddr, BitVec.toNat_ofNat]
  omega

@[simp] theorem blockAddr_zero (base : Addr) : blockAddr base 0 = base := by simp [blockAddr]

end Sys2Proof.Machine
end

