-- ==== Sys2Proof/Laws/Cmd.lean ====
section
/-! SUPPORT. The laws of command computations: sequencing, and one lemma per shared operation that says all it can do. -/

namespace Sys2Proof.Machine

/-! Sequencing -/

@[simp] theorem Cmd.pure_apply {α : Type} (a : α) (s : State) : (pure a : Cmd α).run s = .ok a s := rfl

theorem Cmd.bind_apply {α β : Type} (c : Cmd α) (k : α → Cmd β) (s : State) :
    (c >>= k).run s = match c.run s with
      | .ok a s' => (k a).run s'
      | .error t s' => .error t s' := by
  show EStateM.bind c k s = _
  unfold EStateM.bind EStateM.run
  cases c s <;> rfl

/-- A command that completes is followed by the rest. -/
theorem Cmd.bind_ok {α β : Type} {c : Cmd α} {k : α → Cmd β} {s s' : State} {a : α} (h : c.run s = .ok a s') :
    (c >>= k).run s = (k a).run s' := by rw [Cmd.bind_apply, h]

/-- A command that raises ends the whole. -/
theorem Cmd.bind_error {α β : Type} {c : Cmd α} {k : α → Cmd β} {s s' : State} {t : Trap} (h : c.run s = .error t s') :
    (c >>= k).run s = .error t s' := by rw [Cmd.bind_apply, h]

/-- What a sequence of two can do, seen from a completion. -/
theorem Cmd.bind_ok_iff {α β : Type} {c : Cmd α} {k : α → Cmd β} {s s'' : State} {b : β} :
    (c >>= k).run s = .ok b s'' ↔ ∃ a s', c.run s = .ok a s' ∧ (k a).run s' = .ok b s'' := by
  rw [Cmd.bind_apply]
  cases h : c.run s with
  | ok a s' => simp
  | error t s' => simp

/-- What a sequence of two can do, seen from a raise. -/
theorem Cmd.bind_error_iff {α β : Type} {c : Cmd α} {k : α → Cmd β} {s s'' : State} {t : Trap} :
    (c >>= k).run s = .error t s'' ↔
      c.run s = .error t s'' ∨ ∃ a s', c.run s = .ok a s' ∧ (k a).run s' = .error t s'' := by
  rw [Cmd.bind_apply]
  cases h : c.run s with
  | ok a s' => simp
  | error t s' => simp

@[simp] theorem Cmd.raise_apply {α : Type} (c : Cause) (info : BitVec 64) (s : State) :
    (raise c info : Cmd α).run s = .error ⟨c, info⟩ s := rfl

@[simp] theorem Cmd.get_apply (s : State) : (get : Cmd State).run s = .ok s s := rfl

@[simp] theorem Cmd.modify_apply (g : State → State) (s : State) : (modify g : Cmd Unit).run s = .ok () (g s) := rfl

@[simp] theorem Cmd.ite_apply {α : Type} (p : Prop) [Decidable p] (c d : Cmd α) (s : State) :
    (if p then c else d).run s = if p then c.run s else d.run s := by split <;> rfl

/-! A command run to its end (R182) -/

theorem command_ok {c : Cmd Unit} {s s' : State} (h : c.run s = .ok () s') : command c s = .next s' := by
  simp [command, h]

theorem command_error {c : Cmd Unit} {s s' : State} {t : Trap} (h : c.run s = .error t s') :
    command c s = .next (takeFault t (atRaise s s')) := by simp [command, h]

/-- A command completes or faults; there is no third outcome (R182). -/
theorem command_cases {c : Cmd Unit} {s s' : State} (h : command c s = .next s') :
    c.run s = .ok () s' ∨ ∃ t r, c.run s = .error t r ∧ s' = takeFault t (atRaise s r) := by
  unfold command at h
  cases hc : c.run s with
  | ok a r =>
    rw [hc] at h
    cases h
    exact .inl rfl
  | error t r =>
    rw [hc] at h
    cases h
    exact .inr ⟨t, r, rfl, rfl⟩

/-- A command always answers a next state. -/
theorem command_next (c : Cmd Unit) (s : State) : ∃ s', command c s = .next s' := by
  unfold command
  cases c.run s with
  | ok a r => exact ⟨_, rfl⟩
  | error t r => exact ⟨_, rfl⟩

/-! Memory -/

theorem memRead_ok {s : State} {a : Addr} (ha : aligned16 a = true) (hm : s.memOK a .read = true) :
    (memRead a).run s = .ok (Memory.readBlock s.mem a.toNat) (s.logged .read a) := by simp [EStateM.run, memRead, ha, hm]

theorem memRead_refused {s : State} {a : Addr} (ha : aligned16 a = true) (hm : s.memOK a .read = false) :
    (memRead a).run s = .error ⟨.accessFault, a⟩ s := by simp [EStateM.run, memRead, ha, hm]

theorem memRead_misaligned {s : State} {a : Addr} (ha : aligned16 a = false) :
    (memRead a).run s = .error ⟨.misaligned, a⟩ s := by simp [EStateM.run, memRead, ha]

/-- All that `MemRead` can do (R54). -/
theorem memRead_cases (a : Addr) (s : State) :
    (aligned16 a = true ∧ s.memOK a .read = true ∧ (memRead a).run s = .ok (Memory.readBlock s.mem a.toNat) (s.logged .read a)) ∨
    (aligned16 a = true ∧ s.memOK a .read = false ∧ (memRead a).run s = .error ⟨.accessFault, a⟩ s) ∨
    (aligned16 a = false ∧ (memRead a).run s = .error ⟨.misaligned, a⟩ s) := by
  cases ha : aligned16 a <;> cases hm : s.memOK a .read <;> simp [EStateM.run, memRead, ha, hm]

theorem memWrite_ok {s : State} {a : Addr} {v : Block} (ha : aligned16 a = true) (hm : s.memOK a .write = true) :
    (memWrite a v).run s = .ok () (s.stored a v) := by simp [EStateM.run, memWrite, ha, hm]

theorem memWrite_refused {s : State} {a : Addr} {v : Block} (ha : aligned16 a = true) (hm : s.memOK a .write = false) :
    (memWrite a v).run s = .error ⟨.accessFault, a⟩ s := by simp [EStateM.run, memWrite, ha, hm]

theorem memWrite_misaligned {s : State} {a : Addr} {v : Block} (ha : aligned16 a = false) :
    (memWrite a v).run s = .error ⟨.misaligned, a⟩ s := by simp [EStateM.run, memWrite, ha]

/-- All that `MemWrite` can do (R55). -/
theorem memWrite_cases (a : Addr) (v : Block) (s : State) :
    (aligned16 a = true ∧ s.memOK a .write = true ∧ (memWrite a v).run s = .ok () (s.stored a v)) ∨
    (aligned16 a = true ∧ s.memOK a .write = false ∧ (memWrite a v).run s = .error ⟨.accessFault, a⟩ s) ∨
    (aligned16 a = false ∧ (memWrite a v).run s = .error ⟨.misaligned, a⟩ s) := by
  cases ha : aligned16 a <;> cases hm : s.memOK a .write <;> simp [EStateM.run, memWrite, ha, hm]

theorem checkAligned_ok {a : Addr} (h : aligned16 a = true) (s : State) : (checkAligned a).run s = .ok () s := by
  simp [checkAligned, h]

theorem checkAligned_error {a : Addr} (h : aligned16 a = false) (s : State) :
    (checkAligned a).run s = .error ⟨.misaligned, a⟩ s := by simp [checkAligned, h]

theorem checkRange_ok {base : Addr} {n : Nat} (h : base.toNat + 16 * n ≤ 2 ^ 64) (s : State) :
    (checkRange base n).run s = .ok () s := by
  have : ¬ base.toNat + 16 * n > 2 ^ 64 := by omega
  rw [checkRange, if_neg this, Cmd.pure_apply]

theorem checkRange_error {base : Addr} {n : Nat} (h : base.toNat + 16 * n > 2 ^ 64) (s : State) :
    (checkRange base n).run s = .error ⟨.addrRange, base⟩ s := by rw [checkRange, if_pos h, Cmd.raise_apply]

/-! Operands -/

theorem readField_ok {s : State} {i : FIdx} (h : s.readable i = true) : (readField i).run s = .ok (s.field i) s := by
  simp [EStateM.run, readField, h]

theorem readField_error {s : State} {i : FIdx} (h : s.readable i = false) :
    (readField i).run s = .error ⟨.keysInvalid, 0⟩ s := by simp [EStateM.run, readField, h]

@[simp] theorem writeField_apply (i : FIdx) (v : Block) (s : State) : (writeField i v).run s = .ok () (s.withField i v) := rfl
@[simp] theorem readScalar_apply (i : XIdx) (s : State) : (readScalar i).run s = .ok (s.scalar i) s := rfl
@[simp] theorem writeScalar_apply (i : XIdx) (v : Addr) (s : State) : (writeScalar i v).run s = .ok () (s.withScalar i v) := rfl

theorem checkDest_ok {i : Instr} {fd : FIdx} (h : FIdx.writable fd = true) (s : State) : (checkDest i fd).run s = .ok () s := by
  simp [checkDest, h]

theorem checkDest_error {i : Instr} {fd : FIdx} (h : FIdx.writable fd = false) (s : State) :
    (checkDest i fd).run s = .error ⟨.illegalCommand, (encode i).setWidth 64⟩ s := by simp [checkDest, h]

theorem checkKeys_ok {s : State} (h : s.status.kpv = true) : checkKeys.run s = .ok () s := by simp [EStateM.run, checkKeys, h]

theorem checkKeys_error {s : State} (h : s.status.kpv = false) : checkKeys.run s = .error ⟨.keysInvalid, 0⟩ s := by
  simp [EStateM.run, checkKeys, h]

/-- KPV = 1 makes every index readable (R27). -/
theorem State.readable_of_kpv {s : State} (i : FIdx) (h : s.status.kpv = true) : s.readable i = true := by
  simp [State.readable, h]

/-- A written field register reads as written (R28). -/
theorem State.field_withField_same (s : State) {i : FIdx} (v : Block) (h : FIdx.writable i = true) :
    (s.withField i v).field i = v := by
  simp only [FIdx.writable, decide_eq_true_eq] at h
  unfold State.field State.withField
  by_cases h6 : i.val < 6
  · simp [h6]
  · have : i.val = 6 := by omega
    simp [this]

/-- Every other index reads as before (R28, R35). -/
theorem State.field_withField_other (s : State) {i j : FIdx} (v : Block) (h : j ≠ i) :
    (s.withField i v).field j = s.field j := by
  have hne : j.val ≠ i.val := fun e => h (Fin.ext e)
  unfold State.field
  by_cases h6 : i.val < 6
  · have : (s.withField i v) = { s with f := s.f.set i.val v } := by simp [State.withField, h6]
    rw [this]
    split
    · simp [Ne.symm hne]
    · rfl
  · by_cases h7 : i.val = 6
    · have : (s.withField i v) = { s with accS := v } := by simp [State.withField, h7]
      rw [this]
      have h8 : j.val ≠ 6 := by omega
      simp only [h8, if_false]
      rfl
    · have : (s.withField i v) = s := by simp [State.withField, h6, h7]
      rw [this]

/-- A written scalar register reads as written. -/
theorem State.scalar_withScalar_same (s : State) (i : XIdx) (v : Addr) : (s.withScalar i v).scalar i = v := by
  simp [State.scalar, State.withScalar]

/-- The other scalar registers read as before (R35). -/
theorem State.scalar_withScalar_other (s : State) {i j : XIdx} (v : Addr) (h : j ≠ i) :
    (s.withScalar i v).scalar j = s.scalar j := by
  have hne : i.val ≠ j.val := fun e => h (Fin.ext e.symm)
  simp [State.scalar, State.withScalar, hne]

end Sys2Proof.Machine
end

