-- ==== Sys2Proof/Laws/Exec.lean ====
section
/-! SUPPORT. The laws of the commands that make at most three accesses: what each does when its checks pass, and what it raises. -/

namespace Sys2Proof.Machine

/-! A fault taken by a command -/

/-- What the host sees of a raise before which no memory was written (R184, R192). -/
theorem raised_of_error {c : Cmd Unit} {s r : State} {t : Trap} (h : c.run s = .error t r) (hm : r.mem = s.mem) :
    ∃ u, command c s = .next u ∧ Raised t.cause.code t.info s u ∧ u.accesses = r.accesses ∧ SameRegisters s u := by
  refine ⟨_, command_error h, ⟨rfl, rfl, rfl, rfl, fun a => ?_, rfl, rfl⟩, rfl, fun _ _ => rfl, fun _ _ _ => rfl, fun _ => rfl⟩
  rw [takeFault_mem, atRaise_mem, hm]

/-! FieldOps -/

/-- A written field register is all that a register command changes. -/
theorem fieldFrame_withField (s : State) (fd : FIdx) (v : Block) : FieldFrame fd s (s.withField fd v) where
  other_fields j h := State.field_withField_other s v h
  keys k _ _ := by simp
  scalars j := by simp
  status := by simp [SameStatus]
  memory a := by simp
  accesses := by simp
  streamer := by simp [SameStreamer]
  host := by simp [SameHost]

theorem fieldOp2_ok {i : Instr} {fd fs1 fs2 : FIdx} {op : Block → Block → Block} {s : State} (hd : FIdx.writable fd = true)
    (h1 : s.readable fs1 = true) (h2 : s.readable fs2 = true) :
    command (fieldOp2 i fd fs1 fs2 op) s = .next (s.withField fd (op (s.field fs1) (s.field fs2))) := by
  apply command_ok
  rw [fieldOp2, Cmd.bind_ok (checkDest_ok hd s), Cmd.bind_ok (readField_ok h1), Cmd.bind_ok (readField_ok h2), writeField_apply]

theorem fieldOp1_ok {i : Instr} {fd fs1 : FIdx} {op : Block → Block} {s : State} (hd : FIdx.writable fd = true)
    (h1 : s.readable fs1 = true) : command (fieldOp1 i fd fs1 op) s = .next (s.withField fd (op (s.field fs1))) := by
  apply command_ok
  rw [fieldOp1, Cmd.bind_ok (checkDest_ok hd s), Cmd.bind_ok (readField_ok h1), writeField_apply]

/-- A source that may not be read stops the command before anything is written (R27). -/
theorem fieldOp2_keysInvalid {i : Instr} {fd fs1 fs2 : FIdx} {op : Block → Block → Block} {s : State}
    (hd : FIdx.writable fd = true) (h : s.readable fs1 = false ∨ s.readable fs2 = false) :
    (fieldOp2 i fd fs1 fs2 op).run s = .error ⟨.keysInvalid, 0⟩ s := by
  rw [fieldOp2, Cmd.bind_ok (checkDest_ok hd s)]
  cases h1 : s.readable fs1 with
  | false => rw [Cmd.bind_error (readField_error h1)]
  | true =>
    have h2 : s.readable fs2 = false := by simpa [h1] using h
    rw [Cmd.bind_ok (readField_ok h1), Cmd.bind_error (readField_error h2)]

theorem fieldOp1_keysInvalid {i : Instr} {fd fs1 : FIdx} {op : Block → Block} {s : State} (hd : FIdx.writable fd = true)
    (h : s.readable fs1 = false) : (fieldOp1 i fd fs1 op).run s = .error ⟨.keysInvalid, 0⟩ s := by
  rw [fieldOp1, Cmd.bind_ok (checkDest_ok hd s), Cmd.bind_error (readField_error h)]

/-- A destination that may not be written stops the command first (R83, R189). -/
theorem fieldOp2_illegal {i : Instr} {fd fs1 fs2 : FIdx} {op : Block → Block → Block} {s : State}
    (hd : FIdx.writable fd = false) : (fieldOp2 i fd fs1 fs2 op).run s = .error ⟨.illegalCommand, (encode i).setWidth 64⟩ s := by
  rw [fieldOp2, Cmd.bind_error (checkDest_error hd s)]

theorem fieldOp1_illegal {i : Instr} {fd fs1 : FIdx} {op : Block → Block} {s : State} (hd : FIdx.writable fd = false) :
    (fieldOp1 i fd fs1 op).run s = .error ⟨.illegalCommand, (encode i).setWidth 64⟩ s := by
  rw [fieldOp1, Cmd.bind_error (checkDest_error hd s)]

/-! LDB and STB -/

theorem loadBlock_ok {fd : FIdx} {xa : XIdx} {s : State} (hd : FIdx.writable fd = true)
    (ha : aligned16 (s.scalar xa) = true) (hm : s.memOK (s.scalar xa) .read = true) :
    (loadBlock fd xa).run s = .ok ()
      ((s.logged .read (s.scalar xa)).withField fd (Memory.readBlock s.mem (s.scalar xa).toNat)) := by
  rw [loadBlock, Cmd.bind_ok (checkDest_ok hd s), Cmd.bind_ok (readScalar_apply _ _), Cmd.bind_ok (memRead_ok ha hm),
    writeField_apply]

theorem loadBlock_illegal {fd : FIdx} {xa : XIdx} {s : State} (hd : FIdx.writable fd = false) :
    (loadBlock fd xa).run s = .error ⟨.illegalCommand, (encode (.ldb fd xa)).setWidth 64⟩ s := by
  rw [loadBlock, Cmd.bind_error (checkDest_error hd s)]

theorem loadBlock_misaligned {fd : FIdx} {xa : XIdx} {s : State} (hd : FIdx.writable fd = true)
    (ha : aligned16 (s.scalar xa) = false) : (loadBlock fd xa).run s = .error ⟨.misaligned, s.scalar xa⟩ s := by
  rw [loadBlock, Cmd.bind_ok (checkDest_ok hd s), Cmd.bind_ok (readScalar_apply _ _), Cmd.bind_error (memRead_misaligned ha)]

theorem loadBlock_refused {fd : FIdx} {xa : XIdx} {s : State} (hd : FIdx.writable fd = true)
    (ha : aligned16 (s.scalar xa) = true) (hm : s.memOK (s.scalar xa) .read = false) :
    (loadBlock fd xa).run s = .error ⟨.accessFault, s.scalar xa⟩ s := by
  rw [loadBlock, Cmd.bind_ok (checkDest_ok hd s), Cmd.bind_ok (readScalar_apply _ _), Cmd.bind_error (memRead_refused ha hm)]

theorem storeBlock_ok {fs : FIdx} {xa : XIdx} {s : State} (hr : s.readable fs = true)
    (ha : aligned16 (s.scalar xa) = true) (hm : s.memOK (s.scalar xa) .write = true) :
    (storeBlock fs xa).run s = .ok () (s.stored (s.scalar xa) (s.field fs)) := by
  rw [storeBlock, Cmd.bind_ok (readField_ok hr), Cmd.bind_ok (readScalar_apply _ _), memWrite_ok ha hm]

theorem storeBlock_keysInvalid {fs : FIdx} {xa : XIdx} {s : State} (hr : s.readable fs = false) :
    (storeBlock fs xa).run s = .error ⟨.keysInvalid, 0⟩ s := by
  rw [storeBlock, Cmd.bind_error (readField_error hr)]

theorem storeBlock_misaligned {fs : FIdx} {xa : XIdx} {s : State} (hr : s.readable fs = true)
    (ha : aligned16 (s.scalar xa) = false) : (storeBlock fs xa).run s = .error ⟨.misaligned, s.scalar xa⟩ s := by
  rw [storeBlock, Cmd.bind_ok (readField_ok hr), Cmd.bind_ok (readScalar_apply _ _), memWrite_misaligned ha]

theorem storeBlock_refused {fs : FIdx} {xa : XIdx} {s : State} (hr : s.readable fs = true)
    (ha : aligned16 (s.scalar xa) = true) (hm : s.memOK (s.scalar xa) .write = false) :
    (storeBlock fs xa).run s = .error ⟨.accessFault, s.scalar xa⟩ s := by
  rw [storeBlock, Cmd.bind_ok (readField_ok hr), Cmd.bind_ok (readScalar_apply _ _), memWrite_refused ha hm]

/-! What a stored Block leaves unchanged -/

@[simp] theorem State.stored_field (s : State) (a : Addr) (v : Block) (j : FIdx) : (s.stored a v).field j = s.field j := by
  simp only [State.field, State.stored_f, State.stored_accS, State.stored_keyPower]

@[simp] theorem State.logged_field (s : State) (k : AccessKind) (a : Addr) (j : FIdx) :
    (s.logged k a).field j = s.field j := rfl

@[simp] theorem State.stored_scalar (s : State) (a : Addr) (v : Block) (j : XIdx) :
    (s.stored a v).scalar j = s.scalar j := by simp only [State.scalar, State.stored_x]

theorem sameRegisters_stored (s : State) (a : Addr) (v : Block) : SameRegisters s (s.stored a v) :=
  ⟨fun _ _ => State.stored_field .., fun _ _ _ => State.stored_keyPower .., fun _ => State.stored_scalar ..⟩

theorem sameMemoryOutside_stored (s : State) (a : Addr) (v : Block) : SameMemoryOutside a.toNat 16 s (s.stored a v) := by
  intro c h
  rw [State.stored_mem]
  exact Memory.read_writeBlock_other _ _ h

/-! BLOCKMUL -/

theorem blockMulInMemory_ok {xa xb : XIdx} {s : State} (ha : aligned16 (s.scalar xa) = true)
    (hb : aligned16 (s.scalar xb) = true) (h1 : s.memOK (s.scalar xa) .read = true) (h2 : s.memOK (s.scalar xb) .read = true)
    (h3 : s.memOK (s.scalar xa) .write = true) :
    (blockMulInMemory xa xb).run s = .ok ()
      (((s.logged .read (s.scalar xa)).logged .read (s.scalar xb)).stored (s.scalar xa)
        (blockMul (Memory.readBlock s.mem (s.scalar xa).toNat) (Memory.readBlock s.mem (s.scalar xb).toNat))) := by
  rw [blockMulInMemory, Cmd.bind_ok (readScalar_apply _ _), Cmd.bind_ok (readScalar_apply _ _),
    Cmd.bind_ok (checkAligned_ok ha s), Cmd.bind_ok (checkAligned_ok hb s), Cmd.bind_ok (memRead_ok ha h1),
    Cmd.bind_ok (memRead_ok hb (by simpa using h2)), memWrite_ok ha (by simpa using h3)]
  rfl

theorem blockMulInMemory_misaligned_first {xa xb : XIdx} {s : State} (ha : aligned16 (s.scalar xa) = false) :
    (blockMulInMemory xa xb).run s = .error ⟨.misaligned, s.scalar xa⟩ s := by
  rw [blockMulInMemory, Cmd.bind_ok (readScalar_apply _ _), Cmd.bind_ok (readScalar_apply _ _),
    Cmd.bind_error (checkAligned_error ha s)]

theorem blockMulInMemory_misaligned_second {xa xb : XIdx} {s : State} (ha : aligned16 (s.scalar xa) = true)
    (hb : aligned16 (s.scalar xb) = false) : (blockMulInMemory xa xb).run s = .error ⟨.misaligned, s.scalar xb⟩ s := by
  rw [blockMulInMemory, Cmd.bind_ok (readScalar_apply _ _), Cmd.bind_ok (readScalar_apply _ _),
    Cmd.bind_ok (checkAligned_ok ha s), Cmd.bind_error (checkAligned_error hb s)]

theorem blockMulInMemory_refused_first {xa xb : XIdx} {s : State} (ha : aligned16 (s.scalar xa) = true)
    (hb : aligned16 (s.scalar xb) = true) (h1 : s.memOK (s.scalar xa) .read = false) :
    (blockMulInMemory xa xb).run s = .error ⟨.accessFault, s.scalar xa⟩ s := by
  rw [blockMulInMemory, Cmd.bind_ok (readScalar_apply _ _), Cmd.bind_ok (readScalar_apply _ _),
    Cmd.bind_ok (checkAligned_ok ha s), Cmd.bind_ok (checkAligned_ok hb s), Cmd.bind_error (memRead_refused ha h1)]

theorem blockMulInMemory_refused_second {xa xb : XIdx} {s : State} (ha : aligned16 (s.scalar xa) = true)
    (hb : aligned16 (s.scalar xb) = true) (h1 : s.memOK (s.scalar xa) .read = true)
    (h2 : s.memOK (s.scalar xb) .read = false) :
    (blockMulInMemory xa xb).run s = .error ⟨.accessFault, s.scalar xb⟩ (s.logged .read (s.scalar xa)) := by
  rw [blockMulInMemory, Cmd.bind_ok (readScalar_apply _ _), Cmd.bind_ok (readScalar_apply _ _),
    Cmd.bind_ok (checkAligned_ok ha s), Cmd.bind_ok (checkAligned_ok hb s), Cmd.bind_ok (memRead_ok ha h1),
    Cmd.bind_error (memRead_refused hb (by simpa using h2))]

theorem blockMulInMemory_refused_write {xa xb : XIdx} {s : State} (ha : aligned16 (s.scalar xa) = true)
    (hb : aligned16 (s.scalar xb) = true) (h1 : s.memOK (s.scalar xa) .read = true)
    (h2 : s.memOK (s.scalar xb) .read = true) (h3 : s.memOK (s.scalar xa) .write = false) :
    (blockMulInMemory xa xb).run s = .error ⟨.accessFault, s.scalar xa⟩
      ((s.logged .read (s.scalar xa)).logged .read (s.scalar xb)) := by
  rw [blockMulInMemory, Cmd.bind_ok (readScalar_apply _ _), Cmd.bind_ok (readScalar_apply _ _),
    Cmd.bind_ok (checkAligned_ok ha s), Cmd.bind_ok (checkAligned_ok hb s), Cmd.bind_ok (memRead_ok ha h1),
    Cmd.bind_ok (memRead_ok hb (by simpa using h2)), memWrite_refused ha (by simpa using h3)]

end Sys2Proof.Machine
end

