-- ==== Sys2Proof/Laws/Blocks.lean ====
section
/-! SUPPORT. The laws of the multi-block transfers of KPLD and KPST (spec/42_keypowers.md R124, R125): all that `memReadBlocks` and
`memWriteBlocks` can do, and the commands built on them. -/

namespace Sys2Proof.Machine

theorem State.admitsBlocks_mono {s : State} {base : Addr} {n k : Nat} {kind : AccessKind} (h : s.admitsBlocks base n kind)
    (hk : k ≤ n) : s.admitsBlocks base k kind := fun i hi => h i (by omega)

/-- A Block's address inside a buffer that ends within the address space (R57). -/
theorem blockAddr_toNat_of_inRange {base : Addr} {n i : Nat} (hr : inRange base n) (hi : i < n) :
    (blockAddr base i).toNat = base.toNat + 16 * i := by
  unfold inRange at hr
  exact blockAddr_toNat (by omega)

/-! Reading -/

/-- `n` Blocks from Block `i` on, every access admitted. -/
theorem memReadBlocks_ok {base : Addr} (ha : aligned16 base = true) (n : Nat) :
    ∀ (i : Nat) (s : State), inRange base (i + n) → (∀ j, j < n → s.memOK (blockAddr base (i + j)) .read = true) →
      (memReadBlocks base n i).run s = .ok ((List.range' i n).map (s.messageBlock base))
        { s with accesses := s.accesses ++ readsOf base i n } := by
  induction n with
  | zero =>
    intro i s _ _
    simp [memReadBlocks, readsOf]
  | succ n ih =>
    intro i s hr hm
    have hread : (memRead (blockAddr base i)).run s = .ok (s.messageBlock base i) (s.logged .read (blockAddr base i)) := by
      rw [memRead_ok (aligned16_blockAddr _ ha) (by simpa using hm 0 (by omega)), blockAddr_toNat_of_inRange hr (by omega)]
      rfl
    have hrest := ih (i + 1) (s.logged .read (blockAddr base i)) (by unfold inRange at hr ⊢; omega)
      (fun j hj => by
        have := hm (j + 1) (by omega)
        rwa [Nat.add_comm j 1, ← Nat.add_assoc] at this)
    rw [memReadBlocks, Cmd.bind_ok hread, Cmd.bind_ok hrest, Cmd.pure_apply]
    simp only [State.logged, readsOf, List.range'_succ, List.map_cons, List.append_assoc, List.singleton_append]
    rfl

/-- The read of Block `i + k` is the first one refused. -/
theorem memReadBlocks_refused {base : Addr} (ha : aligned16 base = true) (k : Nat) :
    ∀ (n i : Nat) (s : State), k < n → inRange base (i + n) → (∀ j, j < k → s.memOK (blockAddr base (i + j)) .read = true) →
      s.memOK (blockAddr base (i + k)) .read = false →
      (memReadBlocks base n i).run s = .error ⟨.accessFault, blockAddr base (i + k)⟩
        { s with accesses := s.accesses ++ readsOf base i k } := by
  induction k with
  | zero =>
    intro n i s hk _ _ hf
    rw [Nat.add_zero] at hf ⊢
    obtain ⟨n, rfl⟩ : ∃ m, n = m + 1 := ⟨n - 1, by omega⟩
    rw [memReadBlocks, Cmd.bind_error (memRead_refused (aligned16_blockAddr _ ha) hf)]
    simp [readsOf]
  | succ k ih =>
    intro n i s hk hr hm hf
    obtain ⟨n, rfl⟩ : ∃ m, n = m + 1 := ⟨n - 1, by omega⟩
    have hread : (memRead (blockAddr base i)).run s = .ok (s.messageBlock base i) (s.logged .read (blockAddr base i)) := by
      rw [memRead_ok (aligned16_blockAddr _ ha) (by simpa using hm 0 (by omega)), blockAddr_toNat_of_inRange hr (by omega)]
      rfl
    have e : i + (k + 1) = i + 1 + k := by omega
    rw [e] at hf
    have hrest := ih n (i + 1) (s.logged .read (blockAddr base i)) (by omega) (by unfold inRange at hr ⊢; omega)
      (fun j hj => by
        have := hm (j + 1) (by omega)
        rwa [Nat.add_comm j 1, ← Nat.add_assoc] at this) hf
    rw [memReadBlocks, Cmd.bind_ok hread, Cmd.bind_error hrest, e]
    simp only [State.logged, readsOf, List.range'_succ, List.map_cons, List.append_assoc, List.singleton_append]

/-! Writing -/

/-- The memory after the given Blocks are written from Block `i` of a buffer on. -/
def Memory.writeBlocks (m : Memory) (base : Nat) : List Block → Nat → Memory
  | [], _ => m
  | v :: vs, i => Memory.writeBlocks (Memory.writeBlock m (base + 16 * i) v) base vs (i + 1)

theorem Memory.wf_writeBlocks {base : Nat} (vs : List Block) :
    ∀ (m : Memory) (i : Nat), Memory.wf m = true → base + 16 * (i + vs.length) ≤ 2 ^ 64 →
      Memory.wf (Memory.writeBlocks m base vs i) = true := by
  induction vs with
  | nil => intro m i hm _; exact hm
  | cons v vs ih =>
    intro m i hm hr
    rw [List.length_cons] at hr
    exact ih _ _ (Memory.wf_writeBlock v hm (by omega)) (by omega)

theorem Memory.read_writeBlocks_other {base c : Nat} (vs : List Block) :
    ∀ (m : Memory) (i : Nat), (c < base + 16 * i ∨ base + 16 * (i + vs.length) ≤ c) →
      Memory.read (Memory.writeBlocks m base vs i) c = Memory.read m c := by
  induction vs with
  | nil => intro m i _; rfl
  | cons v vs ih =>
    intro m i h
    rw [List.length_cons] at h
    rw [Memory.writeBlocks, ih _ _ (by omega), Memory.read_writeBlock_other _ _ (by omega)]

theorem Memory.readBlock_writeBlocks {base : Nat} (vs : List Block) :
    ∀ (m : Memory) (i j : Nat) (hj : j < vs.length), Memory.wf m = true → base + 16 * (i + vs.length) ≤ 2 ^ 64 →
      Memory.readBlock (Memory.writeBlocks m base vs i) (base + 16 * (i + j)) = vs[j] := by
  induction vs with
  | nil => intro m i j hj; exact absurd hj (Nat.not_lt_zero _)
  | cons v vs ih =>
    intro m i j hj hm hr
    rw [List.length_cons] at hr
    have hm' : Memory.wf (Memory.writeBlock m (base + 16 * i) v) = true := Memory.wf_writeBlock v hm (by omega)
    cases j with
    | zero =>
      rw [Memory.writeBlocks, List.getElem_cons_zero]
      have hother : Memory.readBlock (Memory.writeBlocks (Memory.writeBlock m (base + 16 * i) v) base vs (i + 1))
          (base + 16 * (i + 0)) = Memory.readBlock (Memory.writeBlock m (base + 16 * i) v) (base + 16 * i) :=
        Memory.readBlock_congr fun k hk => by
          rw [Memory.read_writeBlocks_other _ _ _ (by omega)]
          rfl
      rw [hother]
      exact Memory.readBlock_writeBlock_same v hm (by omega)
    | succ j =>
      have hj' : j < vs.length := by simpa using hj
      rw [Memory.writeBlocks, List.getElem_cons_succ]
      have := ih (Memory.writeBlock m (base + 16 * i) v) (i + 1) j hj' hm' (by omega)
      rwa [Nat.add_assoc i 1 j, Nat.add_comm 1 j] at this

/-- Blocks written from Block `i` on, every access admitted. -/
theorem memWriteBlocks_ok {base : Addr} (ha : aligned16 base = true) (vs : List Block) :
    ∀ (i : Nat) (s : State), inRange base (i + vs.length) →
      (∀ j, j < vs.length → s.memOK (blockAddr base (i + j)) .write = true) →
      (memWriteBlocks base vs i).run s = .ok ()
        { s with
          mem := Memory.writeBlocks s.mem base.toNat vs i
          accesses := s.accesses ++ writesOf base i vs.length } := by
  induction vs with
  | nil =>
    intro i s _ _
    simp [memWriteBlocks, writesOf, Memory.writeBlocks]
  | cons v vs ih =>
    intro i s hr hm
    rw [List.length_cons] at hr hm
    have hwrite : (memWrite (blockAddr base i) v).run s = .ok () (s.stored (blockAddr base i) v) :=
      memWrite_ok (aligned16_blockAddr _ ha) (by simpa using hm 0 (by omega))
    have hrest := ih (i + 1) (s.stored (blockAddr base i) v) (by unfold inRange at hr ⊢; omega)
      (fun j hj => by
        have := hm (j + 1) (by omega)
        rw [State.stored_memOK]
        rwa [Nat.add_comm j 1, ← Nat.add_assoc] at this)
    rw [memWriteBlocks, Cmd.bind_ok hwrite, hrest]
    simp only [State.stored, State.logged, writesOf, List.length_cons, List.range'_succ, List.map_cons, List.append_assoc,
      List.singleton_append, Memory.writeBlocks, blockAddr_toNat_of_inRange hr (show i < i + (vs.length + 1) by omega)]

/-- The write of Block `i + k` is the first one refused: the Blocks before it have been written (R192). -/
theorem memWriteBlocks_refused {base : Addr} (ha : aligned16 base = true) (k : Nat) :
    ∀ (vs : List Block) (i : Nat) (s : State), k < vs.length → inRange base (i + vs.length) →
      (∀ j, j < k → s.memOK (blockAddr base (i + j)) .write = true) → s.memOK (blockAddr base (i + k)) .write = false →
      (memWriteBlocks base vs i).run s = .error ⟨.accessFault, blockAddr base (i + k)⟩
        { s with
          mem := Memory.writeBlocks s.mem base.toNat (vs.take k) i
          accesses := s.accesses ++ writesOf base i k } := by
  induction k with
  | zero =>
    intro vs i s hk _ _ hf
    rw [Nat.add_zero] at hf ⊢
    obtain ⟨v, vs, rfl⟩ : ∃ v vs', vs = v :: vs' := by
      cases vs with
      | nil => exact absurd hk (Nat.not_lt_zero _)
      | cons v vs => exact ⟨v, vs, rfl⟩
    rw [memWriteBlocks, Cmd.bind_error (memWrite_refused (aligned16_blockAddr _ ha) hf)]
    simp [writesOf, Memory.writeBlocks]
  | succ k ih =>
    intro vs i s hk hr hm hf
    obtain ⟨v, vs, rfl⟩ : ∃ v vs', vs = v :: vs' := by
      cases vs with
      | nil => exact absurd hk (Nat.not_lt_zero _)
      | cons v vs => exact ⟨v, vs, rfl⟩
    rw [List.length_cons] at hk hr
    have hwrite : (memWrite (blockAddr base i) v).run s = .ok () (s.stored (blockAddr base i) v) :=
      memWrite_ok (aligned16_blockAddr _ ha) (by simpa using hm 0 (by omega))
    have e : i + (k + 1) = i + 1 + k := by omega
    rw [e] at hf
    have hrest := ih vs (i + 1) (s.stored (blockAddr base i) v) (by omega)
      (by unfold inRange at hr ⊢; omega)
      (fun j hj => by
        have := hm (j + 1) (by omega)
        rw [State.stored_memOK]
        rwa [Nat.add_comm j 1, ← Nat.add_assoc] at this) (by rw [State.stored_memOK]; exact hf)
    rw [memWriteBlocks, Cmd.bind_ok hwrite, hrest, e]
    simp only [State.stored, State.logged, writesOf, List.range'_succ, List.map_cons, List.append_assoc,
      List.singleton_append, List.take_succ_cons, Memory.writeBlocks,
      blockAddr_toNat_of_inRange hr (show i < i + (vs.length + 1) by omega)]

/-! KPLD and KPST -/

/-- KPLD when its checks pass and its reads are admitted (R124). -/
theorem loadKeys_ok {xa : XIdx} {s : State} (ha : aligned16 (s.scalar xa) = true) (hr : inRange (s.scalar xa) 8)
    (hm : s.admitsBlocks (s.scalar xa) 8 .read) :
    (loadKeys xa).run s = .ok ()
      (({ s with accesses := s.accesses ++ readsOf (s.scalar xa) 0 8 } : State).withKeys
        (Vector.ofFn fun i => s.messageBlock (s.scalar xa) i.val)) := by
  have hread := memReadBlocks_ok ha 8 0 s (by rwa [Nat.zero_add]) (fun j hj => by rw [Nat.zero_add]; exact hm j hj)
  rw [loadKeys, Cmd.bind_ok (readScalar_apply _ _), Cmd.bind_ok (checkAligned_ok ha s), Cmd.bind_ok (checkRange_ok hr s),
    Cmd.bind_ok hread, Cmd.modify_apply]
  congr 2

theorem loadKeys_misaligned {xa : XIdx} {s : State} (ha : aligned16 (s.scalar xa) = false) :
    (loadKeys xa).run s = .error ⟨.misaligned, s.scalar xa⟩ s := by
  rw [loadKeys, Cmd.bind_ok (readScalar_apply _ _), Cmd.bind_error (checkAligned_error ha s)]

theorem loadKeys_range {xa : XIdx} {s : State} (ha : aligned16 (s.scalar xa) = true) (hr : ¬ inRange (s.scalar xa) 8) :
    (loadKeys xa).run s = .error ⟨.addrRange, s.scalar xa⟩ s := by
  unfold inRange at hr
  rw [loadKeys, Cmd.bind_ok (readScalar_apply _ _), Cmd.bind_ok (checkAligned_ok ha s),
    Cmd.bind_error (checkRange_error (by omega) s)]

theorem loadKeys_refused {xa : XIdx} {s : State} {k : Nat} (hk : k < 8) (ha : aligned16 (s.scalar xa) = true)
    (hr : inRange (s.scalar xa) 8) (hm : s.admitsBlocks (s.scalar xa) k .read)
    (hf : s.memOK (blockAddr (s.scalar xa) k) .read = false) :
    (loadKeys xa).run s = .error ⟨.accessFault, blockAddr (s.scalar xa) k⟩
      { s with accesses := s.accesses ++ readsOf (s.scalar xa) 0 k } := by
  have hread := memReadBlocks_refused ha k 8 0 s hk (by rwa [Nat.zero_add]) (fun j hj => by rw [Nat.zero_add]; exact hm j hj)
    (by rwa [Nat.zero_add])
  rw [Nat.zero_add] at hread
  rw [loadKeys, Cmd.bind_ok (readScalar_apply _ _), Cmd.bind_ok (checkAligned_ok ha s), Cmd.bind_ok (checkRange_ok hr s),
    Cmd.bind_error hread]

/-- KPST when its checks pass and its writes are admitted (R125). -/
theorem storeKeys_ok {xa : XIdx} {s : State} (hv : s.status.kpv = true) (ha : aligned16 (s.scalar xa) = true)
    (hr : inRange (s.scalar xa) 8) (hm : s.admitsBlocks (s.scalar xa) 8 .write) :
    (storeKeys xa).run s = .ok ()
      { s with
        mem := Memory.writeBlocks s.mem (s.scalar xa).toNat s.kp.toList 0
        accesses := s.accesses ++ writesOf (s.scalar xa) 0 8 } := by
  have hl : s.kp.toList.length = 8 := by simp
  have hwrite := memWriteBlocks_ok ha s.kp.toList 0 s (by rwa [hl, Nat.zero_add])
    (fun j hj => by rw [Nat.zero_add]; exact hm j (by rwa [hl] at hj))
  rw [hl] at hwrite
  rw [storeKeys, Cmd.bind_ok (checkKeys_ok hv), Cmd.bind_ok (readScalar_apply _ _), Cmd.bind_ok (checkAligned_ok ha s),
    Cmd.bind_ok (checkRange_ok hr s), Cmd.bind_ok (Cmd.get_apply s), hwrite]

theorem storeKeys_keysInvalid {xa : XIdx} {s : State} (hv : s.status.kpv = false) :
    (storeKeys xa).run s = .error ⟨.keysInvalid, 0⟩ s := by
  rw [storeKeys, Cmd.bind_error (checkKeys_error hv)]

theorem storeKeys_misaligned {xa : XIdx} {s : State} (hv : s.status.kpv = true) (ha : aligned16 (s.scalar xa) = false) :
    (storeKeys xa).run s = .error ⟨.misaligned, s.scalar xa⟩ s := by
  rw [storeKeys, Cmd.bind_ok (checkKeys_ok hv), Cmd.bind_ok (readScalar_apply _ _), Cmd.bind_error (checkAligned_error ha s)]

theorem storeKeys_range {xa : XIdx} {s : State} (hv : s.status.kpv = true) (ha : aligned16 (s.scalar xa) = true)
    (hr : ¬ inRange (s.scalar xa) 8) : (storeKeys xa).run s = .error ⟨.addrRange, s.scalar xa⟩ s := by
  unfold inRange at hr
  rw [storeKeys, Cmd.bind_ok (checkKeys_ok hv), Cmd.bind_ok (readScalar_apply _ _), Cmd.bind_ok (checkAligned_ok ha s),
    Cmd.bind_error (checkRange_error (by omega) s)]

theorem storeKeys_refused {xa : XIdx} {s : State} {k : Nat} (hk : k < 8) (hv : s.status.kpv = true)
    (ha : aligned16 (s.scalar xa) = true) (hr : inRange (s.scalar xa) 8) (hm : s.admitsBlocks (s.scalar xa) k .write)
    (hf : s.memOK (blockAddr (s.scalar xa) k) .write = false) :
    (storeKeys xa).run s = .error ⟨.accessFault, blockAddr (s.scalar xa) k⟩
      { s with
        mem := Memory.writeBlocks s.mem (s.scalar xa).toNat (s.kp.toList.take k) 0
        accesses := s.accesses ++ writesOf (s.scalar xa) 0 k } := by
  have hl : s.kp.toList.length = 8 := by simp
  have hwrite := memWriteBlocks_refused ha k s.kp.toList 0 s (by rwa [hl]) (by rwa [hl, Nat.zero_add])
    (fun j hj => by rw [Nat.zero_add]; exact hm j hj) (by rwa [Nat.zero_add])
  rw [Nat.zero_add] at hwrite
  rw [storeKeys, Cmd.bind_ok (checkKeys_ok hv), Cmd.bind_ok (readScalar_apply _ _), Cmd.bind_ok (checkAligned_ok ha s),
    Cmd.bind_ok (checkRange_ok hr s), Cmd.bind_ok (Cmd.get_apply s), hwrite]

/-- KPLD's reads: either all are admitted, or one is the first refused. -/
theorem admitsBlocks_or_first (s : State) (base : Addr) (kind : AccessKind) (n : Nat) :
    s.admitsBlocks base n kind ∨
      ∃ k, k < n ∧ s.admitsBlocks base k kind ∧ s.memOK (blockAddr base k) kind = false := by
  induction n with
  | zero => exact .inl fun i hi => absurd hi (Nat.not_lt_zero i)
  | succ n ih =>
    rcases ih with h | ⟨k, hk, h1, h2⟩
    · cases hm : s.memOK (blockAddr base n) kind with
      | false => exact .inr ⟨n, Nat.lt_succ_self n, h, hm⟩
      | true =>
        refine .inl fun i hi => ?_
        rcases Nat.lt_succ_iff_lt_or_eq.mp hi with hlt | rfl
        · exact h i hlt
        · exact hm
    · exact .inr ⟨k, by omega, h1, h2⟩

/-! KEYEXP -/

theorem expandKey_ok {fs1 : FIdx} {s : State} (h : s.readable fs1 = true) :
    (expandKey fs1).run s = .ok () (s.withKeys (keyTable (s.field fs1))) := by
  rw [expandKey, Cmd.bind_ok (readField_ok h), Cmd.modify_apply]

theorem expandKey_keysInvalid {fs1 : FIdx} {s : State} (h : s.readable fs1 = false) :
    (expandKey fs1).run s = .error ⟨.keysInvalid, 0⟩ s := by
  rw [expandKey, Cmd.bind_error (readField_error h)]

/-- Entry k of the table of a raw key (R121). -/
theorem State.keyPower_withKeys (s : State) (t : Vector Block 8) {k : Nat} (h : k - 1 < 8) :
    (s.withKeys t).keyPower k = t[k - 1] := by
  rw [State.keyPower, dif_pos h]
  rfl

end Sys2Proof.Machine
end

