-- ==== Sys2Proof/Laws/Decode.lean ====
section
/-! SUPPORT. The decoder's table and the encoder's formats: which bits of an encoded word the rows and the field readers see. -/

namespace Sys2Proof

/-! Rows that disagree on a bit both of them fix select no common word (R85) -/

theorem DecodeRow.not_both {r q : DecodeRow} (h : (r.pat ^^^ q.pat) &&& (r.mask &&& q.mask) ≠ 0) (w : CmdWord) :
    ¬ (r.selects w = true ∧ q.selects w = true) := by
  rintro ⟨h1, h2⟩
  apply h
  simp only [DecodeRow.selects, beq_iff_eq] at h1 h2
  rw [← h1, ← h2]
  apply BitVec.eq_of_getLsbD_eq
  intro k _
  simp only [BitVec.getLsbD_and, BitVec.getLsbD_xor]
  cases w.getLsbD k <;> cases r.mask.getLsbD k <;> cases q.mask.getLsbD k <;> simp

/-- Any two rows of R78 disagree on a bit that both fix. -/
theorem decodeRows_conflict :
    decodeRows.Pairwise fun r q => (r.pat ^^^ q.pat) &&& (r.mask &&& q.mask) ≠ 0 := by decide +kernel

theorem find?_of_pairwise_not_both {α : Type} {p : α → Bool} {l : List α} {a : α}
    (h : l.Pairwise fun x y => ¬ (p x = true ∧ p y = true)) (ha : a ∈ l) (hp : p a = true) : l.find? p = some a := by
  induction l with
  | nil => cases ha
  | cons x l ih =>
    rw [List.pairwise_cons] at h
    rcases List.mem_cons.mp ha with rfl | ha
    · simp [hp]
    · have hx : p x = false := by
        cases hpx : p x with
        | false => rfl
        | true => exact absurd ⟨hpx, hp⟩ (h.1 a ha)
      simp [hx, ih h.2 ha]

/-- A row of the table that selects a word is the row the decoder finds (R85: table order does not matter). -/
theorem find_row {w : CmdWord} {r : DecodeRow} (hr : r ∈ decodeRows) (hs : r.selects w = true) :
    decodeRows.find? (fun r => r.selects w) = some r :=
  find?_of_pairwise_not_both (decodeRows_conflict.imp fun h => DecodeRow.not_both h w) hr hs

/-! The formats: the bits a row's mask sees -/

theorem encodeR3_masked (op : BitVec 8) (fd fs1 fs2 : FIdx) (sel : BitVec 2) :
    encodeR3 op fd fs1 fs2 sel &&& 0xFF000FFF = op ++ 0#12 ++ 0#10 ++ sel := by
  apply BitVec.eq_of_getLsbD_eq
  intro k hk
  simp only [encodeR3, BitVec.getLsbD_and, BitVec.getLsbD_append]
  interval_cases k <;> simp

theorem encodeR2_masked (op : BitVec 8) (fd fs1 : FIdx) : encodeR2 op fd fs1 &&& 0xFF00FFFF = op ++ 0#24 := by
  apply BitVec.eq_of_getLsbD_eq
  intro k hk
  simp only [encodeR2, BitVec.getLsbD_and, BitVec.getLsbD_append]
  interval_cases k <;> simp

theorem encodeR1_masked (op : BitVec 8) (fs1 : FIdx) : encodeR1 op fs1 &&& 0xFFF0FFFF = op ++ 0#24 := by
  apply BitVec.eq_of_getLsbD_eq
  intro k hk
  simp only [encodeR1, BitVec.getLsbD_and, BitVec.getLsbD_append]
  interval_cases k <;> simp

theorem encodeM_masked (op : BitVec 8) (f : FIdx) (xa : XIdx) : encodeM op f xa &&& 0xFF03FFFF = op ++ 0#24 := by
  apply BitVec.eq_of_getLsbD_eq
  intro k hk
  simp only [encodeM, BitVec.getLsbD_and, BitVec.getLsbD_append]
  interval_cases k <;> simp

theorem encodeX_masked3 (op : BitVec 8) (x1 x2 x3 : XIdx) : encodeX op x1 x2 x3 &&& 0xFF03FFFF = op ++ 0#24 := by
  apply BitVec.eq_of_getLsbD_eq
  intro k hk
  simp only [encodeX, BitVec.getLsbD_and, BitVec.getLsbD_append]
  interval_cases k <;> simp

theorem encodeX_masked2 (op : BitVec 8) (x1 x2 : XIdx) : encodeX op x1 x2 0 &&& 0xFF0FFFFF = op ++ 0#24 := by
  apply BitVec.eq_of_getLsbD_eq
  intro k hk
  simp only [encodeX, BitVec.getLsbD_and, BitVec.getLsbD_append]
  interval_cases k <;> simp

theorem encodeX_masked1 (op : BitVec 8) (x1 : XIdx) : encodeX op x1 0 0 &&& 0xFF3FFFFF = op ++ 0#24 := by
  apply BitVec.eq_of_getLsbD_eq
  intro k hk
  simp only [encodeX, BitVec.getLsbD_and, BitVec.getLsbD_append]
  interval_cases k <;> simp

theorem encodeI_masked (op : BitVec 8) (xd : XIdx) (hw : HalfwordIdx) (k : BitVec 1) (imm16 : BitVec 16) :
    encodeI op xd hw k imm16 &&& 0xFF0F0000 = op ++ 0#4 ++ k ++ 0#19 := by
  apply BitVec.eq_of_getLsbD_eq
  intro j hj
  simp only [encodeI, BitVec.getLsbD_and, BitVec.getLsbD_append]
  interval_cases j <;> simp

/-! The formats: the fields read back -/

theorem toFin_eq_of_bits {w : Nat} {v : BitVec w} {n : Fin (2 ^ w)} (h : ∀ k < w, v.getLsbD k = (BitVec.ofFin n).getLsbD k) :
    v.toFin = n :=
  congrArg BitVec.toFin (BitVec.eq_of_getLsbD_eq h)

theorem encodeR3_fields (op : BitVec 8) (fd fs1 fs2 : FIdx) (sel : BitVec 2) :
    fieldAt20 (encodeR3 op fd fs1 fs2 sel) = fd ∧ fieldAt16 (encodeR3 op fd fs1 fs2 sel) = fs1 ∧
      fieldAt12 (encodeR3 op fd fs1 fs2 sel) = fs2 := by
  refine ⟨toFin_eq_of_bits ?_, toFin_eq_of_bits ?_, toFin_eq_of_bits ?_⟩ <;> intro k hk <;>
    simp only [encodeR3, BitVec.getLsbD_extractLsb', BitVec.getLsbD_append] <;> interval_cases k <;> simp

theorem encodeR2_fields (op : BitVec 8) (fd fs1 : FIdx) :
    fieldAt20 (encodeR2 op fd fs1) = fd ∧ fieldAt16 (encodeR2 op fd fs1) = fs1 := by
  refine ⟨toFin_eq_of_bits ?_, toFin_eq_of_bits ?_⟩ <;> intro k hk <;>
    simp only [encodeR2, BitVec.getLsbD_extractLsb', BitVec.getLsbD_append] <;> interval_cases k <;> simp

theorem encodeR1_fields (op : BitVec 8) (fs1 : FIdx) : fieldAt16 (encodeR1 op fs1) = fs1 := by
  refine toFin_eq_of_bits ?_
  intro k hk
  simp only [encodeR1, BitVec.getLsbD_extractLsb', BitVec.getLsbD_append]
  interval_cases k <;> simp

theorem encodeM_fields (op : BitVec 8) (f : FIdx) (xa : XIdx) :
    fieldAt20 (encodeM op f xa) = f ∧ scalarAt18 (encodeM op f xa) = xa := by
  refine ⟨toFin_eq_of_bits ?_, toFin_eq_of_bits ?_⟩ <;> intro k hk <;>
    simp only [encodeM, BitVec.getLsbD_extractLsb', BitVec.getLsbD_append] <;> interval_cases k <;> simp

theorem encodeX_fields (op : BitVec 8) (x1 x2 x3 : XIdx) :
    scalarAt22 (encodeX op x1 x2 x3) = x1 ∧ scalarAt20 (encodeX op x1 x2 x3) = x2 ∧
      scalarAt18 (encodeX op x1 x2 x3) = x3 := by
  refine ⟨toFin_eq_of_bits ?_, toFin_eq_of_bits ?_, toFin_eq_of_bits ?_⟩ <;> intro k hk <;>
    simp only [encodeX, BitVec.getLsbD_extractLsb', BitVec.getLsbD_append] <;> interval_cases k <;> simp

theorem encodeI_fields (op : BitVec 8) (xd : XIdx) (hw : HalfwordIdx) (k : BitVec 1) (imm16 : BitVec 16) :
    scalarAt22 (encodeI op xd hw k imm16) = xd ∧ scalarAt20 (encodeI op xd hw k imm16) = hw ∧
      immAt0 (encodeI op xd hw k imm16) = imm16 := by
  refine ⟨toFin_eq_of_bits ?_, toFin_eq_of_bits ?_, BitVec.eq_of_getLsbD_eq ?_⟩ <;> intro j hj <;>
    simp only [immAt0, encodeI, BitVec.getLsbD_extractLsb', BitVec.getLsbD_append] <;> interval_cases j <;> simp

end Sys2Proof
end

