-- ==== Sys2Proof/Laws/Poly.lean ====
section
/-! SUPPORT. The data path as arithmetic of polynomials over GF(2): what each operation of Machine/Arith.lean does to the
polynomials its operands denote. -/

namespace Sys2Proof.Machine

open Polynomial

/-! The polynomial of a value -/

theorem poly_coeff {w : Nat} (v : BitVec w) (k : Nat) : (poly v).coeff k = if v.getLsbD k then 1 else 0 := by
  simp only [poly, finsetSum_coeff]
  by_cases hk : k < w
  · rw [Finset.sum_eq_single k]
    · split <;> simp
    · intro b _ hb
      split
      · simp [coeff_X_pow, Ne.symm hb]
      · simp
    · intro h
      simp [hk] at h
  · rw [Finset.sum_eq_zero]
    · simp [BitVec.getLsbD_of_ge v k (by omega)]
    · intro b hb
      have : k ≠ b := by
        simp at hb
        omega
      split
      · simp [coeff_X_pow, this]
      · simp

theorem poly_injective {w : Nat} {u v : BitVec w} (h : poly u = poly v) : u = v := by
  apply BitVec.eq_of_getLsbD_eq
  intro k _
  have hk := congrArg (fun p => p.coeff k) h
  simp only [poly_coeff] at hk
  cases hu : u.getLsbD k <;> cases hv : v.getLsbD k <;> simp [hu, hv] at hk <;> rfl

theorem poly_degree_lt {w : Nat} (v : BitVec w) : (poly v).degree < w := by
  rw [degree_lt_iff_coeff_zero]
  intro m hm
  simp [poly_coeff, BitVec.getLsbD_of_ge v m hm]

@[simp] theorem poly_zero {w : Nat} : poly (0#w) = 0 := by
  ext k
  simp [poly_coeff]

/-- Addition is exclusive or (R9, R16). -/
theorem poly_xor {w : Nat} (u v : BitVec w) : poly (u ^^^ v) = poly u + poly v := by
  ext k
  simp only [coeff_add, poly_coeff, BitVec.getLsbD_xor]
  cases u.getLsbD k <;> cases v.getLsbD k <;> simp
  decide

theorem poly_setWidth {w w' : Nat} (v : BitVec w) (h : w ≤ w') : poly (v.setWidth w') = poly v := by
  ext k
  simp only [poly_coeff, BitVec.getLsbD_setWidth]
  by_cases hk : k < w'
  · simp [hk]
  · simp [hk, BitVec.getLsbD_of_ge v k (by omega)]

/-- A shift that loses no bit multiplies by a power of x. -/
theorem poly_setWidth_shiftLeft (v : Half) {n : Nat} (hn : n ≤ 64) :
    poly (v.setWidth 128 <<< n : Block) = poly v * X ^ n := by
  ext k
  rw [coeff_mul_X_pow']
  simp only [poly_coeff, BitVec.getLsbD_shiftLeft, BitVec.getLsbD_setWidth]
  by_cases hk : n ≤ k
  · by_cases h128 : k < 128
    · have h1 : ¬ k < n := by omega
      have h2 : k - n < 128 := by omega
      simp [hk, h128, h1, h2]
    · have : 64 ≤ k - n := by omega
      simp [hk, h128, BitVec.getLsbD_of_ge v _ this]
  · have h1 : k < n := by omega
    simp [hk, h1]

theorem poly_append (u v : Half) : poly (u ++ v : Block) = poly u * X ^ 64 + poly v := by
  ext k
  rw [coeff_add, coeff_mul_X_pow']
  simp only [poly_coeff, BitVec.getLsbD_append]
  by_cases hk : k < 64
  · have : ¬ 64 ≤ k := by omega
    simp [hk, this]
  · have : 64 ≤ k := by omega
    simp [hk, this]

theorem hi_append_lo (v : Block) : (hi v ++ lo v : Block) = v := by
  apply BitVec.eq_of_getLsbD_eq
  intro k hk
  simp only [BitVec.getLsbD_append, hi, lo, BitVec.getLsbD_extractLsb']
  by_cases h : k < 64
  · simp [h]
  · have : k - 64 < 64 := by omega
    have h2 : 64 + (k - 64) = k := by omega
    simp [h, this, h2]

@[simp] theorem lo_append (u v : Half) : lo (u ++ v) = v := by
  apply BitVec.eq_of_getLsbD_eq
  intro k hk
  simp only [lo, BitVec.getLsbD_extractLsb', BitVec.getLsbD_append, Nat.zero_add, hk, decide_true, Bool.true_and, if_true]

@[simp] theorem hi_append (u v : Half) : hi (u ++ v) = u := by
  apply BitVec.eq_of_getLsbD_eq
  intro k hk
  have h1 : ¬ 64 + k < 64 := by omega
  have h2 : 64 + k - 64 = k := by omega
  simp only [hi, BitVec.getLsbD_extractLsb', BitVec.getLsbD_append, hk, h1, h2, decide_true, Bool.true_and, if_false]

theorem hi_xor (u v : Block) : hi (u ^^^ v) = hi u ^^^ hi v := by
  apply BitVec.eq_of_getLsbD_eq
  intro k hk
  simp [hi, hk]

theorem lo_xor (u v : Block) : lo (u ^^^ v) = lo u ^^^ lo v := by
  apply BitVec.eq_of_getLsbD_eq
  intro k hk
  simp [lo, hk]

@[simp] theorem hi_swap64 (v : Block) : hi (swap64 v) = lo v := hi_append _ _
@[simp] theorem lo_swap64 (v : Block) : lo (swap64 v) = hi v := lo_append _ _

/-- A Block is its halves (R11). -/
theorem poly_halves (v : Block) : poly v = poly (hi v) * X ^ 64 + poly (lo v) := by
  conv_lhs => rw [← hi_append_lo v]
  exact poly_append _ _

theorem poly_swap64 (v : Block) : poly (swap64 v) = poly (lo v) * X ^ 64 + poly (hi v) := poly_append _ _

theorem poly_shl64 (v : Block) : poly (shl64 v) = poly (lo v) * X ^ 64 := by simp [shl64, poly_append]

theorem poly_shr64 (v : Block) : poly (shr64 v) = poly (hi v) := by simp [shr64, poly_append]

/-! The multiplier -/

theorem poly_clmulLow (a b : Half) {n : Nat} (hn : n ≤ 64) :
    poly (clmulLow a b n) = poly a * ∑ i ∈ Finset.range n, if b.getLsbD i then (X : (ZMod 2)[X]) ^ i else 0 := by
  induction n with
  | zero => simp [clmulLow]
  | succ n ih =>
    rw [clmulLow, poly_xor, ih (by omega), Finset.sum_range_succ, mul_add]
    rw [add_right_inj]
    split
    · exact poly_setWidth_shiftLeft a (by omega)
    · simp

/-- `clmul64` multiplies polynomials (R14). -/
theorem poly_clmul64 (a b : Half) : poly (clmul64 a b) = poly a * poly b := by
  have hb : poly b = ∑ i ∈ Finset.range 64, if b.getLsbD i then (X : (ZMod 2)[X]) ^ i else 0 := by unfold poly; rfl
  rw [clmul64, poly_clmulLow a b (Nat.le_refl 64), hb]

/-- Twice anything is zero over GF(2). -/
theorem add_self_poly (p : (ZMod 2)[X]) : p + p = 0 := CharTwo.add_self_eq_zero p

/-- `clmul128` multiplies polynomials (R15). -/
theorem poly_clmul128 (a b : Block) :
    poly (clmul128 a b).ph * X ^ 128 + poly (clmul128 a b).pl = poly a * poly b := by
  simp only [clmul128, poly_xor, poly_shr64, poly_shl64, poly_clmul64]
  have hm := poly_halves (clmul64 (lo a) (hi b) ^^^ clmul64 (hi a) (lo b))
  rw [poly_xor, poly_clmul64, poly_clmul64] at hm
  rw [poly_halves a, poly_halves b]
  linear_combination (-(X : (ZMod 2)[X]) ^ 64) * hm

/-! Reduction -/

theorem poly_g64 : poly Config.g64 = X ^ 63 + X ^ 62 + X ^ 57 := by
  ext k
  simp only [poly_coeff, coeff_add, coeff_X_pow]
  by_cases hk : k < 64
  · have bits : ∀ k : Fin 64, Config.g64.getLsbD k.val = (k.val == 63 || k.val == 62 || k.val == 57) := by decide
    rw [show Config.g64.getLsbD k = _ from bits ⟨k, hk⟩]
    by_cases h1 : k = 63
    · simp [h1]
    · by_cases h2 : k = 62
      · simp [h2]
      · by_cases h3 : k = 57 <;> simp [h1, h2, h3]
  · have h1 : k ≠ 63 := by omega
    have h2 : k ≠ 62 := by omega
    have h3 : k ≠ 57 := by omega
    simp [h1, h2, h3, BitVec.getLsbD_of_ge _ k (Nat.le_of_not_lt hk)]

theorem lo_gstar : lo Config.gstar = Config.g64 := lo_append _ _
theorem hi_gstar : hi Config.gstar = Config.g64 := hi_append _ _

/-- P = x^128 + g*·x^64 + 1 (R102; spec/90_conflicts.md C4). -/
theorem polyP_eq : polyP = X ^ 128 + poly Config.g64 * X ^ 64 + 1 := by
  unfold polyP
  linear_combination (-(X : (ZMod 2)[X]) ^ 64) * poly_g64

/-- `reduce` takes away a multiple of P and divides by x^128 (R102). -/
theorem poly_reduce (p : Partial) :
    ∃ q : (ZMod 2)[X], poly (reduce p) * X ^ 128 = poly p.ph * X ^ 128 + poly p.pl + q * polyP := by
  obtain ⟨ph, pl⟩ := p
  set t := clmul64 (lo Config.gstar) (lo pl) with ht
  have hT : poly (hi t) * X ^ 64 + poly (lo t) = poly Config.g64 * poly (lo pl) := by
    rw [← poly_halves, ht, poly_clmul64, lo_gstar]
  set pl2 := pl ^^^ swap64 t with hpl2
  have hPL2 : poly pl2 = poly pl + (poly (lo t) * X ^ 64 + poly (hi t)) := by rw [hpl2, poly_xor, poly_swap64]
  have hL2 : poly (hi pl2) = poly (hi pl) + poly (lo t) := by
    rw [hpl2, hi_xor, poly_xor, hi_swap64]
  have hR : poly (reduce ⟨ph, pl⟩) = poly ph + (poly pl2 + poly Config.g64 * poly (hi pl2)) := by
    show poly (ph ^^^ (pl2 ^^^ clmul64 (hi Config.gstar) (hi pl2))) = _
    rw [poly_xor, poly_xor, poly_clmul64, hi_gstar]
  have hV := poly_halves pl
  refine ⟨poly (lo pl) + poly (hi pl2) * X ^ 64, ?_⟩
  rw [hR, hPL2, hL2, polyP_eq]
  have two : ∀ p : (ZMod 2)[X], 2 * p = 0 := fun p => by rw [two_mul, add_self_poly]
  have h2 : (2 : (ZMod 2)[X]) = 0 := by simpa using two 1
  linear_combination (-(X : (ZMod 2)[X]) ^ 64) * hT + (X ^ 128 - 1) * hV +
    (poly (hi t) * X ^ 128 - poly (hi pl) * X ^ 64 - poly Config.g64 * poly (lo pl) * X ^ 64 - poly (lo pl)) * h2
end Sys2Proof.Machine
end

