-- ==== Sys2Proof/Laws/Field.lean ====
section
/-! SUPPORT. The data path in GF(2^128): a Block is determined by the element it denotes, and what `reduce` and `blockMul` do to the
elements. -/

namespace Sys2Proof.Machine

open Polynomial

theorem polyP_natDegree : polyP.natDegree = 128 := by
  unfold polyP
  compute_degree!

theorem polyP_monic : polyP.Monic := by
  unfold polyP
  monicity!

theorem polyP_degree : polyP.degree = (128 : Nat) :=
  (degree_eq_iff_natDegree_eq polyP_monic.ne_zero).mpr polyP_natDegree

/-- Two Blocks that denote one element are equal (R16: degree below 128). -/
theorem elem_injective {u v : Block} (h : elem u = elem v) : u = v := by
  apply poly_injective
  have hd : polyP ∣ poly u - poly v := by
    unfold elem at h
    exact AdjoinRoot.mk_eq_mk.mp h
  have hlt : (poly u - poly v).degree < polyP.degree := by
    refine lt_of_lt_of_eq ?_ polyP_degree.symm
    exact lt_of_le_of_lt (degree_sub_le _ _) (max_lt (poly_degree_lt u) (poly_degree_lt v))
  exact sub_eq_zero.mp (eq_zero_of_dvd_of_degree_lt hd hlt)

theorem elem_xor (u v : Block) : elem (u ^^^ v) = elem u + elem v := by simp only [elem, poly_xor, map_add]

@[simp] theorem elem_zero : elem 0#128 = 0 := by simp [elem]

theorem mk_polyP_mul (q : (ZMod 2)[X]) : AdjoinRoot.mk polyP (q * polyP) = 0 := by
  rw [map_mul, AdjoinRoot.mk_self, mul_zero]

theorem mk_X_pow (n : Nat) : AdjoinRoot.mk polyP (X ^ n) = fieldX ^ n := by
  rw [map_pow, AdjoinRoot.mk_X, fieldX]

/-- `reduce` divides by x^128 in the field (R102). -/
theorem elem_reduce_mul (p : Partial) : elem (reduce p) * fieldX ^ 128 = elem p.ph * fieldX ^ 128 + elem p.pl := by
  obtain ⟨q, hq⟩ := poly_reduce p
  have := congrArg (AdjoinRoot.mk polyP) hq
  simpa only [map_mul, map_add, mk_X_pow, AdjoinRoot.mk_self, mul_zero, add_zero, elem] using this

theorem reduce_zero_one : reduce ⟨0, 1⟩ = 0x92040000000000000000000000000001 := by decide +kernel

theorem poly_one {w : Nat} (h : 0 < w) : poly (1#w) = 1 := by
  ext k
  simp only [poly_coeff, BitVec.getLsbD_one, coeff_one]
  by_cases hk : k = 0
  · simp [hk, h]
  · simp [hk]

/-- x^-128 is the inverse of x^128 (R16). -/
theorem xInv128_mul : xInv128 * fieldX ^ 128 = 1 := by
  have h := elem_reduce_mul ⟨0, 1⟩
  rw [reduce_zero_one] at h
  have h1 : elem 1#128 = 1 := by simp [elem, poly_one]
  change xInv128 * fieldX ^ 128 = elem 0#128 * fieldX ^ 128 + elem 1#128 at h
  rw [h, h1, elem_zero, zero_mul, zero_add]

/-- `reduce` in the field: PH plus PL·x^-128 (R102). -/
theorem elem_reduce (p : Partial) : elem (reduce p) = elem p.ph + elem p.pl * xInv128 := by
  have h := congrArg (· * xInv128) (elem_reduce_mul p)
  have hx := xInv128_mul
  linear_combination h + (elem p.ph - elem (reduce p)) * hx

/-- `clmul128` in the field (R15, R16). -/
theorem elem_clmul128 (a b : Block) :
    elem (clmul128 a b).ph * fieldX ^ 128 + elem (clmul128 a b).pl = elem a * elem b := by
  have := congrArg (AdjoinRoot.mk polyP) (poly_clmul128 a b)
  simpa only [map_mul, map_add, mk_X_pow, elem] using this

/-- `BlockMul` in the field: A·B·x^-128 (R110). -/
theorem elem_blockMul (a b : Block) : elem (blockMul a b) = elem a * elem b * xInv128 := by
  rw [blockMul, elem_reduce]
  linear_combination xInv128 * elem_clmul128 a b - elem (clmul128 a b).ph * xInv128_mul

/-- `reduce` is linear (R105). -/
theorem reduce_xor (p q : Partial) : reduce (p.xor q) = reduce p ^^^ reduce q := by
  apply elem_injective
  rw [elem_xor, elem_reduce, elem_reduce, elem_reduce, Partial.xor, elem_xor, elem_xor]
  ring

@[simp] theorem reduce_zero : reduce ⟨0#128, 0#128⟩ = 0#128 := by decide +kernel

end Sys2Proof.Machine
end

