-- ==== Sys2Proof/Laws/PerInstr.lean ====
section
/-! SUPPORT. Per-command laws of the encoding. The family RowOfEncoding: the word of a command is selected by a row of the decoder's
table that builds the command back (spec/30_encoding.md R78). -/

namespace Sys2Proof.Laws

/-- A row of the table selects the command's word and builds the command from it. -/
def RowOfEncoding.Statement (i : Instr) : Prop :=
  ∃ r, r ∈ decodeRows ∧ r.selects (encode i) = true ∧ r.build (encode i) = i

theorem RowOfEncoding.xor (fd fs1 fs2 : FIdx) : RowOfEncoding.Statement (.xor fd fs1 fs2) := by
  refine ⟨⟨0x01000000, 0xFF000FFF, fun w => .xor (fieldAt20 w) (fieldAt16 w) (fieldAt12 w)⟩, ?_, ?_, ?_⟩
  · simp [decodeRows, decodeRowsFieldOps, decodeRowsOther]
  · exact beq_iff_eq.mpr ((encodeR3_masked _ _ _ _ _).trans rfl)
  · simp [encode, encodeR3_fields]

theorem RowOfEncoding.clmulLL (fd fs1 fs2 : FIdx) : RowOfEncoding.Statement (.clmulLL fd fs1 fs2) := by
  refine ⟨⟨0x02000000, 0xFF000FFF, fun w => .clmulLL (fieldAt20 w) (fieldAt16 w) (fieldAt12 w)⟩, ?_, ?_, ?_⟩
  · simp [decodeRows, decodeRowsFieldOps, decodeRowsOther]
  · exact beq_iff_eq.mpr ((encodeR3_masked _ _ _ _ _).trans rfl)
  · simp [encode, encodeR3_fields]

theorem RowOfEncoding.clmulLH (fd fs1 fs2 : FIdx) : RowOfEncoding.Statement (.clmulLH fd fs1 fs2) := by
  refine ⟨⟨0x02000001, 0xFF000FFF, fun w => .clmulLH (fieldAt20 w) (fieldAt16 w) (fieldAt12 w)⟩, ?_, ?_, ?_⟩
  · simp [decodeRows, decodeRowsFieldOps, decodeRowsOther]
  · exact beq_iff_eq.mpr ((encodeR3_masked _ _ _ _ _).trans rfl)
  · simp [encode, encodeR3_fields]

theorem RowOfEncoding.clmulHL (fd fs1 fs2 : FIdx) : RowOfEncoding.Statement (.clmulHL fd fs1 fs2) := by
  refine ⟨⟨0x02000002, 0xFF000FFF, fun w => .clmulHL (fieldAt20 w) (fieldAt16 w) (fieldAt12 w)⟩, ?_, ?_, ?_⟩
  · simp [decodeRows, decodeRowsFieldOps, decodeRowsOther]
  · exact beq_iff_eq.mpr ((encodeR3_masked _ _ _ _ _).trans rfl)
  · simp [encode, encodeR3_fields]

theorem RowOfEncoding.clmulHH (fd fs1 fs2 : FIdx) : RowOfEncoding.Statement (.clmulHH fd fs1 fs2) := by
  refine ⟨⟨0x02000003, 0xFF000FFF, fun w => .clmulHH (fieldAt20 w) (fieldAt16 w) (fieldAt12 w)⟩, ?_, ?_, ?_⟩
  · simp [decodeRows, decodeRowsFieldOps, decodeRowsOther]
  · exact beq_iff_eq.mpr ((encodeR3_masked _ _ _ _ _).trans rfl)
  · simp [encode, encodeR3_fields]

theorem RowOfEncoding.swap64 (fd fs1 : FIdx) : RowOfEncoding.Statement (.swap64 fd fs1) := by
  refine ⟨⟨0x03000000, 0xFF00FFFF, fun w => .swap64 (fieldAt20 w) (fieldAt16 w)⟩, ?_, ?_, ?_⟩
  · simp [decodeRows, decodeRowsFieldOps, decodeRowsOther]
  · exact beq_iff_eq.mpr ((encodeR2_masked _ _ _).trans rfl)
  · simp [encode, encodeR2_fields]

theorem RowOfEncoding.shl64 (fd fs1 : FIdx) : RowOfEncoding.Statement (.shl64 fd fs1) := by
  refine ⟨⟨0x04000000, 0xFF00FFFF, fun w => .shl64 (fieldAt20 w) (fieldAt16 w)⟩, ?_, ?_, ?_⟩
  · simp [decodeRows, decodeRowsFieldOps, decodeRowsOther]
  · exact beq_iff_eq.mpr ((encodeR2_masked _ _ _).trans rfl)
  · simp [encode, encodeR2_fields]

theorem RowOfEncoding.shr64 (fd fs1 : FIdx) : RowOfEncoding.Statement (.shr64 fd fs1) := by
  refine ⟨⟨0x05000000, 0xFF00FFFF, fun w => .shr64 (fieldAt20 w) (fieldAt16 w)⟩, ?_, ?_, ?_⟩
  · simp [decodeRows, decodeRowsFieldOps, decodeRowsOther]
  · exact beq_iff_eq.mpr ((encodeR2_masked _ _ _).trans rfl)
  · simp [encode, encodeR2_fields]

theorem RowOfEncoding.reduce (fd fph fpl : FIdx) : RowOfEncoding.Statement (.reduce fd fph fpl) := by
  refine ⟨⟨0x06000000, 0xFF000FFF, fun w => .reduce (fieldAt20 w) (fieldAt16 w) (fieldAt12 w)⟩, ?_, ?_, ?_⟩
  · simp [decodeRows, decodeRowsFieldOps, decodeRowsOther]
  · exact beq_iff_eq.mpr ((encodeR3_masked _ _ _ _ _).trans rfl)
  · simp [encode, encodeR3_fields]

theorem RowOfEncoding.bmul (fd fs1 fs2 : FIdx) : RowOfEncoding.Statement (.bmul fd fs1 fs2) := by
  refine ⟨⟨0x10000000, 0xFF000FFF, fun w => .bmul (fieldAt20 w) (fieldAt16 w) (fieldAt12 w)⟩, ?_, ?_, ?_⟩
  · simp [decodeRows, decodeRowsFieldOps, decodeRowsOther]
  · exact beq_iff_eq.mpr ((encodeR3_masked _ _ _ _ _).trans rfl)
  · simp [encode, encodeR3_fields]

theorem RowOfEncoding.blockmul (xa xb : XIdx) : RowOfEncoding.Statement (.blockmul xa xb) := by
  refine ⟨⟨0x11000000, 0xFF0FFFFF, fun w => .blockmul (scalarAt22 w) (scalarAt20 w)⟩, ?_, ?_, ?_⟩
  · simp [decodeRows, decodeRowsFieldOps, decodeRowsOther]
  · exact beq_iff_eq.mpr ((encodeX_masked2 _ _ _).trans rfl)
  · simp [encode, encodeX_fields]

theorem RowOfEncoding.keyexp (fs1 : FIdx) : RowOfEncoding.Statement (.keyexp fs1) := by
  refine ⟨⟨0x20000000, 0xFFF0FFFF, fun w => .keyexp (fieldAt16 w)⟩, ?_, ?_, ?_⟩
  · simp [decodeRows, decodeRowsFieldOps, decodeRowsOther]
  · exact beq_iff_eq.mpr ((encodeR1_masked _ _).trans rfl)
  · simp [encode, encodeR1_fields]

theorem RowOfEncoding.kpld (xa : XIdx) : RowOfEncoding.Statement (.kpld xa) := by
  refine ⟨⟨0x21000000, 0xFF3FFFFF, fun w => .kpld (scalarAt22 w)⟩, ?_, ?_, ?_⟩
  · simp [decodeRows, decodeRowsFieldOps, decodeRowsOther]
  · exact beq_iff_eq.mpr ((encodeX_masked1 _ _).trans rfl)
  · simp [encode, encodeX_fields]

theorem RowOfEncoding.kpst (xa : XIdx) : RowOfEncoding.Statement (.kpst xa) := by
  refine ⟨⟨0x22000000, 0xFF3FFFFF, fun w => .kpst (scalarAt22 w)⟩, ?_, ?_, ?_⟩
  · simp [decodeRows, decodeRowsFieldOps, decodeRowsOther]
  · exact beq_iff_eq.mpr ((encodeX_masked1 _ _).trans rfl)
  · simp [encode, encodeX_fields]

theorem RowOfEncoding.kpclr : RowOfEncoding.Statement (.kpclr) := by
  refine ⟨⟨0x23000000, 0xFFFFFFFF, fun _ => .kpclr⟩, ?_, ?_, ?_⟩
  · simp [decodeRows, decodeRowsFieldOps, decodeRowsOther]
  · decide
  · rfl

theorem RowOfEncoding.update (xin xn xacc : XIdx) : RowOfEncoding.Statement (.update xin xn xacc) := by
  refine ⟨⟨0x30000000, 0xFF03FFFF, fun w => .update (scalarAt22 w) (scalarAt20 w) (scalarAt18 w)⟩, ?_, ?_, ?_⟩
  · simp [decodeRows, decodeRowsFieldOps, decodeRowsOther]
  · exact beq_iff_eq.mpr ((encodeX_masked3 _ _ _ _).trans rfl)
  · simp [encode, encodeX_fields]

theorem RowOfEncoding.ldb (fd : FIdx) (xa : XIdx) : RowOfEncoding.Statement (.ldb fd xa) := by
  refine ⟨⟨0x40000000, 0xFF03FFFF, fun w => .ldb (fieldAt20 w) (scalarAt18 w)⟩, ?_, ?_, ?_⟩
  · simp [decodeRows, decodeRowsFieldOps, decodeRowsOther]
  · exact beq_iff_eq.mpr ((encodeM_masked _ _ _).trans rfl)
  · simp [encode, encodeM_fields]

theorem RowOfEncoding.stb (fs : FIdx) (xa : XIdx) : RowOfEncoding.Statement (.stb fs xa) := by
  refine ⟨⟨0x41000000, 0xFF03FFFF, fun w => .stb (fieldAt20 w) (scalarAt18 w)⟩, ?_, ?_, ?_⟩
  · simp [decodeRows, decodeRowsFieldOps, decodeRowsOther]
  · exact beq_iff_eq.mpr ((encodeM_masked _ _ _).trans rfl)
  · simp [encode, encodeM_fields]

theorem RowOfEncoding.setxz (xd : XIdx) (hw : HalfwordIdx) (imm16 : BitVec 16) : RowOfEncoding.Statement (.setxz xd hw imm16) := by
  refine ⟨⟨0x42000000, 0xFF0F0000, fun w => .setxz (scalarAt22 w) (scalarAt20 w) (immAt0 w)⟩, ?_, ?_, ?_⟩
  · simp [decodeRows, decodeRowsFieldOps, decodeRowsOther]
  · exact beq_iff_eq.mpr ((encodeI_masked _ _ _ _ _).trans rfl)
  · simp [encode, encodeI_fields]

theorem RowOfEncoding.setxk (xd : XIdx) (hw : HalfwordIdx) (imm16 : BitVec 16) : RowOfEncoding.Statement (.setxk xd hw imm16) := by
  refine ⟨⟨0x42080000, 0xFF0F0000, fun w => .setxk (scalarAt22 w) (scalarAt20 w) (immAt0 w)⟩, ?_, ?_, ?_⟩
  · simp [decodeRows, decodeRowsFieldOps, decodeRowsOther]
  · exact beq_iff_eq.mpr ((encodeI_masked _ _ _ _ _).trans rfl)
  · simp [encode, encodeI_fields]

end Sys2Proof.Laws
end

