-- ==== Sys2Proof/Laws/Streamer.lean ====
section
/-! SUPPORT. The phase machine of UPDATE (spec/43_streamer.md R145–R152): what each phase does when its accesses go through, and what
the whole run leaves. -/

namespace Sys2Proof.Machine

/-! Small steps -/

@[simp] theorem modifyStreamer_apply (g : Streamer → Streamer) (s : State) :
    (modifyStreamer g).run s = .ok () { s with streamer := g s.streamer } := rfl

@[simp] theorem toPhase_apply (p : Phase) (s : State) :
    (toPhase p).run s = .ok () { s with streamer := { s.streamer with phase := p } } := rfl

@[simp] theorem setS_apply (v : Block) (s : State) : (setS v).run s = .ok () { s with accS := v } := rfl

@[simp] theorem clearPartial_apply (s : State) :
    clearPartial.run s = .ok () { s with streamer := { s.streamer with ph := 0, pl := 0 } } := rfl

@[simp] theorem accumulate_apply (p : Partial) (s : State) :
    (accumulate p).run s = .ok () { s with streamer := { s.streamer with ph := s.streamer.ph ^^^ p.ph, pl := s.streamer.pl ^^^ p.pl } } :=
  rfl

@[simp] theorem consume_apply (r : Nat) (s : State) :
    (consume r).run s = .ok ()
      { s with
        streamer :=
          { s.streamer with
            ptr := s.streamer.ptr + BitVec.ofNat 64 (16 * r), rem := s.streamer.rem - BitVec.ofNat 64 r } } := rfl

@[simp] theorem enterPhase_apply (s : State) :
    enterPhase.run s = .ok s.streamer.phase { s with phases := s.phases ++ [s.streamer.phase] } := rfl

@[simp] theorem releaseStreamer_apply (s : State) :
    releaseStreamer.run s = .ok () { s with streamer := Streamer.released s.free, free := s.free + 1 } := rfl

/-- A phase other than DONE whose rule goes through is followed by the next (R145). -/
theorem runPhases_phase {xin xn xacc : XIdx} {fuel : Nat} {s s' : State} (hp : s.streamer.phase ≠ .done)
    (h : (phaseRule xin xn xacc s.streamer.phase).run { s with phases := s.phases ++ [s.streamer.phase] } = .ok () s') :
    (runPhases xin xn xacc (fuel + 1)).run s = (runPhases xin xn xacc fuel).run s' := by
  rw [runPhases, Cmd.bind_ok (enterPhase_apply s), if_neg hp, Cmd.bind_ok h]

/-- DONE ends the run (R152). -/
theorem runPhases_done {xin xn xacc : XIdx} {fuel : Nat} {s : State} (hp : s.streamer.phase = .done) :
    (runPhases xin xn xacc (fuel + 1)).run s = .ok () { s with phases := s.phases ++ [.done] } := by
  rw [runPhases, Cmd.bind_ok (enterPhase_apply s), if_pos hp, Cmd.pure_apply, hp]

/-! Groups of blocks -/

theorem blockAddr_blockAddr {input : Addr} {b j : Nat} (h : input.toNat + 16 * b < 2 ^ 64) :
    blockAddr (blockAddr input b) j = blockAddr input (b + j) := by
  unfold blockAddr
  rw [BitVec.toNat_ofNat, Nat.mod_eq_of_lt h]
  congr 1
  ring

theorem blockAddr_add (input : Addr) (b r : Nat) : blockAddr input b + BitVec.ofNat 64 (16 * r) = blockAddr input (b + r) := by
  unfold blockAddr
  rw [← BitVec.ofNat_add]
  congr 1
  ring

/-- `absorb` when every read goes through: the products are accumulated and nothing else is written (R147, R149). -/
theorem absorb_ok {input : Addr} {b r : Nat} (ha : aligned16 input = true) (n : Nat) :
    ∀ (j : Nat) (s : State), s.streamer.ptr = blockAddr input b → inRange input (b + j + n) → input.toNat + 16 * b < 2 ^ 64 →
      (∀ i, i < n → s.memOK (blockAddr input (b + j + i)) .read = true) →
      (absorb r n j).run s = .ok ()
        { s with
          accesses := s.accesses ++ readsOf input (b + j) n
          streamer :=
            { s.streamer with
              ph := s.streamer.ph ^^^ (groupSum s.keyPower r s.accS (fun i => s.messageBlock input (b + i)) n j).ph
              pl := s.streamer.pl ^^^ (groupSum s.keyPower r s.accS (fun i => s.messageBlock input (b + i)) n j).pl } } := by
  induction n with
  | zero =>
    intro j s _ _ _ _
    simp [absorb, readsOf, groupSum]
  | succ n ih =>
    intro j s hp hr hb hm
    have hr' : input.toNat + 16 * (b + j + (n + 1)) ≤ 2 ^ 64 := hr
    have hlt : input.toNat + 16 * (b + j) < 2 ^ 64 := by omega
    have haddr : blockAddr s.streamer.ptr j = blockAddr input (b + j) := by rw [hp, blockAddr_blockAddr hb]
    have hread : (memRead (blockAddr s.streamer.ptr j)).run s =
        .ok (s.messageBlock input (b + j)) (s.logged .read (blockAddr input (b + j))) := by
      rw [haddr, memRead_ok (aligned16_blockAddr _ ha) (by simpa using hm 0 (by omega)), State.messageBlock, blockAddr_toNat hlt]
    rw [absorb, Cmd.bind_ok (Cmd.get_apply s), Cmd.bind_ok hread, Cmd.bind_ok (accumulate_apply _ _),
      ih (j + 1) _ (by simpa using hp) (by unfold inRange; omega) hb ?_]
    · simp only [State.logged, groupSum, Partial.xor, readsOf, List.range'_succ, List.map_cons, List.append_assoc,
        List.singleton_append, State.messageBlock, BitVec.xor_assoc]
      rfl
    · intro i hi
      have := hm (i + 1) (by omega)
      have e : b + j + (i + 1) = b + (j + 1) + i := by omega
      rw [e] at this
      exact this

/-! The stride phases -/

theorem zero_xor_block (v : Block) : 0 ^^^ v = v := BitVec.zero_xor

/-- What a stride leaves in the Streamer: the sum as the current and the pending product, eight blocks consumed (R149). -/
def Streamer.afterStride (st : Streamer) (p : Partial) (ptr' : Addr) : Streamer :=
  { st with
    ph := p.ph, pl := p.pl, qh := p.ph, ql := p.pl, pend := true, ptr := ptr', rem := st.rem - 8
    phase := if 8 ≤ (st.rem - 8).toNat then .strideInterleaved else .finalize }

/-- A stride when its eight reads go through (R149, R150). -/
theorem stride_ok {input : Addr} {b : Nat} (ha : aligned16 input = true) {s : State}
    (hp : s.streamer.ptr = blockAddr input b) (hr : inRange input (b + 8))
    (hm : ∀ i, i < 8 → s.memOK (blockAddr input (b + i)) .read = true) :
    stride.run s = .ok ()
      { s with
        accesses := s.accesses ++ readsOf input b 8
        streamer := s.streamer.afterStride
          (groupSum s.keyPower 8 s.accS (fun i => s.messageBlock input (b + i)) 8 0) (blockAddr input (b + 8)) } := by
  have hr' : input.toNat + 16 * (b + 8) ≤ 2 ^ 64 := hr
  rw [stride, Cmd.bind_ok (clearPartial_apply s)]
  refine (Cmd.bind_ok (absorb_ok (b := b) (r := 8) ha 8 0 _ ?_ ?_ ?_ ?_)).trans ?_
  · exact hp
  · exact hr
  · omega
  · exact hm
  · rw [Cmd.bind_ok (modifyStreamer_apply _ _), Cmd.bind_ok (consume_apply _ _), Cmd.bind_ok (Cmd.get_apply _), toPhase_apply]
    simp only [Streamer.afterStride, strideLeft, hp, blockAddr_add, Nat.add_zero, zero_xor_block, decide_eq_true_eq]
    rfl

theorem sub_eight_toNat {r : Addr} (h : 8 ≤ r.toNat) : (r - 8).toNat = r.toNat - 8 := by
  have : (8 : Addr).toNat ≤ r.toNat := h
  rw [BitVec.toNat_sub_of_le (by simpa [BitVec.le_def] using this)]
  rfl

/-- The value of the strides from block `b` on, the first one taken off. -/
theorem strideValue_succ_first (key : Nat → Block) (acc : Block) (m : Nat → Block) (b q : Nat) :
    strideValue key acc m b (q + 1) =
      strideValue key (groupValue key 8 acc fun j => m (b + j)) m (b + 8) q := by
  induction q with
  | zero => simp [strideValue]
  | succ q ih =>
    rw [strideValue, ih]
    conv_rhs => rw [strideValue]
    congr 1
    funext j
    congr 1
    ring

/-- Reads of two runs of blocks, one after the other. -/
theorem readsOf_append (input : Addr) (b n k : Nat) : readsOf input b n ++ readsOf input (b + n) k = readsOf input b (n + k) := by
  rw [readsOf, readsOf, readsOf, ← List.map_append, List.range'_append_1]

/-- FINALIZE and DONE (R151, R152). -/
theorem runPhases_finalize {xin xn xacc : XIdx} {fuel : Nat} {s : State} (hp : s.streamer.phase = .finalize)
    (hacc : aligned16 s.streamer.acca = true) (hw : s.memOK s.streamer.acca .write = true) :
    ∃ st, (runPhases xin xn xacc (fuel + 2)).run s = .ok ()
      { s with
        accS := reduce ⟨s.streamer.qh, s.streamer.ql⟩
        mem := Memory.writeBlock s.mem s.streamer.acca.toNat (reduce ⟨s.streamer.qh, s.streamer.ql⟩)
        accesses := s.accesses ++ [⟨.write, s.streamer.acca⟩]
        phases := s.phases ++ [.finalize, .done]
        streamer := st } := by
  have hf : (phaseRule xin xn xacc s.streamer.phase).run { s with phases := s.phases ++ [s.streamer.phase] } = .ok ()
      { s with
        accS := reduce ⟨s.streamer.qh, s.streamer.ql⟩
        mem := Memory.writeBlock s.mem s.streamer.acca.toNat (reduce ⟨s.streamer.qh, s.streamer.ql⟩)
        accesses := s.accesses ++ [⟨.write, s.streamer.acca⟩]
        phases := s.phases ++ [.finalize]
        streamer := { s.streamer with pend := false, phase := .done } } := by
    rw [hp, phaseRule, phaseFinalize, Cmd.bind_ok (Cmd.get_apply _), Cmd.bind_ok (setS_apply _ _),
      Cmd.bind_ok (modifyStreamer_apply _ _)]
    refine (Cmd.bind_ok (memWrite_ok ?_ ?_)).trans ?_
    · exact hacc
    · exact hw
    · rw [toPhase_apply]
      simp only [State.stored, State.logged]
  refine ⟨{ s.streamer with pend := false, phase := .done }, ?_⟩
  rw [runPhases_phase (by simp [hp]) hf, runPhases_done rfl]
  simp only [List.append_assoc, List.cons_append, List.nil_append]

/-- STRIDE_INTERLEAVED over the last `q + 1` strides, then FINALIZE and DONE (R150–R152). -/
theorem runPhases_interleaved {xin xn xacc : XIdx} {input : Addr} (ha : aligned16 input = true) (q : Nat) :
    ∀ (fuel b : Nat) (s : State), q + 3 ≤ fuel → s.streamer.phase = .strideInterleaved →
      s.streamer.rem.toNat = 8 * (q + 1) → s.streamer.ptr = blockAddr input b → inRange input (b + 8 * (q + 1)) →
      aligned16 s.streamer.acca = true → s.memOK s.streamer.acca .write = true →
      (∀ i, i < 8 * (q + 1) → s.memOK (blockAddr input (b + i)) .read = true) →
      ∃ st, (runPhases xin xn xacc fuel).run s = .ok ()
        { s with
          accS := strideValue s.keyPower (reduce ⟨s.streamer.qh, s.streamer.ql⟩) (s.messageBlock input) b (q + 1)
          mem := Memory.writeBlock s.mem s.streamer.acca.toNat
            (strideValue s.keyPower (reduce ⟨s.streamer.qh, s.streamer.ql⟩) (s.messageBlock input) b (q + 1))
          accesses := s.accesses ++ readsOf input b (8 * (q + 1)) ++ [⟨.write, s.streamer.acca⟩]
          phases := s.phases ++ List.replicate (q + 1) .strideInterleaved ++ [.finalize, .done]
          streamer := st } := by
  induction q with
  | zero =>
    intro fuel b s hf hp hrem hptr hr hacc hw hm
    obtain ⟨fuel, rfl⟩ : ∃ k, fuel = k + 2 + 1 := ⟨fuel - 3, by omega⟩
    have hs := stride_ok (b := b) (s := { s with
      phases := s.phases ++ [.strideInterleaved], accS := reduce ⟨s.streamer.qh, s.streamer.ql⟩ }) ha hptr hr hm
    have hsub : (s.streamer.rem - 8).toNat = 0 := by rw [sub_eight_toNat (by omega)]; omega
    rw [runPhases_phase (by simp [hp]) (by
      rw [hp, phaseRule, phaseStrideInterleaved, Cmd.bind_ok (Cmd.get_apply _), Cmd.bind_ok (setS_apply _ _)]
      exact hs)]
    obtain ⟨st, h⟩ := runPhases_finalize (xin := xin) (xn := xn) (xacc := xacc) (fuel := fuel) (s := { s with
      phases := s.phases ++ [.strideInterleaved], accS := reduce ⟨s.streamer.qh, s.streamer.ql⟩
      accesses := s.accesses ++ readsOf input b 8
      streamer := s.streamer.afterStride
          (groupSum s.keyPower 8 (reduce ⟨s.streamer.qh, s.streamer.ql⟩) (fun i => s.messageBlock input (b + i)) 8 0)
          (blockAddr input (b + 8)) }) (by simp only [Streamer.afterStride, hsub]; rfl) hacc hw
    refine ⟨st, h.trans ?_⟩
    simp [strideValue, groupValue, Streamer.afterStride]
  | succ q ih =>
    intro fuel b s hf hp hrem hptr hr hacc hw hm
    have hr' : input.toNat + 16 * (b + 8 * (q + 1 + 1)) ≤ 2 ^ 64 := hr
    obtain ⟨fuel, rfl⟩ : ∃ k, fuel = k + 1 := ⟨fuel - 1, by omega⟩
    have hs := stride_ok (b := b) (s := { s with
      phases := s.phases ++ [.strideInterleaved], accS := reduce ⟨s.streamer.qh, s.streamer.ql⟩ }) ha hptr
      (by unfold inRange; omega) (fun i hi => hm i (by omega))
    have hsub : (s.streamer.rem - 8).toNat = 8 * (q + 1) := by rw [sub_eight_toNat (by omega)]; omega
    have h8 : 8 ≤ (s.streamer.rem - 8).toNat := by omega
    rw [runPhases_phase (by simp [hp]) (by
      rw [hp, phaseRule, phaseStrideInterleaved, Cmd.bind_ok (Cmd.get_apply _), Cmd.bind_ok (setS_apply _ _)]
      exact hs)]
    obtain ⟨st, h⟩ := ih fuel (b + 8) { s with
      phases := s.phases ++ [.strideInterleaved], accS := reduce ⟨s.streamer.qh, s.streamer.ql⟩
      accesses := s.accesses ++ readsOf input b 8
      streamer := s.streamer.afterStride
          (groupSum s.keyPower 8 (reduce ⟨s.streamer.qh, s.streamer.ql⟩) (fun i => s.messageBlock input (b + i)) 8 0)
          (blockAddr input (b + 8)) } (by omega) (by simp only [Streamer.afterStride, h8, if_true]) hsub rfl
      (by unfold inRange; omega) hacc hw (fun i hi => by
        have := hm (8 + i) (by omega)
        rw [← Nat.add_assoc] at this
        exact this)
    refine ⟨st, h.trans ?_⟩
    rw [strideValue_succ_first (q := q + 1), show 8 * (q + 1 + 1) = 8 + 8 * (q + 1) by ring, ← readsOf_append,
      List.replicate_succ (n := q + 1)]
    simp only [List.append_assoc, List.cons_append, List.nil_append]
    rfl

/-- STRIDE_FIRST over the first of `q + 1` strides, and all that follows (R149–R152). -/
theorem runPhases_strideFirst {xin xn xacc : XIdx} {input : Addr} (ha : aligned16 input = true) {q fuel b : Nat} {s : State}
    (hf : q + 3 ≤ fuel) (hp : s.streamer.phase = .strideFirst) (hrem : s.streamer.rem.toNat = 8 * (q + 1))
    (hptr : s.streamer.ptr = blockAddr input b) (hr : inRange input (b + 8 * (q + 1)))
    (hacc : aligned16 s.streamer.acca = true) (hw : s.memOK s.streamer.acca .write = true)
    (hm : ∀ i, i < 8 * (q + 1) → s.memOK (blockAddr input (b + i)) .read = true) :
    ∃ st, (runPhases xin xn xacc fuel).run s = .ok ()
      { s with
        accS := strideValue s.keyPower s.accS (s.messageBlock input) b (q + 1)
        mem := Memory.writeBlock s.mem s.streamer.acca.toNat (strideValue s.keyPower s.accS (s.messageBlock input) b (q + 1))
        accesses := s.accesses ++ readsOf input b (8 * (q + 1)) ++ [⟨.write, s.streamer.acca⟩]
        phases := s.phases ++ [.strideFirst] ++ List.replicate q .strideInterleaved ++ [.finalize, .done]
        streamer := st } := by
  have hr' : input.toNat + 16 * (b + 8 * (q + 1)) ≤ 2 ^ 64 := hr
  have hsub : (s.streamer.rem - 8).toNat = 8 * q := by rw [sub_eight_toNat (by omega)]; omega
  obtain ⟨fuel, rfl⟩ : ∃ k, fuel = k + 2 + 1 := ⟨fuel - 3, by omega⟩
  have hs := stride_ok (b := b) (s := { s with phases := s.phases ++ [.strideFirst] }) ha hptr
    (by unfold inRange; omega) (fun i hi => hm i (by omega))
  rw [runPhases_phase (by simp [hp]) (by
    rw [hp, phaseRule, phaseStrideFirst]
    exact hs)]
  cases q with
  | zero =>
    obtain ⟨st, h⟩ := runPhases_finalize (xin := xin) (xn := xn) (xacc := xacc) (fuel := fuel) (s := { s with
      phases := s.phases ++ [.strideFirst]
      accesses := s.accesses ++ readsOf input b 8
      streamer := s.streamer.afterStride
          (groupSum s.keyPower 8 s.accS (fun i => s.messageBlock input (b + i)) 8 0) (blockAddr input (b + 8)) })
      (by simp only [Streamer.afterStride, hsub]; rfl) hacc hw
    refine ⟨st, h.trans ?_⟩
    simp [strideValue, groupValue, Streamer.afterStride]
  | succ q =>
    have h8 : 8 ≤ (s.streamer.rem - 8).toNat := by omega
    obtain ⟨st, h⟩ := runPhases_interleaved (xin := xin) (xn := xn) (xacc := xacc) ha q (fuel + 2) (b + 8) { s with
      phases := s.phases ++ [.strideFirst]
      accesses := s.accesses ++ readsOf input b 8
      streamer := s.streamer.afterStride
          (groupSum s.keyPower 8 s.accS (fun i => s.messageBlock input (b + i)) 8 0) (blockAddr input (b + 8)) }
      (by omega) (by simp only [Streamer.afterStride, h8, if_true]) hsub rfl (by unfold inRange; omega) hacc hw
      (fun i hi => by
        have := hm (8 + i) (by omega)
        rw [← Nat.add_assoc] at this
        exact this)
    refine ⟨st, h.trans ?_⟩
    rw [strideValue_succ_first (q := q + 1), show 8 * (q + 1 + 1) = 8 + 8 * (q + 1) by ring, ← readsOf_append]
    simp only [List.append_assoc, List.cons_append, List.nil_append]
    rfl

/-! ALIGNED and TAIL -/

/-- The phases from ALIGNED on with `q` strides left (R148, R159). -/
def alignedTrace (q : Nat) : List Phase :=
  [.aligned] ++ (if q > 0 then [.strideFirst] ++ List.replicate (q - 1) .strideInterleaved ++ [.finalize] else []) ++ [.done]

/-- From ALIGNED on, with `q` strides left and, if there is none, the tail run (R148–R152). -/
theorem runPhases_aligned {xin xn xacc : XIdx} {input : Addr} (ha : aligned16 input = true) {q fuel b : Nat} {s : State}
    (hf : q + 3 ≤ fuel) (hp : s.streamer.phase = .aligned) (hrem : s.streamer.rem.toNat = 8 * q)
    (hptr : s.streamer.ptr = blockAddr input b) (hr : inRange input (b + 8 * q)) (htail : q = 0 → s.streamer.tailRan = true)
    (hacc : aligned16 s.streamer.acca = true) (hw : s.memOK s.streamer.acca .write = true)
    (hm : ∀ i, i < 8 * q → s.memOK (blockAddr input (b + i)) .read = true) :
    ∃ st, (runPhases xin xn xacc fuel).run s = .ok ()
      { s with
        accS := strideValue s.keyPower s.accS (s.messageBlock input) b q
        mem := Memory.writeBlock s.mem s.streamer.acca.toNat (strideValue s.keyPower s.accS (s.messageBlock input) b q)
        accesses := s.accesses ++ readsOf input b (8 * q) ++ [⟨.write, s.streamer.acca⟩]
        phases := s.phases ++ alignedTrace q
        streamer := st } := by
  obtain ⟨fuel, rfl⟩ : ∃ k, fuel = k + 1 := ⟨fuel - 1, by omega⟩
  cases q with
  | zero =>
    obtain ⟨fuel, rfl⟩ : ∃ k, fuel = k + 1 := ⟨fuel - 1, by omega⟩
    have hl : ¬ 8 ≤ s.streamer.rem.toNat := by omega
    have hal : (phaseRule xin xn xacc s.streamer.phase).run { s with phases := s.phases ++ [s.streamer.phase] } = .ok ()
        { s with
          mem := Memory.writeBlock s.mem s.streamer.acca.toNat s.accS
          accesses := s.accesses ++ [⟨.write, s.streamer.acca⟩]
          phases := s.phases ++ [.aligned]
          streamer := { s.streamer with phase := .done } } := by
      rw [hp, phaseRule, phaseAligned, Cmd.bind_ok (Cmd.get_apply _)]
      simp only [strideLeft, hl, decide_false, htail rfl, if_true, Bool.false_eq_true, if_false]
      refine (Cmd.bind_ok (memWrite_ok ?_ ?_)).trans ?_
      · exact hacc
      · exact hw
      · rw [toPhase_apply]
        simp only [State.stored, State.logged, htail rfl]
    rw [runPhases_phase (by simp [hp]) hal, runPhases_done rfl]
    refine ⟨{ s.streamer with phase := .done }, ?_⟩
    simp [strideValue, readsOf, alignedTrace]
  | succ q =>
    have h8 : 8 ≤ s.streamer.rem.toNat := by omega
    have hal : (phaseRule xin xn xacc s.streamer.phase).run { s with phases := s.phases ++ [s.streamer.phase] } = .ok ()
        { s with phases := s.phases ++ [.aligned], streamer := { s.streamer with phase := .strideFirst } } := by
      rw [hp, phaseRule, phaseAligned, Cmd.bind_ok (Cmd.get_apply _)]
      simp only [strideLeft, h8, decide_true, if_true, toPhase_apply]
    rw [runPhases_phase (by simp [hp]) hal]
    obtain ⟨st, h⟩ := runPhases_strideFirst (xin := xin) (xn := xn) (xacc := xacc) (q := q) (fuel := fuel) (b := b)
      (s := { s with phases := s.phases ++ [.aligned], streamer := { s.streamer with phase := .strideFirst } })
      ha (by omega) rfl hrem hptr hr hacc hw hm
    refine ⟨st, h.trans ?_⟩
    have e : alignedTrace (q + 1) = .aligned :: .strideFirst :: (List.replicate q .strideInterleaved ++ [.finalize, .done]) := by
      simp [alignedTrace]
    rw [e]
    simp only [List.append_assoc, List.cons_append, List.nil_append]
    rfl

/-- TAIL when its reads go through: S is the group's value, `r` blocks are consumed (R147). -/
theorem phaseTail_ok {s : State} {r : Nat} (hr : s.streamer.rem.toNat % 8 = r) (ha : aligned16 s.streamer.ptr = true)
    (hrange : inRange s.streamer.ptr r) (hm : ∀ i, i < r → s.memOK (blockAddr s.streamer.ptr i) .read = true) :
    ∃ st : Streamer, phaseTail.run s = .ok ()
        { s with
          accS := groupValue s.keyPower r s.accS (s.messageBlock s.streamer.ptr)
          accesses := s.accesses ++ readsOf s.streamer.ptr 0 r
          streamer := st } ∧
      st.phase = .aligned ∧ st.rem = s.streamer.rem - BitVec.ofNat 64 r ∧ st.ptr = blockAddr s.streamer.ptr r ∧
      st.acca = s.streamer.acca ∧ st.tailRan = true := by
  have hab := absorb_ok (r := r) (b := 0) ha r 0
    { s with streamer := { s.streamer with ph := 0, pl := 0 } } (by simp) (by simpa using hrange)
    (by have := s.streamer.ptr.isLt; omega)
    (fun i hi => by rw [Nat.zero_add]; exact hm i hi)
  rw [phaseTail, Cmd.bind_ok (Cmd.get_apply s)]
  simp only [hr]
  rw [Cmd.bind_ok (clearPartial_apply s), Cmd.bind_ok hab, Cmd.bind_ok (Cmd.get_apply _), Cmd.bind_ok (setS_apply _ _),
    Cmd.bind_ok (consume_apply _ _), Cmd.bind_ok (modifyStreamer_apply _ _), toPhase_apply]
  refine ⟨{ s.streamer with
    ph := (groupSum s.keyPower r s.accS (fun i => s.messageBlock s.streamer.ptr i) r 0).ph
    pl := (groupSum s.keyPower r s.accS (fun i => s.messageBlock s.streamer.ptr i) r 0).pl
    ptr := s.streamer.ptr + BitVec.ofNat 64 (16 * r), rem := s.streamer.rem - BitVec.ofNat 64 r
    tailRan := true, phase := .aligned }, ?_, rfl, rfl, ?_, rfl, rfl⟩
  · simp only [groupValue, Nat.zero_add, zero_xor_block]
    rfl
  · have := blockAddr_add s.streamer.ptr 0 r
    rwa [blockAddr_zero, Nat.zero_add] at this

/-! INIT and the whole command -/

/-- The Streamer's fields as INIT sets them (R146). -/
def Streamer.initialised (st : Streamer) (input n acc : Addr) : Streamer :=
  { st with
    rem := n, ptr := input, acca := acc, tailRan := false, pend := false
    phase := if n.toNat % 8 > 0 then .tail else .aligned }

/-- What INIT needs to pass when N > 0: the checks of R138 and the read of `acc` (R146). -/
structure InitPasses (xin xn xacc : XIdx) (s : State) : Prop where
  blocks : 0 < (s.scalar xn).toNat
  keys : s.status.kpv = true
  input_aligned : aligned16 (s.scalar xin) = true
  acc_aligned : aligned16 (s.scalar xacc) = true
  range : inRange (s.scalar xin) (s.scalar xn).toNat
  acc_read : s.memOK (s.scalar xacc) .read = true

theorem UpdateRuns.initPasses {xin xn xacc : XIdx} {s : State} (h : UpdateRuns xin xn xacc s) : InitPasses xin xn xacc s :=
  ⟨h.blocks, h.keys, h.input_aligned, h.acc_aligned, h.range, h.acc_read⟩

/-- INIT when N > 0 and its checks pass (R146). -/
theorem phaseInit_ok {xin xn xacc : XIdx} {s : State} (h : InitPasses xin xn xacc s) :
    (phaseInit xin xn xacc).run s = .ok ()
      { s with
        accS := Memory.readBlock s.mem (s.scalar xacc).toNat
        accesses := s.accesses ++ [⟨.read, s.scalar xacc⟩]
        streamer := s.streamer.initialised (s.scalar xin) (s.scalar xn) (s.scalar xacc) } := by
  rw [phaseInit, Cmd.bind_ok (readScalar_apply _ _), Cmd.bind_ok (readScalar_apply _ _), Cmd.bind_ok (readScalar_apply _ _),
    Cmd.bind_ok (modifyStreamer_apply _ _)]
  simp only [gt_iff_lt, h.blocks, if_true]
  refine (Cmd.bind_ok (checkKeys_ok ?_)).trans ?_
  · exact h.keys
  rw [Cmd.bind_ok (checkAligned_ok h.input_aligned _), Cmd.bind_ok (checkAligned_ok h.acc_aligned _),
    Cmd.bind_ok (checkRange_ok h.range _)]
  refine (Cmd.bind_ok (memRead_ok h.acc_aligned ?_)).trans ?_
  · exact h.acc_read
  rw [Cmd.bind_ok (setS_apply _ _), toPhase_apply]
  rfl

/-- INIT when N = 0: no check, no access (R139, R146). -/
theorem phaseInit_zero {xin xn xacc : XIdx} {s : State} (h : (s.scalar xn).toNat = 0) :
    (phaseInit xin xn xacc).run s = .ok ()
      { s with streamer := s.streamer.initialised (s.scalar xin) (s.scalar xn) (s.scalar xacc) } := by
  rw [phaseInit, Cmd.bind_ok (readScalar_apply _ _), Cmd.bind_ok (readScalar_apply _ _), Cmd.bind_ok (readScalar_apply _ _),
    Cmd.bind_ok (modifyStreamer_apply _ _)]
  have hn : ¬ 0 < (s.scalar xn).toNat := by omega
  simp only [gt_iff_lt, hn, if_false, toPhase_apply, Streamer.initialised]

theorem phaseTrace_tail {n : Nat} (h : 0 < n % 8) : phaseTrace n = [.init, .tail] ++ alignedTrace (n / 8) := by
  simp [phaseTrace, alignedTrace, h]

theorem phaseTrace_no_tail {n : Nat} (h : n % 8 = 0) : phaseTrace n = [.init] ++ alignedTrace (n / 8) := by
  simp [phaseTrace, alignedTrace, h]

/-- From TAIL on (R147, R148–R152). -/
theorem runPhases_tail {xin xn xacc : XIdx} {n fuel : Nat} {s : State} (hf : n / 8 + 4 ≤ fuel)
    (hp : s.streamer.phase = .tail) (hrem : s.streamer.rem.toNat = n) (ha : aligned16 s.streamer.ptr = true)
    (hr : inRange s.streamer.ptr n) (hacc : aligned16 s.streamer.acca = true) (hw : s.memOK s.streamer.acca .write = true)
    (hm : s.admitsBlocks s.streamer.ptr n .read) :
    ∃ st, (runPhases xin xn xacc fuel).run s = .ok ()
      { s with
        accS := strideValue s.keyPower (groupValue s.keyPower (n % 8) s.accS (s.messageBlock s.streamer.ptr))
          (s.messageBlock s.streamer.ptr) (n % 8) (n / 8)
        mem := Memory.writeBlock s.mem s.streamer.acca.toNat
          (strideValue s.keyPower (groupValue s.keyPower (n % 8) s.accS (s.messageBlock s.streamer.ptr))
            (s.messageBlock s.streamer.ptr) (n % 8) (n / 8))
        accesses := s.accesses ++ readsOf s.streamer.ptr 0 n ++ [⟨.write, s.streamer.acca⟩]
        phases := s.phases ++ .tail :: alignedTrace (n / 8)
        streamer := st } := by
  have hr' : s.streamer.ptr.toNat + 16 * n ≤ 2 ^ 64 := hr
  have hlt := s.streamer.rem.isLt
  obtain ⟨fuel, rfl⟩ : ∃ k, fuel = k + 1 := ⟨fuel - 1, by omega⟩
  obtain ⟨st, h1, h2, h3, h4, h5, h6⟩ := phaseTail_ok (s := { s with phases := s.phases ++ [.tail] }) (r := n % 8)
    (by rw [hrem]) ha (by unfold inRange; show s.streamer.ptr.toNat + _ ≤ _; omega) (fun i hi => hm i (by omega))
  rw [runPhases_phase (by simp [hp]) (by rw [hp, phaseRule]; exact h1)]
  have hst : st.rem.toNat = 8 * (n / 8) := by
    have hle : (BitVec.ofNat 64 (n % 8)).toNat ≤ s.streamer.rem.toNat := by
      rw [BitVec.toNat_ofNat]
      omega
    rw [h3]
    show (s.streamer.rem - BitVec.ofNat 64 (n % 8)).toNat = _
    rw [BitVec.toNat_sub_of_le (BitVec.le_def.mpr hle), BitVec.toNat_ofNat]
    omega
  have e : n % 8 + 8 * (n / 8) = n := by omega
  obtain ⟨st', h'⟩ := runPhases_aligned (xin := xin) (xn := xn) (xacc := xacc) (input := s.streamer.ptr) ha
    (q := n / 8) (fuel := fuel) (b := n % 8) (s := { s with
      phases := s.phases ++ [.tail]
      accS := groupValue s.keyPower (n % 8) s.accS (s.messageBlock s.streamer.ptr)
      accesses := s.accesses ++ readsOf s.streamer.ptr 0 (n % 8)
      streamer := st }) (by omega) h2 hst h4 (by unfold inRange; omega) (fun _ => h6)
      (by show aligned16 st.acca = true; rw [h5]; exact hacc) (by show s.memOK st.acca .write = true; rw [h5]; exact hw)
      (fun i hi => hm _ (by omega))
  refine ⟨st', h'.trans ?_⟩
  have hreads := readsOf_append s.streamer.ptr 0 (n % 8) (8 * (n / 8))
  rw [Nat.zero_add, e] at hreads
  rw [← hreads, show st.acca = s.streamer.acca from h5]
  simp only [List.append_assoc, List.cons_append, List.nil_append]
  rfl

/-- The state an UPDATE of N > 0 blocks leaves when it completes (R135, R136). -/
def State.updated (s : State) (input n acc : Addr) : State :=
  { s with
    accS := streamValue s.keyPower (Memory.readBlock s.mem acc.toNat) (s.messageBlock input) n.toNat
    mem := Memory.writeBlock s.mem acc.toNat
      (streamValue s.keyPower (Memory.readBlock s.mem acc.toNat) (s.messageBlock input) n.toNat)
    accesses := s.accesses ++ [⟨.read, acc⟩] ++ readsOf input 0 n.toNat ++ [⟨.write, acc⟩]
    phases := s.phases ++ phaseTrace n.toNat
    streamer := Streamer.released s.free
    free := s.free + 1 }

/-- The state after INIT when N > 0 (R146). -/
def State.afterInit (s : State) (input n acc : Addr) : State :=
  { s with
    phases := s.phases ++ [.init]
    accS := Memory.readBlock s.mem acc.toNat
    accesses := s.accesses ++ [⟨.read, acc⟩]
    streamer := Streamer.initialised { s.streamer with phase := .init } input n acc }

/-- INIT, then the rest of the run. -/
theorem runPhases_init {xin xn xacc : XIdx} {s : State} (h : InitPasses xin xn xacc s) :
    (runPhases xin xn xacc (phaseFuel (s.scalar xn))).run { s with streamer := { s.streamer with phase := .init } } =
      (runPhases xin xn xacc ((s.scalar xn).toNat / 8 + 5)).run
        (s.afterInit (s.scalar xin) (s.scalar xn) (s.scalar xacc)) := by
  have hi : (phaseRule xin xn xacc .init).run
      { s with phases := s.phases ++ [.init], streamer := { s.streamer with phase := .init } } = .ok ()
      (s.afterInit (s.scalar xin) (s.scalar xn) (s.scalar xacc)) := by
    rw [phaseRule]
    exact phaseInit_ok ⟨h.blocks, h.keys, h.input_aligned, h.acc_aligned, h.range, h.acc_read⟩
  rw [phaseFuel, runPhases_phase (by simp) hi]

/-- UPDATE with N > 0 whose accesses go through: what it leaves. -/
theorem updateAccumulator_ok {xin xn xacc : XIdx} {s : State} (h : UpdateRuns xin xn xacc s) :
    (updateAccumulator xin xn xacc).run s = .ok () (s.updated (s.scalar xin) (s.scalar xn) (s.scalar xacc)) := by
  have hr : (s.scalar xin).toNat + 16 * (s.scalar xn).toNat ≤ 2 ^ 64 := h.range
  have hb := h.blocks
  obtain ⟨s1, hs1⟩ : ∃ s1, s1 = s.afterInit (s.scalar xin) (s.scalar xn) (s.scalar xacc) := ⟨_, rfl⟩
  have hrun := runPhases_init h.initPasses
  rw [← hs1] at hrun
  rw [updateAccumulator, Cmd.bind_ok (readScalar_apply _ _), Cmd.bind_ok (toPhase_apply _ _)]
  have hptr : s1.streamer.ptr = s.scalar xin := by rw [hs1]; rfl
  have hacca : s1.streamer.acca = s.scalar xacc := by rw [hs1]; rfl
  have hrem : s1.streamer.rem = s.scalar xn := by rw [hs1]; rfl
  have hphase : s1.streamer.phase = if (s.scalar xn).toNat % 8 > 0 then .tail else .aligned := by rw [hs1]; rfl
  have hok : s1.memOK = s.memOK := by rw [hs1]; rfl
  have hadm : s1.admitsBlocks (s.scalar xin) (s.scalar xn).toNat .read := by
    unfold State.admitsBlocks
    rw [hok]
    exact h.message_read
  have hw : s1.memOK s1.streamer.acca .write = true := by rw [hok, hacca]; exact h.acc_write
  have hacc : aligned16 s1.streamer.acca = true := by rw [hacca]; exact h.acc_aligned
  by_cases ht : 0 < (s.scalar xn).toNat % 8
  · obtain ⟨st, h'⟩ := runPhases_tail (xin := xin) (xn := xn) (xacc := xacc) (n := (s.scalar xn).toNat)
      (fuel := (s.scalar xn).toNat / 8 + 5) (s := s1)
      (by omega) (hphase.trans (if_pos ht)) (by rw [hrem]) (by rw [hptr]; exact h.input_aligned)
      (by rw [hptr]; exact h.range) hacc hw (by rw [hptr]; exact hadm)
    rw [hptr, hacca] at h'
    rw [Cmd.bind_ok (hrun.trans h')]
    simp only [releaseStreamer_apply, State.updated, streamValue, tailValue, gt_iff_lt, ht, if_true, phaseTrace_tail ht]
    rw [hs1]
    simp only [State.afterInit, List.append_assoc, List.cons_append, List.nil_append]
    rfl
  · have ht0 : (s.scalar xn).toNat % 8 = 0 := by omega
    have e : 8 * ((s.scalar xn).toNat / 8) = (s.scalar xn).toNat := by omega
    obtain ⟨st, h'⟩ := runPhases_aligned (xin := xin) (xn := xn) (xacc := xacc) (input := s.scalar xin) h.input_aligned
      (q := (s.scalar xn).toNat / 8) (b := 0) (fuel := (s.scalar xn).toNat / 8 + 5) (s := s1)
      (by omega) (hphase.trans (if_neg ht)) (by rw [hrem]; omega) (by rw [hptr, blockAddr_zero])
      (by unfold inRange; omega) (by omega) hacc hw
      (fun i hi => by
        rw [Nat.zero_add]
        exact hadm i (by omega))
    rw [hacca] at h'
    rw [Cmd.bind_ok (hrun.trans h')]
    simp only [releaseStreamer_apply, State.updated, streamValue, tailValue, gt_iff_lt, ht0, Nat.lt_irrefl, if_false, e,
      phaseTrace_no_tail ht0]
    rw [hs1]
    simp only [State.afterInit, List.append_assoc, List.cons_append, List.nil_append]
    rfl

theorem execUpdate_ok {xin xn xacc : XIdx} {s : State} (h : UpdateRuns xin xn xacc s) :
    execUpdate xin xn xacc s = .next (s.updated (s.scalar xin) (s.scalar xn) (s.scalar xacc)) :=
  command_ok (updateAccumulator_ok h)

/-- UPDATE with N = 0: only the Streamer's own state and the trace change (R139). -/
theorem updateAccumulator_zero {xin xn xacc : XIdx} {s : State} (h : (s.scalar xn).toNat = 0) :
    (updateAccumulator xin xn xacc).run s = .ok ()
      { s with phases := s.phases ++ phaseTrace 0, streamer := Streamer.released s.free, free := s.free + 1 } := by
  rw [updateAccumulator, Cmd.bind_ok (readScalar_apply _ _), Cmd.bind_ok (toPhase_apply _ _)]
  obtain ⟨s1, hs1⟩ : ∃ s1 : State, s1 = { s with
      phases := s.phases ++ [.init]
      streamer := Streamer.initialised { s.streamer with phase := .init } (s.scalar xin) (s.scalar xn) (s.scalar xacc) } :=
    ⟨_, rfl⟩
  have hi : (phaseRule xin xn xacc .init).run
      { s with phases := s.phases ++ [.init], streamer := { s.streamer with phase := .init } } = .ok () s1 := by
    rw [hs1, phaseRule]
    exact phaseInit_zero h
  have hphase : s1.streamer.phase = .aligned := by
    rw [hs1]
    simp [Streamer.initialised, h]
  have hal : (phaseRule xin xn xacc s1.streamer.phase).run { s1 with phases := s1.phases ++ [s1.streamer.phase] } = .ok ()
      { s1 with phases := s1.phases ++ [.aligned], streamer := { s1.streamer with phase := .done } } := by
    rw [hphase, phaseRule, phaseAligned, Cmd.bind_ok (Cmd.get_apply _)]
    have hl : strideLeft { s1 with phases := s1.phases ++ [.aligned] } = false := by
      rw [hs1]
      simp [strideLeft, Streamer.initialised, h]
    have htr : s1.streamer.tailRan = false := by rw [hs1]; rfl
    simp [hl, htr]
  have hrun : (runPhases xin xn xacc (phaseFuel (s.scalar xn))).run
      { s with streamer := { s.streamer with phase := .init } } = .ok ()
      { s1 with phases := s1.phases ++ [.aligned, .done], streamer := { s1.streamer with phase := .done } } := by
    rw [phaseFuel, h, runPhases_phase (by simp) hi, runPhases_phase (by simp [hphase]) hal, runPhases_done rfl]
    simp only [List.append_assoc, List.cons_append, List.nil_append]
  rw [Cmd.bind_ok hrun, releaseStreamer_apply, hs1]
  simp only [phaseTrace, List.append_assoc, List.cons_append, List.nil_append]
  rfl

theorem execUpdate_zero {xin xn xacc : XIdx} {s : State} (h : (s.scalar xn).toNat = 0) :
    execUpdate xin xn xacc s = .next
      { s with phases := s.phases ++ phaseTrace 0, streamer := Streamer.released s.free, free := s.free + 1 } :=
  command_ok (updateAccumulator_zero h)

end Sys2Proof.Machine
end

