-- ==== Sys2Proof/Laws/StreamerFaults.lean ====
section
/-! SUPPORT. The faults of UPDATE (spec/43_streamer.md R138): its checks in order, and what the phase machine does when an access is
the first one refused. No memory is written before the last access. -/

namespace Sys2Proof.Machine

/-- A run that stops at a refused access before any write: the fault, memory as it was, and the accesses and phases until then. -/
def StoppedAt (c : Cmd Unit) (s : State) (a : Addr) (acc : List Access) (ph : List Phase) : Prop :=
  ∃ r, c.run s = .error ⟨.accessFault, a⟩ r ∧ r.mem = s.mem ∧ r.accesses = s.accesses ++ acc ∧ r.phases = s.phases ++ ph

/-- A phase whose rule raises stops the run. -/
theorem runPhases_stop {xin xn xacc : XIdx} {fuel : Nat} {s r : State} {t : Trap} (hp : s.streamer.phase ≠ .done)
    (h : (phaseRule xin xn xacc s.streamer.phase).run { s with phases := s.phases ++ [s.streamer.phase] } = .error t r) :
    (runPhases xin xn xacc (fuel + 1)).run s = .error t r := by
  rw [runPhases, Cmd.bind_ok (enterPhase_apply s), if_neg hp, Cmd.bind_error h]

/-- `absorb` when the read of block `j + k` is the first one refused. -/
theorem absorb_refused {input : Addr} {b r : Nat} (ha : aligned16 input = true) (k : Nat) :
    ∀ (n j : Nat) (s : State), k < n → s.streamer.ptr = blockAddr input b → inRange input (b + j + n) →
      (∀ i, i < k → s.memOK (blockAddr input (b + j + i)) .read = true) →
      s.memOK (blockAddr input (b + j + k)) .read = false →
      StoppedAt (absorb r n j) s (blockAddr input (b + j + k)) (readsOf input (b + j) k) [] := by
  induction k with
  | zero =>
    intro n j s hk hp hr _ hf
    obtain ⟨n, rfl⟩ : ∃ m, n = m + 1 := ⟨n - 1, by omega⟩
    have hr' : input.toNat + 16 * (b + j + (n + 1)) ≤ 2 ^ 64 := hr
    simp only [Nat.add_zero] at hf ⊢
    have haddr : blockAddr s.streamer.ptr j = blockAddr input (b + j) := by rw [hp, blockAddr_blockAddr (by omega)]
    refine ⟨s, ?_, rfl, by simp [readsOf], by simp⟩
    rw [absorb, Cmd.bind_ok (Cmd.get_apply s), haddr, Cmd.bind_error (memRead_refused (aligned16_blockAddr _ ha) hf)]
  | succ k ih =>
    intro n j s hk hp hr hm hf
    obtain ⟨n, rfl⟩ : ∃ m, n = m + 1 := ⟨n - 1, by omega⟩
    have hr' : input.toNat + 16 * (b + j + (n + 1)) ≤ 2 ^ 64 := hr
    have haddr : blockAddr s.streamer.ptr j = blockAddr input (b + j) := by rw [hp, blockAddr_blockAddr (by omega)]
    have hread : (memRead (blockAddr s.streamer.ptr j)).run s =
        .ok (s.messageBlock input (b + j)) (s.logged .read (blockAddr input (b + j))) := by
      rw [haddr, memRead_ok (aligned16_blockAddr _ ha) (by simpa using hm 0 (by omega)), State.messageBlock,
        blockAddr_toNat (by omega)]
    have e : b + j + (k + 1) = b + (j + 1) + k := by omega
    rw [e] at hf
    rw [e]
    let p := clmul128 (if j = 0 then s.messageBlock input (b + j) ^^^ s.accS else s.messageBlock input (b + j))
      (s.keyPower (r - j))
    obtain ⟨u, h1, h2, h3, h4⟩ := ih n (j + 1)
      { s.logged .read (blockAddr input (b + j)) with
        streamer := { s.streamer with ph := s.streamer.ph ^^^ p.ph, pl := s.streamer.pl ^^^ p.pl } }
      (by omega) hp (by unfold inRange; omega)
      (fun i hi => by
        have := hm (i + 1) (by omega)
        have e : b + j + (i + 1) = b + (j + 1) + i := by omega
        rw [e] at this
        exact this) hf
    refine ⟨u, ?_, h2, ?_, h4⟩
    · rw [absorb, Cmd.bind_ok (Cmd.get_apply s), Cmd.bind_ok hread, Cmd.bind_ok (accumulate_apply _ _)]
      exact h1
    · rw [h3]
      simp only [State.logged, readsOf, List.range'_succ, List.map_cons, List.append_assoc, List.singleton_append]
      rfl

/-- A stride when the read of its block `k` is the first one refused. -/
theorem stride_refused {input : Addr} {b k : Nat} (hk : k < 8) (ha : aligned16 input = true) {s : State}
    (hp : s.streamer.ptr = blockAddr input b) (hr : inRange input (b + 8))
    (hm : ∀ i, i < k → s.memOK (blockAddr input (b + i)) .read = true)
    (hf : s.memOK (blockAddr input (b + k)) .read = false) :
    StoppedAt stride s (blockAddr input (b + k)) (readsOf input b k) [] := by
  obtain ⟨u, h1, h2, h3, h4⟩ := absorb_refused (b := b) (r := 8) ha k 8 0
    { s with streamer := { s.streamer with ph := 0, pl := 0 } } hk hp hr hm hf
  exact ⟨u, by rw [stride, Cmd.bind_ok (clearPartial_apply s), Cmd.bind_error h1]; rfl, h2, h3, h4⟩

/-- FINALIZE when its write is refused (R151). -/
theorem runPhases_finalize_refused {xin xn xacc : XIdx} {fuel : Nat} {s : State} (hp : s.streamer.phase = .finalize)
    (hacc : aligned16 s.streamer.acca = true) (hw : s.memOK s.streamer.acca .write = false) :
    StoppedAt (runPhases xin xn xacc (fuel + 1)) s s.streamer.acca [] [.finalize] := by
  have h : (phaseRule xin xn xacc s.streamer.phase).run { s with phases := s.phases ++ [s.streamer.phase] } =
      .error ⟨.accessFault, s.streamer.acca⟩
        { s with
          accS := reduce ⟨s.streamer.qh, s.streamer.ql⟩
          phases := s.phases ++ [.finalize]
          streamer := { s.streamer with pend := false } } := by
    rw [hp, phaseRule, phaseFinalize, Cmd.bind_ok (Cmd.get_apply _), Cmd.bind_ok (setS_apply _ _),
      Cmd.bind_ok (modifyStreamer_apply _ _)]
    refine Cmd.bind_error (memWrite_refused ?_ ?_)
    · exact hacc
    · exact hw
  exact ⟨_, runPhases_stop (by simp [hp]) h, rfl, by simp, rfl⟩

/-- The stride phases entered when the read of block `i` of the strides is the first one refused. -/
def stridePhases (i : Nat) : List Phase := .strideFirst :: List.replicate (i / 8) .strideInterleaved

/-- STRIDE_INTERLEAVED over the last `q + 1` strides when the read of their block `k` is the first one refused. -/
theorem runPhases_interleaved_refused {xin xn xacc : XIdx} {input : Addr} (ha : aligned16 input = true) (q : Nat) :
    ∀ (fuel b k : Nat) (s : State), q + 3 ≤ fuel → s.streamer.phase = .strideInterleaved →
      s.streamer.rem.toNat = 8 * (q + 1) → s.streamer.ptr = blockAddr input b → inRange input (b + 8 * (q + 1)) →
      k < 8 * (q + 1) → (∀ i, i < k → s.memOK (blockAddr input (b + i)) .read = true) →
      s.memOK (blockAddr input (b + k)) .read = false →
      StoppedAt (runPhases xin xn xacc fuel) s (blockAddr input (b + k)) (readsOf input b k)
        (List.replicate (k / 8 + 1) .strideInterleaved) := by
  induction q with
  | zero =>
    intro fuel b k s hf hp hrem hptr hr hk hm hrf
    obtain ⟨fuel, rfl⟩ : ∃ k, fuel = k + 1 := ⟨fuel - 1, by omega⟩
    obtain ⟨u, h1, h2, h3, h4⟩ := stride_refused (b := b) (k := k) (by omega) ha (s := { s with
      phases := s.phases ++ [.strideInterleaved], accS := reduce ⟨s.streamer.qh, s.streamer.ql⟩ }) hptr hr hm hrf
    refine ⟨u, runPhases_stop (by simp [hp]) ?_, h2, h3, ?_⟩
    · rw [hp, phaseRule, phaseStrideInterleaved, Cmd.bind_ok (Cmd.get_apply _), Cmd.bind_ok (setS_apply _ _)]
      exact h1
    · rw [h4, show k / 8 = 0 by omega]
      simp
  | succ q ih =>
    intro fuel b k s hf hp hrem hptr hr hk hm hrf
    have hr' : input.toNat + 16 * (b + 8 * (q + 1 + 1)) ≤ 2 ^ 64 := hr
    obtain ⟨fuel, rfl⟩ : ∃ k, fuel = k + 1 := ⟨fuel - 1, by omega⟩
    by_cases hk8 : k < 8
    · obtain ⟨u, h1, h2, h3, h4⟩ := stride_refused (b := b) (k := k) hk8 ha (s := { s with
        phases := s.phases ++ [.strideInterleaved], accS := reduce ⟨s.streamer.qh, s.streamer.ql⟩ }) hptr
        (by unfold inRange; omega) hm hrf
      refine ⟨u, runPhases_stop (by simp [hp]) ?_, h2, h3, ?_⟩
      · rw [hp, phaseRule, phaseStrideInterleaved, Cmd.bind_ok (Cmd.get_apply _), Cmd.bind_ok (setS_apply _ _)]
        exact h1
      · rw [h4, show k / 8 = 0 by omega]
        simp
    · have hs := stride_ok (b := b) (s := { s with
        phases := s.phases ++ [.strideInterleaved], accS := reduce ⟨s.streamer.qh, s.streamer.ql⟩ }) ha hptr
        (by unfold inRange; omega) (fun i hi => hm i (by omega))
      have hsub : (s.streamer.rem - 8).toNat = 8 * (q + 1) := by rw [sub_eight_toNat (by omega)]; omega
      have h8 : 8 ≤ (s.streamer.rem - 8).toNat := by omega
      have e : b + k = b + 8 + (k - 8) := by omega
      rw [e] at hrf
      obtain ⟨u, h1, h2, h3, h4⟩ := ih fuel (b + 8) (k - 8) { s with
        phases := s.phases ++ [.strideInterleaved], accS := reduce ⟨s.streamer.qh, s.streamer.ql⟩
        accesses := s.accesses ++ readsOf input b 8
        streamer := s.streamer.afterStride
          (groupSum s.keyPower 8 (reduce ⟨s.streamer.qh, s.streamer.ql⟩) (fun i => s.messageBlock input (b + i)) 8 0)
          (blockAddr input (b + 8)) } (by omega) (by simp only [Streamer.afterStride, h8, if_true]) hsub rfl
        (by unfold inRange; omega) (by omega) (fun i hi => by
          have := hm (8 + i) (by omega)
          rw [← Nat.add_assoc] at this
          exact this) hrf
      refine ⟨u, ?_, h2, ?_, ?_⟩
      · rw [runPhases_phase (by simp [hp]) (by
          rw [hp, phaseRule, phaseStrideInterleaved, Cmd.bind_ok (Cmd.get_apply _), Cmd.bind_ok (setS_apply _ _)]
          exact hs), e]
        exact h1
      · rw [h3, List.append_assoc, readsOf_append, show 8 + (k - 8) = k by omega]
      · rw [h4, List.append_assoc, show k / 8 + 1 = (k - 8) / 8 + 1 + 1 by omega, List.replicate_succ (n := (k - 8) / 8 + 1)]
        rfl

/-- STRIDE_FIRST over the first of `q + 1` strides when the read of their block `k` is the first one refused. -/
theorem runPhases_strideFirst_refused {xin xn xacc : XIdx} {input : Addr} (ha : aligned16 input = true) {q fuel b k : Nat}
    {s : State} (hf : q + 3 ≤ fuel) (hp : s.streamer.phase = .strideFirst) (hrem : s.streamer.rem.toNat = 8 * (q + 1))
    (hptr : s.streamer.ptr = blockAddr input b) (hr : inRange input (b + 8 * (q + 1))) (hk : k < 8 * (q + 1))
    (hm : ∀ i, i < k → s.memOK (blockAddr input (b + i)) .read = true)
    (hrf : s.memOK (blockAddr input (b + k)) .read = false) :
    StoppedAt (runPhases xin xn xacc fuel) s (blockAddr input (b + k)) (readsOf input b k) (stridePhases k) := by
  have hr' : input.toNat + 16 * (b + 8 * (q + 1)) ≤ 2 ^ 64 := hr
  obtain ⟨fuel, rfl⟩ : ∃ k, fuel = k + 1 := ⟨fuel - 1, by omega⟩
  by_cases hk8 : k < 8
  · obtain ⟨u, h1, h2, h3, h4⟩ := stride_refused (b := b) (k := k) hk8 ha (s := { s with
      phases := s.phases ++ [.strideFirst] }) hptr (by unfold inRange; omega) hm hrf
    refine ⟨u, runPhases_stop (by simp [hp]) ?_, h2, h3, ?_⟩
    · rw [hp, phaseRule, phaseStrideFirst]
      exact h1
    · rw [h4, stridePhases, show k / 8 = 0 by omega]
      simp
  · obtain ⟨q, rfl⟩ : ∃ p, q = p + 1 := ⟨q - 1, by omega⟩
    have hs := stride_ok (b := b) (s := { s with phases := s.phases ++ [.strideFirst] }) ha hptr
      (by unfold inRange; omega) (fun i hi => hm i (by omega))
    have hsub : (s.streamer.rem - 8).toNat = 8 * (q + 1) := by rw [sub_eight_toNat (by omega)]; omega
    have h8 : 8 ≤ (s.streamer.rem - 8).toNat := by omega
    have e : b + k = b + 8 + (k - 8) := by omega
    rw [e] at hrf
    obtain ⟨u, h1, h2, h3, h4⟩ := runPhases_interleaved_refused (xin := xin) (xn := xn) (xacc := xacc) ha q fuel (b + 8)
      (k - 8) { s with
      phases := s.phases ++ [.strideFirst]
      accesses := s.accesses ++ readsOf input b 8
      streamer := s.streamer.afterStride
          (groupSum s.keyPower 8 s.accS (fun i => s.messageBlock input (b + i)) 8 0) (blockAddr input (b + 8)) }
      (by omega) (by simp only [Streamer.afterStride, h8, if_true]) hsub rfl (by unfold inRange; omega) (by omega)
      (fun i hi => by
        have := hm (8 + i) (by omega)
        rw [← Nat.add_assoc] at this
        exact this) hrf
    refine ⟨u, ?_, h2, ?_, ?_⟩
    · rw [runPhases_phase (by simp [hp]) (by
        rw [hp, phaseRule, phaseStrideFirst]
        exact hs), e]
      exact h1
    · rw [h3, List.append_assoc, readsOf_append, show 8 + (k - 8) = k by omega]
    · rw [h4, List.append_assoc, stridePhases, show k / 8 = (k - 8) / 8 + 1 by omega]
      rfl

/-- ALIGNED with strides left, when the read of their block `k` is the first one refused. -/
theorem runPhases_aligned_refused {xin xn xacc : XIdx} {input : Addr} (ha : aligned16 input = true) {q fuel b k : Nat}
    {s : State} (hf : q + 3 ≤ fuel) (hp : s.streamer.phase = .aligned) (hrem : s.streamer.rem.toNat = 8 * q)
    (hptr : s.streamer.ptr = blockAddr input b) (hr : inRange input (b + 8 * q)) (hk : k < 8 * q)
    (hm : ∀ i, i < k → s.memOK (blockAddr input (b + i)) .read = true)
    (hrf : s.memOK (blockAddr input (b + k)) .read = false) :
    StoppedAt (runPhases xin xn xacc fuel) s (blockAddr input (b + k)) (readsOf input b k) (.aligned :: stridePhases k) := by
  obtain ⟨q, rfl⟩ : ∃ p, q = p + 1 := ⟨q - 1, by omega⟩
  obtain ⟨fuel, rfl⟩ : ∃ k, fuel = k + 1 := ⟨fuel - 1, by omega⟩
  have h8 : 8 ≤ s.streamer.rem.toNat := by omega
  have hal : (phaseRule xin xn xacc s.streamer.phase).run { s with phases := s.phases ++ [s.streamer.phase] } = .ok ()
      { s with phases := s.phases ++ [.aligned], streamer := { s.streamer with phase := .strideFirst } } := by
    rw [hp, phaseRule, phaseAligned, Cmd.bind_ok (Cmd.get_apply _)]
    simp only [strideLeft, h8, decide_true, if_true, toPhase_apply]
  obtain ⟨u, h1, h2, h3, h4⟩ := runPhases_strideFirst_refused (xin := xin) (xn := xn) (xacc := xacc) (q := q) (fuel := fuel)
    (b := b) (k := k)
    (s := { s with phases := s.phases ++ [.aligned], streamer := { s.streamer with phase := .strideFirst } })
    ha (by omega) rfl hrem hptr hr hk hm hrf
  refine ⟨u, ?_, h2, h3, ?_⟩
  · rw [runPhases_phase (by simp [hp]) hal]
    exact h1
  · rw [h4, List.append_assoc]
    rfl

/-- STRIDE_INTERLEAVED to FINALIZE when every read goes through and the write is refused. -/
theorem runPhases_interleaved_write_refused {xin xn xacc : XIdx} {input : Addr} (ha : aligned16 input = true) (q : Nat) :
    ∀ (fuel b : Nat) (s : State), q + 3 ≤ fuel → s.streamer.phase = .strideInterleaved →
      s.streamer.rem.toNat = 8 * (q + 1) → s.streamer.ptr = blockAddr input b → inRange input (b + 8 * (q + 1)) →
      aligned16 s.streamer.acca = true → s.memOK s.streamer.acca .write = false →
      (∀ i, i < 8 * (q + 1) → s.memOK (blockAddr input (b + i)) .read = true) →
      StoppedAt (runPhases xin xn xacc fuel) s s.streamer.acca (readsOf input b (8 * (q + 1)))
        (List.replicate (q + 1) .strideInterleaved ++ [.finalize]) := by
  induction q with
  | zero =>
    intro fuel b s hf hp hrem hptr hr hacc hw hm
    obtain ⟨fuel, rfl⟩ : ∃ k, fuel = k + 1 + 1 := ⟨fuel - 2, by omega⟩
    have hs := stride_ok (b := b) (s := { s with
      phases := s.phases ++ [.strideInterleaved], accS := reduce ⟨s.streamer.qh, s.streamer.ql⟩ }) ha hptr hr hm
    have hsub : (s.streamer.rem - 8).toNat = 0 := by rw [sub_eight_toNat (by omega)]; omega
    obtain ⟨u, h1, h2, h3, h4⟩ := runPhases_finalize_refused (xin := xin) (xn := xn) (xacc := xacc) (fuel := fuel) (s := { s with
      phases := s.phases ++ [.strideInterleaved], accS := reduce ⟨s.streamer.qh, s.streamer.ql⟩
      accesses := s.accesses ++ readsOf input b 8
      streamer := s.streamer.afterStride
          (groupSum s.keyPower 8 (reduce ⟨s.streamer.qh, s.streamer.ql⟩) (fun i => s.messageBlock input (b + i)) 8 0)
          (blockAddr input (b + 8)) }) (by simp only [Streamer.afterStride, hsub]; rfl) hacc hw
    refine ⟨u, ?_, h2, by simpa using h3, by simpa using h4⟩
    rw [runPhases_phase (by simp [hp]) (by
      rw [hp, phaseRule, phaseStrideInterleaved, Cmd.bind_ok (Cmd.get_apply _), Cmd.bind_ok (setS_apply _ _)]
      exact hs)]
    exact h1
  | succ q ih =>
    intro fuel b s hf hp hrem hptr hr hacc hw hm
    have hr' : input.toNat + 16 * (b + 8 * (q + 1 + 1)) ≤ 2 ^ 64 := hr
    obtain ⟨fuel, rfl⟩ : ∃ k, fuel = k + 1 := ⟨fuel - 1, by omega⟩
    have hs := stride_ok (b := b) (s := { s with
      phases := s.phases ++ [.strideInterleaved], accS := reduce ⟨s.streamer.qh, s.streamer.ql⟩ }) ha hptr
      (by unfold inRange; omega) (fun i hi => hm i (by omega))
    have hsub : (s.streamer.rem - 8).toNat = 8 * (q + 1) := by rw [sub_eight_toNat (by omega)]; omega
    have h8 : 8 ≤ (s.streamer.rem - 8).toNat := by omega
    obtain ⟨u, h1, h2, h3, h4⟩ := ih fuel (b + 8) { s with
      phases := s.phases ++ [.strideInterleaved], accS := reduce ⟨s.streamer.qh, s.streamer.ql⟩
      accesses := s.accesses ++ readsOf input b 8
      streamer := s.streamer.afterStride
          (groupSum s.keyPower 8 (reduce ⟨s.streamer.qh, s.streamer.ql⟩) (fun i => s.messageBlock input (b + i)) 8 0)
          (blockAddr input (b + 8)) } (by omega) (by simp only [Streamer.afterStride, h8, if_true]) hsub rfl
      (by unfold inRange; omega) hacc hw (fun i hi => by
        have := hm (8 + i) (by omega)
        rw [← Nat.add_assoc] at this
        exact this)
    refine ⟨u, ?_, h2, ?_, ?_⟩
    · rw [runPhases_phase (by simp [hp]) (by
        rw [hp, phaseRule, phaseStrideInterleaved, Cmd.bind_ok (Cmd.get_apply _), Cmd.bind_ok (setS_apply _ _)]
        exact hs)]
      exact h1
    · rw [h3, List.append_assoc, readsOf_append, show 8 + 8 * (q + 1) = 8 * (q + 1 + 1) by ring]
    · rw [h4, List.replicate_succ (n := q + 1), List.append_assoc]
      rfl

/-- From ALIGNED on when every read goes through and the write is refused. -/
theorem runPhases_aligned_write_refused {xin xn xacc : XIdx} {input : Addr} (ha : aligned16 input = true) {q fuel b : Nat}
    {s : State} (hf : q + 3 ≤ fuel) (hp : s.streamer.phase = .aligned) (hrem : s.streamer.rem.toNat = 8 * q)
    (hptr : s.streamer.ptr = blockAddr input b) (hr : inRange input (b + 8 * q)) (htail : q = 0 → s.streamer.tailRan = true)
    (hacc : aligned16 s.streamer.acca = true) (hw : s.memOK s.streamer.acca .write = false)
    (hm : ∀ i, i < 8 * q → s.memOK (blockAddr input (b + i)) .read = true) :
    StoppedAt (runPhases xin xn xacc fuel) s s.streamer.acca (readsOf input b (8 * q)) (alignedTrace q).dropLast := by
  have hr' : input.toNat + 16 * (b + 8 * q) ≤ 2 ^ 64 := hr
  obtain ⟨fuel, rfl⟩ : ∃ k, fuel = k + 1 := ⟨fuel - 1, by omega⟩
  cases q with
  | zero =>
    have hal : (phaseRule xin xn xacc s.streamer.phase).run { s with phases := s.phases ++ [s.streamer.phase] } =
        .error ⟨.accessFault, s.streamer.acca⟩ { s with phases := s.phases ++ [.aligned] } := by
      rw [hp, phaseRule, phaseAligned, Cmd.bind_ok (Cmd.get_apply _)]
      have hl : strideLeft { s with phases := s.phases ++ [.aligned] } = false := by
        simp only [strideLeft, decide_eq_false_iff_not]
        omega
      simp only [hl, htail rfl, if_true, Bool.false_eq_true, if_false]
      refine Cmd.bind_error (memWrite_refused ?_ ?_)
      · exact hacc
      · exact hw
    exact ⟨_, runPhases_stop (by simp [hp]) hal, rfl, by simp [readsOf], rfl⟩
  | succ q =>
    have h8 : 8 ≤ s.streamer.rem.toNat := by omega
    have hsub : (s.streamer.rem - 8).toNat = 8 * q := by rw [sub_eight_toNat (by omega)]; omega
    have hal : (phaseRule xin xn xacc s.streamer.phase).run { s with phases := s.phases ++ [s.streamer.phase] } = .ok ()
        { s with phases := s.phases ++ [.aligned], streamer := { s.streamer with phase := .strideFirst } } := by
      rw [hp, phaseRule, phaseAligned, Cmd.bind_ok (Cmd.get_apply _)]
      simp only [strideLeft, h8, decide_true, if_true, toPhase_apply]
    have hs := stride_ok (b := b) (s := { s with
      phases := s.phases ++ [.aligned] ++ [.strideFirst], streamer := { s.streamer with phase := .strideFirst } }) ha hptr
      (by unfold inRange; omega) (fun i hi => hm i (by omega))
    obtain ⟨fuel, rfl⟩ : ∃ k, fuel = k + 1 := ⟨fuel - 1, by omega⟩
    cases q with
    | zero =>
      obtain ⟨fuel, rfl⟩ : ∃ k, fuel = k + 1 := ⟨fuel - 1, by omega⟩
      obtain ⟨u, h1, h2, h3, h4⟩ := runPhases_finalize_refused (xin := xin) (xn := xn) (xacc := xacc) (fuel := fuel)
        (s := { s with
          phases := s.phases ++ [.aligned] ++ [.strideFirst]
          accesses := s.accesses ++ readsOf input b 8
          streamer := Streamer.afterStride { s.streamer with phase := .strideFirst }
            (groupSum s.keyPower 8 s.accS (fun i => s.messageBlock input (b + i)) 8 0) (blockAddr input (b + 8)) })
        (by simp only [Streamer.afterStride, hsub]; rfl) hacc hw
      refine ⟨u, ?_, h2, by simpa using h3, by simpa [alignedTrace] using h4⟩
      rw [runPhases_phase (by simp [hp]) hal, runPhases_phase (by simp) (by
        rw [phaseRule, phaseStrideFirst]
        exact hs)]
      exact h1
    | succ q =>
      have h8' : 8 ≤ (s.streamer.rem - 8).toNat := by omega
      obtain ⟨u, h1, h2, h3, h4⟩ := runPhases_interleaved_write_refused (xin := xin) (xn := xn) (xacc := xacc) ha q fuel
        (b + 8) { s with
          phases := s.phases ++ [.aligned] ++ [.strideFirst]
          accesses := s.accesses ++ readsOf input b 8
          streamer := Streamer.afterStride { s.streamer with phase := .strideFirst }
            (groupSum s.keyPower 8 s.accS (fun i => s.messageBlock input (b + i)) 8 0) (blockAddr input (b + 8)) }
        (by omega) (by simp only [Streamer.afterStride, h8', if_true]) hsub rfl (by unfold inRange; omega) hacc hw
        (fun i hi => by
          have := hm (8 + i) (by omega)
          rw [← Nat.add_assoc] at this
          exact this)
      refine ⟨u, ?_, h2, ?_, ?_⟩
      · rw [runPhases_phase (by simp [hp]) hal, runPhases_phase (by simp) (by
          rw [phaseRule, phaseStrideFirst]
          exact hs)]
        exact h1
      · rw [h3, List.append_assoc, readsOf_append, show 8 + 8 * (q + 1) = 8 * (q + 1 + 1) by ring]
      · rw [h4]
        have e : (alignedTrace (q + 1 + 1)).dropLast =
            .aligned :: .strideFirst :: (List.replicate (q + 1) .strideInterleaved ++ [.finalize]) := by
          have : alignedTrace (q + 1 + 1) =
              (.aligned :: .strideFirst :: (List.replicate (q + 1) .strideInterleaved ++ [.finalize])) ++ [.done] := by
            simp [alignedTrace]
          rw [this, List.dropLast_concat]
        rw [e, List.append_assoc, List.append_assoc]
        rfl

/-! INIT and TAIL -/

/-- The raise of a check of INIT ends the whole command before any access (R138). -/
theorem updateAccumulator_check {xin xn xacc : XIdx} {s r : State} {t : Trap}
    (h : (phaseInit xin xn xacc).run { s with phases := s.phases ++ [.init], streamer := { s.streamer with phase := .init } } =
      .error t r) : (updateAccumulator xin xn xacc).run s = .error t r := by
  rw [updateAccumulator, Cmd.bind_ok (readScalar_apply _ _), Cmd.bind_ok (toPhase_apply _ _), phaseFuel]
  exact Cmd.bind_error (runPhases_stop (by simp) (by rw [phaseRule]; exact h))

/-- The Streamer's fields as INIT sets them before its checks (R146). -/
def State.initFields (s : State) (input n acc : Addr) : State :=
  { s with streamer := { s.streamer with rem := n, ptr := input, acca := acc, tailRan := false, pend := false } }

/-- INIT up to its checks when N > 0. -/
theorem phaseInit_checks {xin xn xacc : XIdx} {s : State} (hn : 0 < (s.scalar xn).toNat) :
    (phaseInit xin xn xacc).run s =
      (do
        checkKeys
        checkAligned (s.scalar xin)
        checkAligned (s.scalar xacc)
        checkRange (s.scalar xin) (s.scalar xn).toNat
        let v ← memRead (s.scalar xacc)
        setS v
        toPhase (if (s.scalar xn).toNat % 8 > 0 then .tail else .aligned) : Cmd Unit).run
        (s.initFields (s.scalar xin) (s.scalar xn) (s.scalar xacc)) := by
  rw [phaseInit, Cmd.bind_ok (readScalar_apply _ _), Cmd.bind_ok (readScalar_apply _ _), Cmd.bind_ok (readScalar_apply _ _),
    Cmd.bind_ok (modifyStreamer_apply _ _)]
  simp only [gt_iff_lt, hn, if_true]
  rfl

theorem phaseInit_keysInvalid {xin xn xacc : XIdx} {s : State} (hn : 0 < (s.scalar xn).toNat) (hk : s.status.kpv = false) :
    (phaseInit xin xn xacc).run s = .error ⟨.keysInvalid, 0⟩ (s.initFields (s.scalar xin) (s.scalar xn) (s.scalar xacc)) := by
  rw [phaseInit_checks hn]
  refine Cmd.bind_error (checkKeys_error ?_)
  exact hk

theorem phaseInit_misaligned_input {xin xn xacc : XIdx} {s : State} (hn : 0 < (s.scalar xn).toNat)
    (hk : s.status.kpv = true) (hi : aligned16 (s.scalar xin) = false) :
    (phaseInit xin xn xacc).run s =
      .error ⟨.misaligned, s.scalar xin⟩ (s.initFields (s.scalar xin) (s.scalar xn) (s.scalar xacc)) := by
  rw [phaseInit_checks hn]
  refine (Cmd.bind_ok (checkKeys_ok ?_)).trans ?_
  · exact hk
  · exact Cmd.bind_error (checkAligned_error hi _)

theorem phaseInit_misaligned_acc {xin xn xacc : XIdx} {s : State} (hn : 0 < (s.scalar xn).toNat)
    (hk : s.status.kpv = true) (hi : aligned16 (s.scalar xin) = true) (ha : aligned16 (s.scalar xacc) = false) :
    (phaseInit xin xn xacc).run s =
      .error ⟨.misaligned, s.scalar xacc⟩ (s.initFields (s.scalar xin) (s.scalar xn) (s.scalar xacc)) := by
  rw [phaseInit_checks hn]
  refine (Cmd.bind_ok (checkKeys_ok ?_)).trans ?_
  · exact hk
  · exact (Cmd.bind_ok (checkAligned_ok hi _)).trans (Cmd.bind_error (checkAligned_error ha _))

theorem phaseInit_range {xin xn xacc : XIdx} {s : State} (hn : 0 < (s.scalar xn).toNat)
    (hk : s.status.kpv = true) (hi : aligned16 (s.scalar xin) = true) (ha : aligned16 (s.scalar xacc) = true)
    (hr : ¬ inRange (s.scalar xin) (s.scalar xn).toNat) :
    (phaseInit xin xn xacc).run s =
      .error ⟨.addrRange, s.scalar xin⟩ (s.initFields (s.scalar xin) (s.scalar xn) (s.scalar xacc)) := by
  rw [phaseInit_checks hn]
  refine (Cmd.bind_ok (checkKeys_ok ?_)).trans ?_
  · exact hk
  · exact (Cmd.bind_ok (checkAligned_ok hi _)).trans ((Cmd.bind_ok (checkAligned_ok ha _)).trans
      (Cmd.bind_error (checkRange_error (Nat.lt_of_not_le hr) _)))

theorem phaseInit_refused {xin xn xacc : XIdx} {s : State} (hn : 0 < (s.scalar xn).toNat)
    (hk : s.status.kpv = true) (hi : aligned16 (s.scalar xin) = true) (ha : aligned16 (s.scalar xacc) = true)
    (hr : inRange (s.scalar xin) (s.scalar xn).toNat) (hm : s.memOK (s.scalar xacc) .read = false) :
    (phaseInit xin xn xacc).run s =
      .error ⟨.accessFault, s.scalar xacc⟩ (s.initFields (s.scalar xin) (s.scalar xn) (s.scalar xacc)) := by
  rw [phaseInit_checks hn]
  refine (Cmd.bind_ok (checkKeys_ok ?_)).trans ?_
  · exact hk
  · refine (Cmd.bind_ok (checkAligned_ok hi _)).trans ((Cmd.bind_ok (checkAligned_ok ha _)).trans
      ((Cmd.bind_ok (checkRange_ok hr _)).trans (Cmd.bind_error (memRead_refused ha ?_))))
    exact hm

/-- TAIL when the read of its block `k` is the first one refused. -/
theorem phaseTail_refused {s : State} {r k : Nat} (hr : s.streamer.rem.toNat % 8 = r) (ha : aligned16 s.streamer.ptr = true)
    (hrange : inRange s.streamer.ptr r) (hk : k < r) (hm : ∀ i, i < k → s.memOK (blockAddr s.streamer.ptr i) .read = true)
    (hrf : s.memOK (blockAddr s.streamer.ptr k) .read = false) :
    StoppedAt phaseTail s (blockAddr s.streamer.ptr k) (readsOf s.streamer.ptr 0 k) [] := by
  have hab := absorb_refused (r := r) (b := 0) ha k r 0
    { s with streamer := { s.streamer with ph := 0, pl := 0 } } hk (by simp) (by simpa using hrange)
    (fun i hi => by rw [Nat.zero_add]; exact hm i hi)
    (by rw [Nat.zero_add]; exact hrf)
  simp only [Nat.zero_add] at hab
  obtain ⟨u, h1, h2, h3, h4⟩ := hab
  refine ⟨u, ?_, h2, h3, h4⟩
  rw [phaseTail, Cmd.bind_ok (Cmd.get_apply s)]
  simp only [hr]
  rw [Cmd.bind_ok (clearPartial_apply s)]
  exact Cmd.bind_error h1

/-! The whole command -/

/-- The phases entered when the read of message block `i` of `n` is the first access refused. -/
def messagePhases (n i : Nat) : List Phase :=
  .init :: if i < n % 8 then [.tail] else (if n % 8 > 0 then [.tail] else []) ++ .aligned :: stridePhases (i - n % 8)

/-- A raise of the phases after INIT ends the whole command. -/
theorem updateAccumulator_stop {xin xn xacc : XIdx} {s : State} {a : Addr} {acc : List Access} {ph : List Phase}
    (h : InitPasses xin xn xacc s)
    (hs : StoppedAt (runPhases xin xn xacc ((s.scalar xn).toNat / 8 + 5))
      (s.afterInit (s.scalar xin) (s.scalar xn) (s.scalar xacc)) a acc ph) :
    StoppedAt (updateAccumulator xin xn xacc) s a (⟨.read, s.scalar xacc⟩ :: acc) (.init :: ph) := by
  obtain ⟨u, h1, h2, h3, h4⟩ := hs
  refine ⟨u, ?_, h2, ?_, ?_⟩
  · rw [updateAccumulator, Cmd.bind_ok (readScalar_apply _ _), Cmd.bind_ok (toPhase_apply _ _)]
    exact Cmd.bind_error ((runPhases_init h).trans h1)
  · rw [h3]
    simp [State.afterInit]
  · rw [h4]
    simp [State.afterInit]

/-- The read of message block `i` is the first access refused. -/
theorem updateAccumulator_message_refused {xin xn xacc : XIdx} {s : State} {i : Nat} (h : InitPasses xin xn xacc s)
    (hi : i < (s.scalar xn).toNat) (hm : s.admitsBlocks (s.scalar xin) i .read)
    (hrf : s.memOK (blockAddr (s.scalar xin) i) .read = false) :
    StoppedAt (updateAccumulator xin xn xacc) s (blockAddr (s.scalar xin) i)
      (⟨.read, s.scalar xacc⟩ :: readsOf (s.scalar xin) 0 i) (messagePhases (s.scalar xn).toNat i) := by
  have hr : (s.scalar xin).toNat + 16 * (s.scalar xn).toNat ≤ 2 ^ 64 := h.range
  have hlt := (s.scalar xn).isLt
  by_cases ht : i < (s.scalar xn).toNat % 8
  · have hp : (s.afterInit (s.scalar xin) (s.scalar xn) (s.scalar xacc)).streamer.phase = .tail := if_pos (by omega)
    rw [messagePhases, if_pos ht]
    refine updateAccumulator_stop h ?_
    obtain ⟨u, h1, h2, h3, h4⟩ := phaseTail_refused (r := (s.scalar xn).toNat % 8) (k := i)
      (s := { s.afterInit (s.scalar xin) (s.scalar xn) (s.scalar xacc) with
        phases := (s.afterInit (s.scalar xin) (s.scalar xn) (s.scalar xacc)).phases ++ [.tail] })
      rfl h.input_aligned (by unfold inRange; show (s.scalar xin).toNat + _ ≤ _; omega) ht hm hrf
    exact ⟨u, runPhases_stop (by simp [hp]) (by rw [hp, phaseRule]; exact h1), h2, h3, by simpa using h4⟩
  · rw [messagePhases, if_neg ht]
    refine updateAccumulator_stop h ?_
    by_cases ht0 : 0 < (s.scalar xn).toNat % 8
    · rw [if_pos ht0]
      have hp : (s.afterInit (s.scalar xin) (s.scalar xn) (s.scalar xacc)).streamer.phase = .tail := if_pos ht0
      obtain ⟨st, t1, t2, t3, t4, t5, t6⟩ := phaseTail_ok (r := (s.scalar xn).toNat % 8)
        (s := { s.afterInit (s.scalar xin) (s.scalar xn) (s.scalar xacc) with
          phases := (s.afterInit (s.scalar xin) (s.scalar xn) (s.scalar xacc)).phases ++ [.tail] })
        rfl h.input_aligned (by unfold inRange; show (s.scalar xin).toNat + _ ≤ _; omega) (fun j hj => hm j (by omega))
      have hst : st.rem.toNat = 8 * ((s.scalar xn).toNat / 8) := by
        rw [t3]
        show (s.scalar xn - BitVec.ofNat 64 ((s.scalar xn).toNat % 8)).toNat = _
        have hle : (BitVec.ofNat 64 ((s.scalar xn).toNat % 8)).toNat ≤ (s.scalar xn).toNat := by
          rw [BitVec.toNat_ofNat]
          omega
        rw [BitVec.toNat_sub_of_le (BitVec.le_def.mpr hle), BitVec.toNat_ofNat]
        omega
      have e : i = (s.scalar xn).toNat % 8 + (i - (s.scalar xn).toNat % 8) := by omega
      obtain ⟨u, h1, h2, h3, h4⟩ := runPhases_aligned_refused (xin := xin) (xn := xn) (xacc := xacc)
        (input := s.scalar xin) h.input_aligned (q := (s.scalar xn).toNat / 8) (fuel := (s.scalar xn).toNat / 8 + 4)
        (b := (s.scalar xn).toNat % 8) (k := i - (s.scalar xn).toNat % 8) (s := { s with
          phases := s.phases ++ [.init] ++ [.tail]
          accS := groupValue s.keyPower ((s.scalar xn).toNat % 8) (Memory.readBlock s.mem (s.scalar xacc).toNat)
            (s.messageBlock (s.scalar xin))
          accesses := s.accesses ++ [⟨.read, s.scalar xacc⟩] ++ readsOf (s.scalar xin) 0 ((s.scalar xn).toNat % 8)
          streamer := st }) (by omega) t2 hst t4 (by unfold inRange; omega) (by omega)
        (fun j hj => hm _ (by omega)) (by rw [← e]; exact hrf)
      have hreads := readsOf_append (s.scalar xin) 0 ((s.scalar xn).toNat % 8) (i - (s.scalar xn).toNat % 8)
      rw [Nat.zero_add, ← e] at hreads
      refine ⟨u, ?_, h2, ?_, ?_⟩
      · rw [runPhases_phase (by simp [hp]) (by rw [hp, phaseRule]; exact t1)]
        rw [← e] at h1
        exact h1
      · rw [h3, List.append_assoc, hreads]
        rfl
      · rw [h4]
        simp [State.afterInit]
    · rw [if_neg ht0]
      have hp : (s.afterInit (s.scalar xin) (s.scalar xn) (s.scalar xacc)).streamer.phase = .aligned := if_neg ht0
      have hz : (s.scalar xn).toNat % 8 = 0 := by omega
      have hall := runPhases_aligned_refused (xin := xin) (xn := xn) (xacc := xacc)
        (input := s.scalar xin) h.input_aligned (q := (s.scalar xn).toNat / 8) (fuel := (s.scalar xn).toNat / 8 + 5)
        (b := 0) (k := i) (s := s.afterInit (s.scalar xin) (s.scalar xn) (s.scalar xacc)) (by omega) hp
        (by show (s.scalar xn).toNat = _; omega) (blockAddr_zero _).symm (by unfold inRange; omega) (by omega)
        (fun j hj => by rw [Nat.zero_add]; exact hm j hj) (by rw [Nat.zero_add]; exact hrf)
      rw [Nat.zero_add] at hall
      rw [hz, Nat.sub_zero]
      exact hall

/-- Every read goes through and the write of `acc` is refused. -/
theorem updateAccumulator_write_refused {xin xn xacc : XIdx} {s : State} (h : InitPasses xin xn xacc s)
    (hm : s.admitsBlocks (s.scalar xin) (s.scalar xn).toNat .read) (hw : s.memOK (s.scalar xacc) .write = false) :
    StoppedAt (updateAccumulator xin xn xacc) s (s.scalar xacc)
      (⟨.read, s.scalar xacc⟩ :: readsOf (s.scalar xin) 0 (s.scalar xn).toNat) (phaseTrace (s.scalar xn).toNat).dropLast := by
  have hr : (s.scalar xin).toNat + 16 * (s.scalar xn).toNat ≤ 2 ^ 64 := h.range
  have hlt := (s.scalar xn).isLt
  have hb := h.blocks
  by_cases ht : 0 < (s.scalar xn).toNat % 8
  · have hp : (s.afterInit (s.scalar xin) (s.scalar xn) (s.scalar xacc)).streamer.phase = .tail := if_pos ht
    obtain ⟨st, t1, t2, t3, t4, t5, t6⟩ := phaseTail_ok (r := (s.scalar xn).toNat % 8)
      (s := { s.afterInit (s.scalar xin) (s.scalar xn) (s.scalar xacc) with
        phases := (s.afterInit (s.scalar xin) (s.scalar xn) (s.scalar xacc)).phases ++ [.tail] })
      rfl h.input_aligned (by unfold inRange; show (s.scalar xin).toNat + _ ≤ _; omega) (fun j hj => hm j (by omega))
    have hst : st.rem.toNat = 8 * ((s.scalar xn).toNat / 8) := by
      rw [t3]
      show (s.scalar xn - BitVec.ofNat 64 ((s.scalar xn).toNat % 8)).toNat = _
      have hle : (BitVec.ofNat 64 ((s.scalar xn).toNat % 8)).toNat ≤ (s.scalar xn).toNat := by
        rw [BitVec.toNat_ofNat]
        omega
      rw [BitVec.toNat_sub_of_le (BitVec.le_def.mpr hle), BitVec.toNat_ofNat]
      omega
    have hacca : st.acca = s.scalar xacc := t5
    obtain ⟨u, h1, h2, h3, h4⟩ := runPhases_aligned_write_refused (xin := xin) (xn := xn) (xacc := xacc)
      (input := s.scalar xin) h.input_aligned (q := (s.scalar xn).toNat / 8) (fuel := (s.scalar xn).toNat / 8 + 4)
      (b := (s.scalar xn).toNat % 8) (s := { s with
        phases := s.phases ++ [.init] ++ [.tail]
        accS := groupValue s.keyPower ((s.scalar xn).toNat % 8) (Memory.readBlock s.mem (s.scalar xacc).toNat)
          (s.messageBlock (s.scalar xin))
        accesses := s.accesses ++ [⟨.read, s.scalar xacc⟩] ++ readsOf (s.scalar xin) 0 ((s.scalar xn).toNat % 8)
        streamer := st }) (by omega) t2 hst t4 (by unfold inRange; omega) (fun _ => t6)
      (by show aligned16 st.acca = true; rw [hacca]; exact h.acc_aligned)
      (by show s.memOK st.acca .write = false; rw [hacca]; exact hw) (fun j hj => hm _ (by omega))
    have e : (s.scalar xn).toNat % 8 + 8 * ((s.scalar xn).toNat / 8) = (s.scalar xn).toNat := by omega
    have hreads := readsOf_append (s.scalar xin) 0 ((s.scalar xn).toNat % 8) (8 * ((s.scalar xn).toNat / 8))
    rw [Nat.zero_add, e] at hreads
    have htr : (phaseTrace (s.scalar xn).toNat).dropLast = .init :: .tail :: (alignedTrace ((s.scalar xn).toNat / 8)).dropLast := by
      rw [phaseTrace_tail ht, List.dropLast_append_of_ne_nil (by simp [alignedTrace])]
      rfl
    rw [htr]
    refine updateAccumulator_stop h ⟨u, ?_, h2, ?_, ?_⟩
    · rw [runPhases_phase (by simp [hp]) (by rw [hp, phaseRule]; exact t1)]
      rw [show (State.streamer _).acca = s.scalar xacc from hacca] at h1
      exact h1
    · rw [h3, List.append_assoc, hreads]
      rfl
    · rw [h4]
      simp [State.afterInit]
  · have hp : (s.afterInit (s.scalar xin) (s.scalar xn) (s.scalar xacc)).streamer.phase = .aligned := if_neg ht
    have hz : (s.scalar xn).toNat % 8 = 0 := by omega
    have e : 8 * ((s.scalar xn).toNat / 8) = (s.scalar xn).toNat := by omega
    have hall := runPhases_aligned_write_refused (xin := xin) (xn := xn) (xacc := xacc)
      (input := s.scalar xin) h.input_aligned (q := (s.scalar xn).toNat / 8) (fuel := (s.scalar xn).toNat / 8 + 5)
      (b := 0) (s := s.afterInit (s.scalar xin) (s.scalar xn) (s.scalar xacc)) (by omega) hp
      (by show (s.scalar xn).toNat = _; omega) (blockAddr_zero _).symm (by unfold inRange; omega) (by omega)
      h.acc_aligned hw (fun j hj => by rw [Nat.zero_add]; exact hm j (by omega))
    have htr : (phaseTrace (s.scalar xn).toNat).dropLast = .init :: (alignedTrace ((s.scalar xn).toNat / 8)).dropLast := by
      rw [phaseTrace_no_tail hz, List.dropLast_append_of_ne_nil (by simp [alignedTrace])]
      rfl
    rw [htr]
    rw [e] at hall
    exact updateAccumulator_stop h hall

end Sys2Proof.Machine
end

