-- ==== Sys2Proof/Laws/Whole.lean ====
section
/-! SUPPORT. Said once for all twenty commands: what a command does when it completes, what is left when it stops, and that
`firstFault` tells the two apart. Every rule about the whole machine follows from `exec_completes` and `exec_stops`. -/

namespace Sys2Proof.Machine

/-! What is left of a command -/

/-- ST after a command that completes (R25). -/
def statusAfter (i : Instr) (s : State) : Status :=
  match i with
  | .keyexp _ => s.status.withKpv true
  | .kpld _ => s.status.withKpv true
  | .kpclr => s.status.withKpv false
  | _ => s.status

/-- The phases of a command that completes (R159). -/
def phasesOf (i : Instr) (s : State) : List Phase :=
  match i with
  | .update _ xn _ => phaseTrace (s.scalar xn).toNat
  | _ => []

/-- A command that completes. -/
structure Completes (i : Instr) (s t : State) : Prop where
  status : t.status = statusAfter i s
  finfo : t.finfo = s.finfo
  host : SameHost s t
  accesses : t.accesses = s.accesses ++ accessesOf i s
  phases : t.phases = s.phases ++ phasesOf i s
  fields : ∀ j : FIdx, FIdx.writable j = true → i.dest ≠ some j → ((∃ xin xn xacc, i = .update xin xn xacc) → j ≠ 6) →
    t.field j = s.field j
  scalars : (∀ xd hw imm, i ≠ .setxz xd hw imm ∧ i ≠ .setxk xd hw imm) → SameScalars s t
  keys : (∀ fs1, i ≠ .keyexp fs1) → (∀ xa, i ≠ .kpld xa) → i ≠ .kpclr → SameKeys s t
  canonical : Memory.wf s.mem = true → Memory.wf t.mem = true
  streamer : (s.streamer.phase = .done ∧ s.streamer.pend = false) → t.streamer.phase = .done ∧ t.streamer.pend = false

/-- The accesses made before the first refused one. -/
def admittedAccesses (i : Instr) (s : State) : List Access := (accessesOf i s).takeWhile fun a => s.memOK a.addr a.kind

/-- The phases an UPDATE of `n` blocks has entered when the access after its first `k` ones is refused. -/
def stoppedPhases (n k : Nat) : List Phase :=
  if k = 0 then [.init] else if k ≤ n then messagePhases n (k - 1) else (phaseTrace n).dropLast

/-- The phases of a command that stops on a check. -/
def checkPhases : Instr → List Phase
  | .update _ _ _ => [.init]
  | _ => []

/-- The phases of a command that stops on a refused access. -/
def refusedPhases (i : Instr) (s : State) : List Phase :=
  match i with
  | .update _ xn _ => stoppedPhases (s.scalar xn).toNat (admittedAccesses i s).length
  | _ => []

/-- A command that stops with a fault of code `code`. -/
structure Stops (i : Instr) (s : State) (code : BitVec 4) (info : BitVec 64) (t : Trap) (r : State) : Prop where
  code_eq : t.cause.code = code
  info_eq : t.info = info
  before_access : code ≠ 4 → r.accesses = s.accesses ∧ r.phases = s.phases ++ checkPhases i
  at_access : code = 4 → r.accesses = s.accesses ++ admittedAccesses i s ∧ r.phases = s.phases ++ refusedPhases i s
  memory : (∀ xa, i ≠ .kpst xa) → r.mem = s.mem
  canonical : Memory.wf s.mem = true → Memory.wf r.mem = true

/-- All that a command's work can do, told apart by `firstFault`. -/
def Decided (i : Instr) (s : State) (c : Cmd Unit) : Prop :=
  match firstFault i s with
  | none => ∃ t, c.run s = .ok () t ∧ Completes i s t
  | some p => ∃ t r, c.run s = .error t r ∧ Stops i s p.1 p.2 t r

theorem Decided.of_ok {i : Instr} {s t : State} {c : Cmd Unit} (hf : firstFault i s = none) (h : c.run s = .ok () t)
    (hc : Completes i s t) : Decided i s c := by
  rw [Decided, hf]
  exact ⟨t, h, hc⟩

/-- A check stopped the command: nothing was accessed, nothing written. -/
theorem Decided.of_check {i : Instr} {s r : State} {c : Cmd Unit} {t : Trap} (hf : firstFault i s = some (t.cause.code, t.info))
    (h4 : t.cause ≠ .accessFault) (h : c.run s = .error t r) (ha : r.accesses = s.accesses) (hm : r.mem = s.mem)
    (hp : r.phases = s.phases ++ checkPhases i) : Decided i s c := by
  rw [Decided, hf]
  refine ⟨t, r, h, rfl, rfl, fun _ => ⟨ha, hp⟩, fun h => absurd h ?_, fun _ => hm, fun h => by rwa [hm]⟩
  cases hc : t.cause <;> simp_all [Cause.code]

/-- A refused access stopped the command. -/
theorem Decided.of_refused {i : Instr} {s r : State} {c : Cmd Unit} {a : Addr} (hf : firstFault i s = some (4, a))
    (h : c.run s = .error ⟨.accessFault, a⟩ r) (ha : r.accesses = s.accesses ++ admittedAccesses i s)
    (hp : r.phases = s.phases ++ refusedPhases i s) (hm : (∀ xa, i ≠ .kpst xa) → r.mem = s.mem)
    (hw : Memory.wf s.mem = true → Memory.wf r.mem = true) : Decided i s c := by
  rw [Decided, hf]
  exact ⟨_, r, h, rfl, rfl, fun h => absurd rfl h, fun _ => ⟨ha, hp⟩, hm, hw⟩

/-! The first fault, one check at a time (R189) -/

theorem firstFault_illegal {i : Instr} {s : State} (h : i.wf = false) :
    firstFault i s = some (1, (encode i).setWidth 64) := by rw [firstFault, if_pos h]

theorem firstFault_keys {i : Instr} {s : State} (hw : i.wf = true) (hn : needsKeys i s = true) (hk : s.status.kpv = false) :
    firstFault i s = some (3, 0) := by simp [firstFault, hw, hn, hk]

/-- With the word legal and the keys there, the addresses decide. -/
theorem firstFault_of_keys {i : Instr} {s : State} (hw : i.wf = true) (hk : needsKeys i s = true → s.status.kpv = true) :
    firstFault i s = (misalignment i s).or ((rangeOverrun i s).or (refusedAccess i s)) := by
  have : ¬ (needsKeys i s && !s.status.kpv) = true := by
    cases hn : needsKeys i s with
    | false => simp
    | true => simp [hk hn]
  rw [firstFault, if_neg (by simp [hw]), if_neg this]

theorem aligned16_eq_false_iff (a : Addr) : aligned16 a = false ↔ ¬ a.toNat % 16 = 0 := by
  rw [← aligned16_iff, Bool.not_eq_true]

/-! FieldOps and BMUL -/

theorem State.readable_eq_true_iff (s : State) (i : FIdx) : s.readable i = true ↔ (8 ≤ i.val → s.status.kpv = true) := by
  simp only [State.readable, Bool.or_eq_true, decide_eq_true_eq, ← Nat.not_lt, or_iff_not_imp_left]

/-- A command that writes one field register completes. -/
theorem completes_withField {i : Instr} {fd : FIdx} {s : State} (v : Block) (hd : i.dest = some fd) (ha : accessesOf i s = [])
    (hst : statusAfter i s = s.status) (hp : phasesOf i s = []) : Completes i s (s.withField fd v) where
  status := by simp [hst]
  finfo := by simp
  host := by simp [SameHost]
  accesses := by simp [ha]
  phases := by simp [hp]
  fields j _ h _ := State.field_withField_other s v fun e => h (by rw [hd, e])
  scalars _ _ := by simp
  keys _ _ _ _ _ _ := by simp
  canonical h := by simpa using h
  streamer h := by simpa using h

theorem decided_fieldOp2 {i : Instr} {fd fs1 fs2 : FIdx} {op : Block → Block → Block} {s : State} (hd : i.dest = some fd)
    (hn : needsKeys i s = (decide (8 ≤ fs1.val) || decide (8 ≤ fs2.val))) (ho : operandAddresses i s = [])
    (hb : blockBuffer i s = none) (ha : accessesOf i s = []) (hst : statusAfter i s = s.status) (hp : phasesOf i s = [])
    (hc : checkPhases i = []) : Decided i s (fieldOp2 i fd fs1 fs2 op) := by
  have hwf : i.wf = FIdx.writable fd := by rw [Instr.wf, hd]
  cases hw : FIdx.writable fd with
  | false =>
    exact .of_check (firstFault_illegal (hwf.trans hw)) (by simp) (fieldOp2_illegal hw) rfl rfl (by simp [hc])
  | true =>
    cases h1 : s.readable fs1 with
    | false =>
      refine .of_check (firstFault_keys (hwf.trans hw) ?_ ?_) (by simp) (fieldOp2_keysInvalid hw (.inl h1)) rfl rfl (by simp [hc])
      · simp only [State.readable, Bool.or_eq_false_iff, decide_eq_false_iff_not] at h1
        rw [hn]
        simp only [Bool.or_eq_true, decide_eq_true_eq]
        omega
      · simp only [State.readable, Bool.or_eq_false_iff] at h1
        exact h1.2
    | true =>
      cases h2 : s.readable fs2 with
      | false =>
        refine .of_check (firstFault_keys (hwf.trans hw) ?_ ?_) (by simp) (fieldOp2_keysInvalid hw (.inr h2)) rfl rfl (by simp [hc])
        · simp only [State.readable, Bool.or_eq_false_iff, decide_eq_false_iff_not] at h2
          rw [hn]
          simp only [Bool.or_eq_true, decide_eq_true_eq]
          omega
        · simp only [State.readable, Bool.or_eq_false_iff] at h2
          exact h2.2
      | true =>
        refine .of_ok (t := s.withField fd (op (s.field fs1) (s.field fs2))) ?_ ?_ (completes_withField _ hd ha hst hp)
        · rw [firstFault_of_keys (hwf.trans hw), misalignment, rangeOverrun, refusedAccess, ho, hb, ha]
          · rfl
          · intro h
            rw [hn] at h
            simp only [Bool.or_eq_true, decide_eq_true_eq] at h
            rcases h with h | h
            · exact (s.readable_eq_true_iff fs1).mp h1 h
            · exact (s.readable_eq_true_iff fs2).mp h2 h
        · rw [fieldOp2, Cmd.bind_ok (checkDest_ok hw s), Cmd.bind_ok (readField_ok h1), Cmd.bind_ok (readField_ok h2),
            writeField_apply]

theorem decided_fieldOp1 {i : Instr} {fd fs1 : FIdx} {op : Block → Block} {s : State} (hd : i.dest = some fd)
    (hn : needsKeys i s = decide (8 ≤ fs1.val)) (ho : operandAddresses i s = [])
    (hb : blockBuffer i s = none) (ha : accessesOf i s = []) (hst : statusAfter i s = s.status) (hp : phasesOf i s = [])
    (hc : checkPhases i = []) : Decided i s (fieldOp1 i fd fs1 op) := by
  have hwf : i.wf = FIdx.writable fd := by rw [Instr.wf, hd]
  cases hw : FIdx.writable fd with
  | false =>
    exact .of_check (firstFault_illegal (hwf.trans hw)) (by simp) (fieldOp1_illegal hw) rfl rfl (by simp [hc])
  | true =>
    cases h1 : s.readable fs1 with
    | false =>
      refine .of_check (firstFault_keys (hwf.trans hw) ?_ ?_) (by simp) (fieldOp1_keysInvalid hw h1) rfl rfl (by simp [hc])
      · simp only [State.readable, Bool.or_eq_false_iff, decide_eq_false_iff_not] at h1
        rw [hn]
        simp only [decide_eq_true_eq]
        omega
      · simp only [State.readable, Bool.or_eq_false_iff] at h1
        exact h1.2
    | true =>
      refine .of_ok (t := s.withField fd (op (s.field fs1))) ?_ ?_ (completes_withField _ hd ha hst hp)
      · rw [firstFault_of_keys (hwf.trans hw), misalignment, rangeOverrun, refusedAccess, ho, hb, ha]
        · rfl
        · intro h
          rw [hn] at h
          exact (s.readable_eq_true_iff fs1).mp h1 (of_decide_eq_true h)
      · rw [fieldOp1, Cmd.bind_ok (checkDest_ok hw s), Cmd.bind_ok (readField_ok h1), writeField_apply]

/-! BLOCKMUL -/

theorem decided_blockmul (xa xb : XIdx) (s : State) : Decided (.blockmul xa xb) s (blockMulInMemory xa xb) := by
  have hff := firstFault_of_keys (i := .blockmul xa xb) (s := s) rfl (fun h => by simp [needsKeys, sourcesOf] at h)
  cases ha : aligned16 (s.scalar xa) with
  | false =>
    refine .of_check ?_ (by simp) (blockMulInMemory_misaligned_first ha) rfl rfl (by simp [checkPhases])
    simp [hff, misalignment, operandAddresses, (aligned16_eq_false_iff _).mp ha]
    rfl
  | true =>
    cases hb : aligned16 (s.scalar xb) with
    | false =>
      refine .of_check ?_ (by simp) (blockMulInMemory_misaligned_second ha hb) rfl rfl (by simp [checkPhases])
      simp [hff, misalignment, operandAddresses, (aligned16_iff _).mp ha, (aligned16_eq_false_iff _).mp hb]
      rfl
    | true =>
      have hff' : firstFault (.blockmul xa xb) s = refusedAccess (.blockmul xa xb) s := by
        simp [hff, misalignment, rangeOverrun, operandAddresses, blockBuffer, (aligned16_iff _).mp ha, (aligned16_iff _).mp hb]
      cases h1 : s.memOK (s.scalar xa) .read with
      | false =>
        refine .of_refused ?_ (blockMulInMemory_refused_first ha hb h1) ?_ (by simp [refusedPhases]) (fun _ => rfl) id
        · simp [hff', refusedAccess, accessesOf, h1]
        · simp [admittedAccesses, accessesOf, h1]
      | true =>
        cases h2 : s.memOK (s.scalar xb) .read with
        | false =>
          refine .of_refused ?_ (blockMulInMemory_refused_second ha hb h1 h2) ?_ (by simp [refusedPhases]) (fun _ => rfl) id
          · simp [hff', refusedAccess, accessesOf, h1, h2]
          · simp [admittedAccesses, accessesOf, h1, h2]
        | true =>
          cases h3 : s.memOK (s.scalar xa) .write with
          | false =>
            refine .of_refused ?_ (blockMulInMemory_refused_write ha hb h1 h2 h3) ?_ (by simp [refusedPhases]) (fun _ => rfl) id
            · simp [hff', refusedAccess, accessesOf, h1, h2, h3]
            · simp [admittedAccesses, accessesOf, h1, h2, h3]
          | true =>
            refine .of_ok ?_ (blockMulInMemory_ok ha hb h1 h2 h3) ?_
            · simp [hff', refusedAccess, accessesOf, h1, h2, h3]
            · exact {
                status := by simp [statusAfter]
                finfo := by simp
                host := by simp [SameHost]
                accesses := by simp [accessesOf]
                phases := by simp [phasesOf]
                fields := fun _ _ _ _ => by simp
                scalars := fun _ _ => by simp
                keys := fun _ _ _ _ _ _ => by simp
                canonical := fun h => by
                  rw [State.stored_mem]
                  exact Memory.wf_writeBlock _ (by simpa using h) (aligned16_room ha)
                streamer := fun h => by simpa using h }

/-! LDB and STB -/

theorem decided_ldb (fd : FIdx) (xa : XIdx) (s : State) : Decided (.ldb fd xa) s (loadBlock fd xa) := by
  cases hw : FIdx.writable fd with
  | false =>
    exact .of_check (firstFault_illegal (i := .ldb fd xa) hw) (by simp) (loadBlock_illegal hw) rfl rfl (by simp [checkPhases])
  | true =>
    have hff := firstFault_of_keys (i := .ldb fd xa) (s := s) hw (fun h => by simp [needsKeys, sourcesOf] at h)
    cases ha : aligned16 (s.scalar xa) with
    | false =>
      refine .of_check ?_ (by simp) (loadBlock_misaligned hw ha) rfl rfl (by simp [checkPhases])
      simp [hff, misalignment, operandAddresses, (aligned16_eq_false_iff _).mp ha]
      rfl
    | true =>
      have hff' : firstFault (.ldb fd xa) s = refusedAccess (.ldb fd xa) s := by
        simp [hff, misalignment, rangeOverrun, operandAddresses, blockBuffer, (aligned16_iff _).mp ha]
      cases h1 : s.memOK (s.scalar xa) .read with
      | false =>
        refine .of_refused ?_ (loadBlock_refused hw ha h1) ?_ (by simp [refusedPhases]) (fun _ => rfl) id
        · simp [hff', refusedAccess, accessesOf, h1]
        · simp [admittedAccesses, accessesOf, h1]
      | true =>
        refine .of_ok ?_ (loadBlock_ok hw ha h1) ?_
        · simp [hff', refusedAccess, accessesOf, h1]
        · exact {
            status := by simp [statusAfter]
            finfo := by simp
            host := by simp [SameHost]
            accesses := by simp [accessesOf]
            phases := by simp [phasesOf]
            fields := fun j _ h _ => by
              rw [State.field_withField_other _ _ fun e => h (by rw [Instr.dest, e]), State.logged_field]
            scalars := fun _ _ => by simp
            keys := fun _ _ _ _ _ _ => by simp
            canonical := fun h => by simpa using h
            streamer := fun h => by simpa using h }

theorem decided_stb (fs : FIdx) (xa : XIdx) (s : State) : Decided (.stb fs xa) s (storeBlock fs xa) := by
  cases hr : s.readable fs with
  | false =>
    have hr' := hr
    simp only [State.readable, Bool.or_eq_false_iff, decide_eq_false_iff_not, Nat.not_lt] at hr'
    exact .of_check (firstFault_keys rfl (by simp [needsKeys, sourcesOf, hr'.1]) hr'.2) (by simp) (storeBlock_keysInvalid hr) rfl rfl
      (by simp [checkPhases])
  | true =>
    have hff := firstFault_of_keys (i := .stb fs xa) (s := s) rfl
      (fun h => (s.readable_eq_true_iff fs).mp hr (by simpa [needsKeys, sourcesOf] using h))
    cases ha : aligned16 (s.scalar xa) with
    | false =>
      refine .of_check ?_ (by simp) (storeBlock_misaligned hr ha) rfl rfl (by simp [checkPhases])
      simp [hff, misalignment, operandAddresses, (aligned16_eq_false_iff _).mp ha]
      rfl
    | true =>
      have hff' : firstFault (.stb fs xa) s = refusedAccess (.stb fs xa) s := by
        simp [hff, misalignment, rangeOverrun, operandAddresses, blockBuffer, (aligned16_iff _).mp ha]
      cases h1 : s.memOK (s.scalar xa) .write with
      | false =>
        refine .of_refused ?_ (storeBlock_refused hr ha h1) ?_ (by simp [refusedPhases]) (fun _ => rfl) id
        · simp [hff', refusedAccess, accessesOf, h1]
        · simp [admittedAccesses, accessesOf, h1]
      | true =>
        refine .of_ok ?_ (storeBlock_ok hr ha h1) ?_
        · simp [hff', refusedAccess, accessesOf, h1]
        · exact {
            status := by simp [statusAfter]
            finfo := by simp
            host := by simp [SameHost]
            accesses := by simp [accessesOf]
            phases := by simp [phasesOf]
            fields := fun _ _ _ _ => by simp
            scalars := fun _ _ => by simp
            keys := fun _ _ _ _ _ _ => by simp
            canonical := fun h => by
              rw [State.stored_mem]
              exact Memory.wf_writeBlock _ h (aligned16_room ha)
            streamer := fun h => by simpa using h }

/-! What a table write leaves unchanged -/

theorem State.field_withKeys_writable (s : State) (t : Vector Block 8) {j : FIdx} (hj : FIdx.writable j = true) :
    (s.withKeys t).field j = s.field j := by
  simp only [FIdx.writable, decide_eq_true_eq] at hj
  have h : ¬ j.val < 6 → j.val = 6 := by omega
  simp only [State.field, State.withKeys_f, State.withKeys_accS]
  split
  · rfl
  · rw [if_pos (h ‹_›), if_pos (h ‹_›)]

theorem State.field_withoutKeys_writable (s : State) {j : FIdx} (hj : FIdx.writable j = true) :
    s.withoutKeys.field j = s.field j := by
  simp only [FIdx.writable, decide_eq_true_eq] at hj
  have h : ¬ j.val < 6 → j.val = 6 := by omega
  simp only [State.field, State.withoutKeys_f, State.withoutKeys_accS]
  split
  · rfl
  · rw [if_pos (h ‹_›), if_pos (h ‹_›)]

/-! SETXZ and SETXK -/

theorem completes_withScalar {i : Instr} {xd : XIdx} {s : State} (v : Addr)
    (hi : ∃ hw imm, i = .setxz xd hw imm ∨ i = .setxk xd hw imm) : Completes i s (s.withScalar xd v) := by
  obtain ⟨hw, imm, rfl | rfl⟩ := hi
  all_goals exact {
    status := rfl
    finfo := rfl
    host := ⟨rfl, rfl⟩
    accesses := by simp [accessesOf]
    phases := by simp [phasesOf]
    fields := fun _ _ _ _ => rfl
    scalars := fun h => (by simpa using h xd hw imm)
    keys := fun _ _ _ _ _ _ => rfl
    canonical := id
    streamer := id }

theorem decided_setxz (xd : XIdx) (hw : HalfwordIdx) (imm16 : BitVec 16) (s : State) :
    Decided (.setxz xd hw imm16) s (writeScalar xd (immAtHalfword hw imm16)) :=
  .of_ok rfl (writeScalar_apply _ _ _) (completes_withScalar _ ⟨hw, imm16, .inl rfl⟩)

theorem decided_setxk (xd : XIdx) (hw : HalfwordIdx) (imm16 : BitVec 16) (s : State) :
    Decided (.setxk xd hw imm16) s (keepHalfwords xd hw imm16) :=
  .of_ok rfl rfl (completes_withScalar _ ⟨hw, imm16, .inr rfl⟩)

/-! KEYEXP and KPCLR -/

theorem decided_keyexp (fs1 : FIdx) (s : State) : Decided (.keyexp fs1) s (expandKey fs1) := by
  cases hr : s.readable fs1 with
  | false =>
    have hr' := hr
    simp only [State.readable, Bool.or_eq_false_iff, decide_eq_false_iff_not, Nat.not_lt] at hr'
    exact .of_check (firstFault_keys rfl (by simp [needsKeys, sourcesOf, hr'.1]) hr'.2) (by simp) (expandKey_keysInvalid hr) rfl rfl
      (by simp [checkPhases])
  | true =>
    refine .of_ok ?_ (expandKey_ok hr) ?_
    · rw [firstFault_of_keys rfl fun h => (s.readable_eq_true_iff fs1).mp hr (by simpa [needsKeys, sourcesOf] using h)]
      rfl
    · exact {
        status := rfl
        finfo := rfl
        host := ⟨rfl, rfl⟩
        accesses := by simp [accessesOf]
        phases := by simp [phasesOf]
        fields := fun j hj _ _ => State.field_withKeys_writable _ _ hj
        scalars := fun _ _ => rfl
        keys := fun h => absurd rfl (h fs1)
        canonical := id
        streamer := id }

theorem decided_kpclr (s : State) : Decided .kpclr s (modify State.withoutKeys) :=
  .of_ok rfl (Cmd.modify_apply _ _) {
    status := rfl
    finfo := rfl
    host := ⟨rfl, rfl⟩
    accesses := by simp [accessesOf]
    phases := by simp [phasesOf]
    fields := fun j hj _ _ => State.field_withoutKeys_writable _ hj
    scalars := fun _ _ => rfl
    keys := fun _ _ h => absurd rfl h
    canonical := id
    streamer := id }

/-! KPLD and KPST -/

/-- The first refused access of a run of Blocks, and the accesses before it. -/
theorem first_refused_blocks {s : State} {base : Addr} {kind : AccessKind} {k : Nat} (n b : Nat) (hk : k < n)
    (hm : ∀ j, j < k → s.memOK (blockAddr base (b + j)) kind = true) (hf : s.memOK (blockAddr base (b + k)) kind = false)
    (rest : List Access) :
    (((List.range' b n).map fun i => (⟨kind, blockAddr base i⟩ : Access)) ++ rest).find? (fun a => !s.memOK a.addr a.kind) =
        some ⟨kind, blockAddr base (b + k)⟩ ∧
      (((List.range' b n).map fun i => (⟨kind, blockAddr base i⟩ : Access)) ++ rest).takeWhile (fun a => s.memOK a.addr a.kind) =
        (List.range' b k).map fun i => ⟨kind, blockAddr base i⟩ := by
  induction k generalizing n b with
  | zero =>
    obtain ⟨n, rfl⟩ : ∃ m, n = m + 1 := ⟨n - 1, by omega⟩
    rw [Nat.add_zero] at hf ⊢
    simp [List.range'_succ, hf]
  | succ k ih =>
    obtain ⟨n, rfl⟩ : ∃ m, n = m + 1 := ⟨n - 1, by omega⟩
    have h0 := hm 0 (by omega)
    rw [Nat.add_zero] at h0
    obtain ⟨h1, h2⟩ := ih n (b + 1) (by omega) (fun j hj => by have := hm (j + 1) (by omega); rwa [← Nat.add_assoc, Nat.add_right_comm] at this)
      (by rwa [Nat.add_right_comm])
    rw [show b + 1 + k = b + (k + 1) by omega] at h1
    simp only [List.range'_succ, List.map_cons, List.cons_append]
    rw [List.find?_cons_of_neg (by simp [h0]), List.takeWhile_cons_of_pos (by simpa using h0), h1, h2]
    exact ⟨rfl, rfl⟩

/-- A run of Blocks of which none is refused. -/
theorem admitted_blocks {s : State} {base : Addr} {kind : AccessKind} {n : Nat} (h : s.admitsBlocks base n kind) :
    ∀ a ∈ (List.range' 0 n).map (fun i => (⟨kind, blockAddr base i⟩ : Access)), s.memOK a.addr a.kind = true := by
  intro a ha
  obtain ⟨i, hi, rfl⟩ := List.mem_map.mp ha
  exact h i (by simpa using List.mem_range'_1.mp hi)

theorem decided_kpld (xa : XIdx) (s : State) : Decided (.kpld xa) s (loadKeys xa) := by
  have hff := firstFault_of_keys (i := .kpld xa) (s := s) rfl (fun h => by simp [needsKeys, sourcesOf] at h)
  cases ha : aligned16 (s.scalar xa) with
  | false =>
    refine .of_check ?_ (by simp) (loadKeys_misaligned ha) rfl rfl (by simp [checkPhases])
    simp [hff, misalignment, operandAddresses, (aligned16_eq_false_iff _).mp ha]
    rfl
  | true =>
    have hmis : misalignment (.kpld xa) s = none := by simp [misalignment, operandAddresses, (aligned16_iff _).mp ha]
    rw [hmis, Option.none_or] at hff
    by_cases hr : inRange (s.scalar xa) 8
    · have hrange : rangeOverrun (.kpld xa) s = none := by
        have : ¬ (s.scalar xa).toNat + 16 * 8 > 2 ^ 64 := by unfold inRange at hr; omega
        simp only [rangeOverrun, blockBuffer, Option.filter_some, this, decide_false]
        rfl
      rw [hrange, Option.none_or] at hff
      rcases admitsBlocks_or_first s (s.scalar xa) .read 8 with hm | ⟨k, hk, hm, hf⟩
      · refine .of_ok ?_ (loadKeys_ok ha hr hm) ?_
        · rw [hff, refusedAccess, List.find?_eq_none.mpr fun a h => by simp [admitted_blocks hm a h]]
          rfl
        · exact {
            status := rfl
            finfo := rfl
            host := ⟨rfl, rfl⟩
            accesses := by simp [accessesOf]
            phases := by simp [phasesOf]
            fields := fun j hj _ _ => State.field_withKeys_writable _ _ hj
            scalars := fun _ _ => rfl
            keys := fun _ h => absurd rfl (h xa)
            canonical := id
            streamer := id }
      · obtain ⟨h1, h2⟩ := first_refused_blocks (s := s) (base := s.scalar xa) (kind := .read) (k := k) 8 0 hk
          (fun j hj => by rw [Nat.zero_add]; exact hm j hj) (by rwa [Nat.zero_add]) []
        rw [List.append_nil, Nat.zero_add] at h1
        rw [List.append_nil] at h2
        refine .of_refused ?_ (loadKeys_refused hk ha hr hm hf) ?_ (by simp [refusedPhases]) (fun _ => rfl) id
        · rw [hff, refusedAccess, accessesOf, readsOf, h1]
          rfl
        · exact congrArg (s.accesses ++ ·) h2.symm
    · refine .of_check ?_ (by simp) (loadKeys_range ha hr) rfl rfl (by simp [checkPhases])
      have : (s.scalar xa).toNat + 16 * 8 > 2 ^ 64 := by unfold inRange at hr; omega
      rw [hff, rangeOverrun, blockBuffer, Option.filter_some, if_pos (by simpa using this)]
      rfl

theorem decided_kpst (xa : XIdx) (s : State) : Decided (.kpst xa) s (storeKeys xa) := by
  cases hv : s.status.kpv with
  | false =>
    exact .of_check (firstFault_keys rfl rfl hv) (by simp) (storeKeys_keysInvalid hv) rfl rfl (by simp [checkPhases])
  | true =>
    have hff := firstFault_of_keys (i := .kpst xa) (s := s) rfl (fun _ => hv)
    cases ha : aligned16 (s.scalar xa) with
    | false =>
      refine .of_check ?_ (by simp) (storeKeys_misaligned hv ha) rfl rfl (by simp [checkPhases])
      simp [hff, misalignment, operandAddresses, (aligned16_eq_false_iff _).mp ha]
      rfl
    | true =>
      have hmis : misalignment (.kpst xa) s = none := by simp [misalignment, operandAddresses, (aligned16_iff _).mp ha]
      rw [hmis, Option.none_or] at hff
      have hl : s.kp.toList.length = 8 := by simp
      by_cases hr : inRange (s.scalar xa) 8
      · have hr' : (s.scalar xa).toNat + 16 * 8 ≤ 2 ^ 64 := hr
        have hrange : rangeOverrun (.kpst xa) s = none := by
          have : ¬ (s.scalar xa).toNat + 16 * 8 > 2 ^ 64 := by omega
          simp only [rangeOverrun, blockBuffer, Option.filter_some, this, decide_false]
          rfl
        rw [hrange, Option.none_or] at hff
        rcases admitsBlocks_or_first s (s.scalar xa) .write 8 with hm | ⟨k, hk, hm, hf⟩
        · refine .of_ok ?_ (storeKeys_ok hv ha hr hm) ?_
          · rw [hff, refusedAccess, List.find?_eq_none.mpr fun a h => by simp [admitted_blocks hm a h]]
            rfl
          · exact {
              status := rfl
              finfo := rfl
              host := ⟨rfl, rfl⟩
              accesses := by simp [accessesOf]
              phases := by simp [phasesOf]
              fields := fun _ _ _ _ => rfl
              scalars := fun _ _ => rfl
              keys := fun _ _ _ _ _ _ => rfl
              canonical := fun h => Memory.wf_writeBlocks _ _ _ h (by rw [hl]; omega)
              streamer := id }
        · obtain ⟨h1, h2⟩ := first_refused_blocks (s := s) (base := s.scalar xa) (kind := .write) (k := k) 8 0 hk
            (fun j hj => by rw [Nat.zero_add]; exact hm j hj) (by rwa [Nat.zero_add]) []
          rw [List.append_nil, Nat.zero_add] at h1
          rw [List.append_nil] at h2
          refine .of_refused ?_ (storeKeys_refused hk hv ha hr hm hf) ?_ (by simp [refusedPhases]) (fun h => absurd rfl (h xa))
            fun h => Memory.wf_writeBlocks _ _ _ h (by rw [List.length_take, hl]; omega)
          · rw [hff, refusedAccess, accessesOf, writesOf, h1]
            rfl
          · exact congrArg (s.accesses ++ ·) h2.symm
      · refine .of_check ?_ (by simp) (storeKeys_range hv ha hr) rfl rfl (by simp [checkPhases])
        have : (s.scalar xa).toNat + 16 * 8 > 2 ^ 64 := by unfold inRange at hr; omega
        rw [hff, rangeOverrun, blockBuffer, Option.filter_some, if_pos (by simpa using this)]
        rfl

/-! UPDATE -/

theorem completes_update {xin xn xacc : XIdx} {s t : State} (hs : t.status = s.status) (hf : t.finfo = s.finfo)
    (hi : t.inputs = s.inputs) (hr : t.refused = s.refused) (ha : t.accesses = s.accesses ++ accessesOf (.update xin xn xacc) s)
    (hp : t.phases = s.phases ++ phaseTrace (s.scalar xn).toNat) (h0 : t.f = s.f) (hx : t.x = s.x) (hk : t.kp = s.kp)
    (hw : Memory.wf s.mem = true → Memory.wf t.mem = true) (hst : t.streamer = Streamer.released s.free) :
    Completes (.update xin xn xacc) s t where
  status := hs
  finfo := hf
  host := ⟨hi, hr⟩
  accesses := ha
  phases := hp
  fields j _ _ h := by
    have h6 : j.val ≠ 6 := fun e => h ⟨xin, xn, xacc, rfl⟩ (Fin.ext e)
    simp only [State.field, State.keyPower, h6, if_false, h0, hk]
  scalars _ _ := by simp only [State.scalar, hx]
  keys _ _ _ _ _ _ := by simp only [State.keyPower, hk]
  canonical := hw
  streamer _ := by rw [hst]; exact ⟨rfl, rfl⟩

theorem completes_updated {xin xn xacc : XIdx} {s : State} (hn : 0 < (s.scalar xn).toNat) (ha : aligned16 (s.scalar xacc) = true) :
    Completes (.update xin xn xacc) s (s.updated (s.scalar xin) (s.scalar xn) (s.scalar xacc)) := by
  unfold State.updated
  refine completes_update rfl rfl rfl rfl ?_ rfl rfl rfl rfl (fun h => ?_) rfl
  · rw [accessesOf, if_pos hn]
    simp only [List.append_assoc]
  · dsimp only
    exact Memory.wf_writeBlock _ h (aligned16_room ha)

theorem decided_update (xin xn xacc : XIdx) (s : State) : Decided (.update xin xn xacc) s (updateAccumulator xin xn xacc) := by
  by_cases hn : 0 < (s.scalar xn).toNat
  swap
  · have h0 : (s.scalar xn).toNat = 0 := by omega
    refine .of_ok ?_ (updateAccumulator_zero h0) ?_
    · rw [firstFault_of_keys (i := .update xin xn xacc) rfl fun h => absurd (of_decide_eq_true h) hn]
      simp [misalignment, rangeOverrun, refusedAccess, operandAddresses, blockBuffer, accessesOf, h0]
    · exact completes_update rfl rfl rfl rfl (by simp [accessesOf, h0]) (by rw [h0]) rfl rfl rfl id rfl
  cases hk : s.status.kpv with
  | false =>
    exact .of_check (firstFault_keys rfl (by simp [needsKeys, hn]) hk) (by simp)
      (updateAccumulator_check (phaseInit_keysInvalid hn hk)) rfl rfl (by simp [checkPhases, State.initFields])
  | true =>
    have hff := firstFault_of_keys (i := .update xin xn xacc) (s := s) rfl (fun _ => hk)
    have hmis : misalignment (.update xin xn xacc) s =
        ([s.scalar xin, s.scalar xacc].find? fun a => decide (a.toNat % 16 ≠ 0)).map fun a => (2, a) := by
      rw [misalignment, operandAddresses, if_pos hn]
    cases hi : aligned16 (s.scalar xin) with
    | false =>
      refine .of_check ?_ (by simp) (updateAccumulator_check (phaseInit_misaligned_input hn hk hi)) rfl rfl
        (by simp [checkPhases, State.initFields])
      simp [hff, hmis, (aligned16_eq_false_iff _).mp hi, Cause.code]
      rfl
    | true =>
      cases ha : aligned16 (s.scalar xacc) with
      | false =>
        refine .of_check ?_ (by simp) (updateAccumulator_check (phaseInit_misaligned_acc hn hk hi ha)) rfl rfl
          (by simp [checkPhases, State.initFields])
        simp [hff, hmis, (aligned16_iff _).mp hi, (aligned16_eq_false_iff _).mp ha, Cause.code]
        rfl
      | true =>
        have hmis' : misalignment (.update xin xn xacc) s = none := by
          simp [hmis, (aligned16_iff _).mp hi, (aligned16_iff _).mp ha]
        rw [hmis', Option.none_or] at hff
        by_cases hr : inRange (s.scalar xin) (s.scalar xn).toNat
        swap
        · refine .of_check ?_ (by simp) (updateAccumulator_check (phaseInit_range hn hk hi ha hr)) rfl rfl
            (by simp [checkPhases, State.initFields])
          have : (s.scalar xin).toNat + 16 * (s.scalar xn).toNat > 2 ^ 64 := by unfold inRange at hr; omega
          rw [hff, rangeOverrun, blockBuffer, if_pos hn, Option.filter_some, if_pos (by simpa using this)]
          rfl
        have hrange : rangeOverrun (.update xin xn xacc) s = none := by
          have : ¬ (s.scalar xin).toNat + 16 * (s.scalar xn).toNat > 2 ^ 64 := by unfold inRange at hr; omega
          simp only [rangeOverrun, blockBuffer, if_pos hn, Option.filter_some, this, decide_false]
          rfl
        have hacc : accessesOf (.update xin xn xacc) s =
            ⟨.read, s.scalar xacc⟩ :: (readsOf (s.scalar xin) 0 (s.scalar xn).toNat ++ [⟨.write, s.scalar xacc⟩]) := by
          rw [accessesOf, if_pos hn, List.append_assoc]
          rfl
        rw [hrange, Option.none_or, refusedAccess, hacc] at hff
        cases hm : s.memOK (s.scalar xacc) .read with
        | false =>
          refine .of_refused ?_ (updateAccumulator_check (phaseInit_refused hn hk hi ha hr hm)) ?_ ?_ (fun _ => rfl) id
          · rw [hff, List.find?_cons_of_pos (by simp [hm])]
            rfl
          · simp [admittedAccesses, hacc, hm, State.initFields]
          · simp [refusedPhases, admittedAccesses, hacc, hm, State.initFields, stoppedPhases]
        | true =>
          have hinit : InitPasses xin xn xacc s := ⟨hn, hk, hi, ha, hr, hm⟩
          rw [List.find?_cons_of_neg (by simp [hm])] at hff
          rcases admitsBlocks_or_first s (s.scalar xin) .read (s.scalar xn).toNat with hall | ⟨k, hkn, hbefore, hf⟩
          · rw [List.find?_append, readsOf, List.find?_eq_none.mpr fun a h => by simp [admitted_blocks hall a h], Option.none_or]
              at hff
            cases hw : s.memOK (s.scalar xacc) .write with
            | false =>
              obtain ⟨r, h1, h2, h3, h4⟩ := updateAccumulator_write_refused hinit hall hw
              have hadm : admittedAccesses (.update xin xn xacc) s =
                  ⟨.read, s.scalar xacc⟩ :: readsOf (s.scalar xin) 0 (s.scalar xn).toNat := by
                rw [admittedAccesses, hacc, List.takeWhile_cons_of_pos (by simpa using hm), readsOf,
                  List.takeWhile_append_of_pos (admitted_blocks hall), List.takeWhile_cons_of_neg (by simp [hw]), List.append_nil]
              refine .of_refused ?_ h1 (by rw [h3, hadm]) ?_ (fun _ => h2) fun h => by rwa [h2]
              · rw [hff, List.find?_cons_of_pos (by simp [hw])]
                rfl
              · rw [h4, refusedPhases, hadm, stoppedPhases, if_neg (by simp), if_neg (by simp [readsOf])]
            | true =>
              have hrun : UpdateRuns xin xn xacc s := ⟨hn, hk, hi, ha, hr, hm, hall, hw⟩
              refine .of_ok ?_ (updateAccumulator_ok hrun) ?_
              · rw [hff, List.find?_cons_of_neg (by simp [hw])]
                rfl
              · exact completes_updated hn ha
          · obtain ⟨r, h1, h2, h3, h4⟩ := updateAccumulator_message_refused hinit hkn hbefore hf
            obtain ⟨e1, e2⟩ := first_refused_blocks (s := s) (base := s.scalar xin) (kind := .read) (k := k) (s.scalar xn).toNat 0 hkn
              (fun j hj => by rw [Nat.zero_add]; exact hbefore j hj) (by rwa [Nat.zero_add]) [⟨.write, s.scalar xacc⟩]
            rw [Nat.zero_add] at e1
            have hadm : admittedAccesses (.update xin xn xacc) s = ⟨.read, s.scalar xacc⟩ :: readsOf (s.scalar xin) 0 k := by
              rw [admittedAccesses, hacc, List.takeWhile_cons_of_pos (by simpa using hm), readsOf, e2]
              rfl
            refine .of_refused ?_ h1 (by rw [h3, hadm]) ?_ (fun _ => h2) fun h => by rwa [h2]
            · rw [hff, readsOf, e1]
              rfl
            · have hlen : (readsOf (s.scalar xin) 0 k).length = k := by simp [readsOf]
              rw [h4, refusedPhases, hadm, stoppedPhases, if_neg (by simp), List.length_cons, hlen, if_pos (by omega)]
              rfl

/-! Every command -/

/-- The work behind each arm of `exec`. -/
def workOf : Instr → Cmd Unit
  | .xor fd fs1 fs2 => fieldOp2 (.xor fd fs1 fs2) fd fs1 fs2 fun a b => a ^^^ b
  | .clmulLL fd fs1 fs2 => fieldOp2 (.clmulLL fd fs1 fs2) fd fs1 fs2 fun a b => clmul64 (lo a) (lo b)
  | .clmulLH fd fs1 fs2 => fieldOp2 (.clmulLH fd fs1 fs2) fd fs1 fs2 fun a b => clmul64 (lo a) (hi b)
  | .clmulHL fd fs1 fs2 => fieldOp2 (.clmulHL fd fs1 fs2) fd fs1 fs2 fun a b => clmul64 (hi a) (lo b)
  | .clmulHH fd fs1 fs2 => fieldOp2 (.clmulHH fd fs1 fs2) fd fs1 fs2 fun a b => clmul64 (hi a) (hi b)
  | .swap64 fd fs1 => fieldOp1 (.swap64 fd fs1) fd fs1 swap64
  | .shl64 fd fs1 => fieldOp1 (.shl64 fd fs1) fd fs1 shl64
  | .shr64 fd fs1 => fieldOp1 (.shr64 fd fs1) fd fs1 shr64
  | .reduce fd fph fpl => fieldOp2 (.reduce fd fph fpl) fd fph fpl fun ph pl => reduce ⟨ph, pl⟩
  | .bmul fd fs1 fs2 => fieldOp2 (.bmul fd fs1 fs2) fd fs1 fs2 blockMul
  | .blockmul xa xb => blockMulInMemory xa xb
  | .keyexp fs1 => expandKey fs1
  | .kpld xa => loadKeys xa
  | .kpst xa => storeKeys xa
  | .kpclr => modify State.withoutKeys
  | .update xin xn xacc => updateAccumulator xin xn xacc
  | .ldb fd xa => loadBlock fd xa
  | .stb fs xa => storeBlock fs xa
  | .setxz xd hw imm16 => writeScalar xd (immAtHalfword hw imm16)
  | .setxk xd hw imm16 => keepHalfwords xd hw imm16

theorem exec_eq_command (i : Instr) (s : State) : exec i s = command (workOf i) s := by cases i <;> rfl

theorem decided (i : Instr) (s : State) : Decided i s (workOf i) := by
  cases i with
  | xor _ _ _ => exact decided_fieldOp2 rfl (by simp [needsKeys, sourcesOf]) rfl rfl rfl rfl rfl rfl
  | clmulLL _ _ _ => exact decided_fieldOp2 rfl (by simp [needsKeys, sourcesOf]) rfl rfl rfl rfl rfl rfl
  | clmulLH _ _ _ => exact decided_fieldOp2 rfl (by simp [needsKeys, sourcesOf]) rfl rfl rfl rfl rfl rfl
  | clmulHL _ _ _ => exact decided_fieldOp2 rfl (by simp [needsKeys, sourcesOf]) rfl rfl rfl rfl rfl rfl
  | clmulHH _ _ _ => exact decided_fieldOp2 rfl (by simp [needsKeys, sourcesOf]) rfl rfl rfl rfl rfl rfl
  | swap64 _ _ => exact decided_fieldOp1 rfl (by simp [needsKeys, sourcesOf]) rfl rfl rfl rfl rfl rfl
  | shl64 _ _ => exact decided_fieldOp1 rfl (by simp [needsKeys, sourcesOf]) rfl rfl rfl rfl rfl rfl
  | shr64 _ _ => exact decided_fieldOp1 rfl (by simp [needsKeys, sourcesOf]) rfl rfl rfl rfl rfl rfl
  | reduce _ _ _ => exact decided_fieldOp2 rfl (by simp [needsKeys, sourcesOf]) rfl rfl rfl rfl rfl rfl
  | bmul _ _ _ => exact decided_fieldOp2 rfl (by simp [needsKeys, sourcesOf]) rfl rfl rfl rfl rfl rfl
  | blockmul xa xb => exact decided_blockmul xa xb s
  | keyexp fs1 => exact decided_keyexp fs1 s
  | kpld xa => exact decided_kpld xa s
  | kpst xa => exact decided_kpst xa s
  | kpclr => exact decided_kpclr s
  | update xin xn xacc => exact decided_update xin xn xacc s
  | ldb fd xa => exact decided_ldb fd xa s
  | stb fs xa => exact decided_stb fs xa s
  | setxz xd hw imm16 => exact decided_setxz xd hw imm16 s
  | setxk xd hw imm16 => exact decided_setxk xd hw imm16 s

/-- Every command answers a next state (R182). -/
theorem exec_next (i : Instr) (s : State) : ∃ t, exec i s = .next t := by
  rw [exec_eq_command]
  exact command_next _ _

/-- A command without a first fault completes. -/
theorem exec_completes {i : Instr} {s : State} (h : firstFault i s = none) : ∃ t, exec i s = .next t ∧ Completes i s t := by
  have hd := decided i s
  rw [Decided, h] at hd
  obtain ⟨t, h1, h2⟩ := hd
  exact ⟨t, by rw [exec_eq_command, command_ok h1], h2⟩

/-- A command with a first fault takes it. -/
theorem exec_stops {i : Instr} {s : State} {code : BitVec 4} {info : BitVec 64} (h : firstFault i s = some (code, info)) :
    ∃ t r, exec i s = .next (takeFault t (atRaise s r)) ∧ Stops i s code info t r := by
  have hd := decided i s
  rw [Decided, h] at hd
  obtain ⟨t, r, h1, h2⟩ := hd
  exact ⟨t, r, by rw [exec_eq_command, command_error h1], h2⟩

/-- A command completes, or takes a fault. -/
theorem exec_cases {i : Instr} {s t : State} (h : exec i s = .next t) :
    (firstFault i s = none ∧ Completes i s t) ∨
      ∃ code info tr r, firstFault i s = some (code, info) ∧ t = takeFault tr (atRaise s r) ∧ Stops i s code info tr r := by
  cases hf : firstFault i s with
  | none =>
    obtain ⟨u, h1, h2⟩ := exec_completes hf
    rw [h] at h1
    cases h1
    exact .inl ⟨rfl, h2⟩
  | some p =>
    obtain ⟨tr, r, h1, h2⟩ := exec_stops (code := p.1) (info := p.2) hf
    rw [h] at h1
    cases h1
    exact .inr ⟨p.1, p.2, tr, r, rfl, rfl, h2⟩

/-- A command given while ERR = 0 that leaves ERR = 0 has completed. -/
theorem Completes.of_exec {i : Instr} {s t : State} (h : exec i s = .next t) (ht : t.status.err = false) : Completes i s t := by
  rcases exec_cases h with ⟨-, hc⟩ | ⟨_, _, _, _, -, rfl, -⟩
  · exact hc
  · cases ht

end Sys2Proof.Machine
end

