-- ==== Sys2Proof/Tests/Slice0.lean ====
section
/-! SUPPORT. Tests on fixed values, each expected result copied from the spec (the V numbers are those of spec/95_test_vectors.md),
and for every statement that has hypotheses a witness that meets them all, one for each clause. -/

-- One theorem at a time: many kernel evaluations at once take a thread, and so a stack, each.
set_option Elab.async false

namespace Sys2Proof.Machine.Tests

/-! Well-formedness: a destination 7–15 is refused, for each command that has one (spec/30_encoding.md R83) -/

theorem test_wellFormed_refuses_xor : Instr.wf (.xor 7 0 1) = false := by decide
theorem test_wellFormed_refuses_clmulLL : Instr.wf (.clmulLL 8 0 1) = false := by decide
theorem test_wellFormed_refuses_clmulLH : Instr.wf (.clmulLH 9 0 1) = false := by decide
theorem test_wellFormed_refuses_clmulHL : Instr.wf (.clmulHL 10 0 1) = false := by decide
theorem test_wellFormed_refuses_clmulHH : Instr.wf (.clmulHH 11 0 1) = false := by decide
theorem test_wellFormed_refuses_swap64 : Instr.wf (.swap64 12 0) = false := by decide
theorem test_wellFormed_refuses_shl64 : Instr.wf (.shl64 13 0) = false := by decide
theorem test_wellFormed_refuses_shr64 : Instr.wf (.shr64 14 0) = false := by decide
theorem test_wellFormed_refuses_reduce : Instr.wf (.reduce 15 3 2) = false := by decide
theorem test_wellFormed_refuses_bmul : Instr.wf (.bmul 7 0 1) = false := by decide
theorem test_wellFormed_refuses_ldb : Instr.wf (.ldb 15 3) = false := by decide

theorem test_wellFormed_accepts_S_as_destination : Instr.wf (.xor 6 15 15) = true := by decide

/-! Decoding: V100–V119, the words the spec prints -/

theorem test_decode_xor : decode 0x01201000 = some (.xor 2 0 1) := by decide +kernel
theorem test_decode_clmulLL : decode 0x0267f000 = some (.clmulLL 6 7 15) := by decide +kernel
theorem test_decode_clmulLH : decode 0x02201001 = some (.clmulLH 2 0 1) := by decide +kernel
theorem test_decode_clmulHL : decode 0x02586002 = some (.clmulHL 5 8 6) := by decide +kernel
theorem test_decode_clmulHH : decode 0x02472003 = some (.clmulHH 4 7 2) := by decide +kernel
theorem test_decode_swap64 : decode 0x03400000 = some (.swap64 4 0) := by decide +kernel
theorem test_decode_shl64 : decode 0x04540000 = some (.shl64 5 4) := by decide +kernel
theorem test_decode_shr64 : decode 0x056a0000 = some (.shr64 6 10) := by decide +kernel
theorem test_decode_reduce : decode 0x06032000 = some (.reduce 0 3 2) := by decide +kernel
theorem test_decode_bmul : decode 0x10668000 = some (.bmul 6 6 8) := by decide +kernel
theorem test_decode_blockmul : decode 0x11100000 = some (.blockmul 0 1) := by decide +kernel
theorem test_decode_keyexp : decode 0x20090000 = some (.keyexp 9) := by decide +kernel
theorem test_decode_kpld : decode 0x21800000 = some (.kpld 2) := by decide +kernel
theorem test_decode_kpst : decode 0x22c00000 = some (.kpst 3) := by decide +kernel
theorem test_decode_kpclr : decode 0x23000000 = some (.kpclr) := by decide +kernel
theorem test_decode_update : decode 0x30fc0000 = some (.update 3 3 3) := by decide +kernel
theorem test_decode_ldb : decode 0x40680000 = some (.ldb 6 2) := by decide +kernel
theorem test_decode_stb : decode 0x41fc0000 = some (.stb 15 3) := by decide +kernel
theorem test_decode_setxz : decode 0x4290abcd = some (.setxz 2 1 0xabcd) := by decide +kernel
theorem test_decode_setxk : decode 0x42f8ffff = some (.setxk 3 3 0xffff) := by decide +kernel

/-! Words written out bit by bit from the formats: R3, R2, R1, M, X, I (R72–R77) -/

theorem test_format_R3 : decode 0b00000010_0110_1111_0111_0000000000_10 = some (.clmulHL 6 15 7) ∧ encode (.clmulHL 6 15 7) = 0b00000010_0110_1111_0111_0000000000_10 := by decide +kernel
theorem test_format_R2 : decode 0b00000101_0110_1111_0000000000000000 = some (.shr64 6 15) ∧ encode (.shr64 6 15) = 0b00000101_0110_1111_0000000000000000 := by decide +kernel
theorem test_format_R1 : decode 0b00100000_0000_1000_0000000000000000 = some (.keyexp 8) ∧ encode (.keyexp 8) = 0b00100000_0000_1000_0000000000000000 := by decide +kernel
theorem test_format_M : decode 0b01000001_1111_10_000000000000000000 = some (.stb 15 2) ∧ encode (.stb 15 2) = 0b01000001_1111_10_000000000000000000 := by decide +kernel
theorem test_format_X : decode 0b00110000_01_10_11_000000000000000000 = some (.update 1 2 3) ∧ encode (.update 1 2 3) = 0b00110000_01_10_11_000000000000000000 := by decide +kernel
theorem test_format_I : decode 0b01000010_11_10_1_000_1000000000000001 = some (.setxk 3 2 0x8001) ∧ encode (.setxk 3 2 0x8001) = 0b01000010_11_10_1_000_1000000000000001 := by decide +kernel

/-! V120–V140: the illegal words the spec lists -/

theorem test_illegal_words : ([
    0x00000000, 0xffffffff, 0x01701000, 0x01801000, 0x01201004, 0x01201001,
    0x02201004, 0x03201000, 0x07000000, 0x10700000, 0x11100001, 0x11140000,
    0x20100000, 0x21100000, 0x23000001, 0x30180001, 0x40700000, 0x40f00000,
    0x42010000, 0x420f0000, 0x43000000] : List CmdWord).all (fun w => decode w == none) = true := by
  decide +kernel

/-! One step on a small state -/

/-- What a test looks at in the next state. -/
def look {α : Type} (o : Host.Outcome State Fault Refusal) (g : State → α) : Option α :=
  match o with
  | .next t => some (g t)
  | .fault _ => none
  | .refused _ => none

/-- A of the spec's examples (spec/40_fieldops.md). -/
def exampleA : Block := 0x0123456789abcdeffedcba9876543210

/-- B of the spec's examples. -/
def exampleB : Block := 0x0f1e2d3c4b5a69788796a5b4c3d2e1f0

/-- Memory with Blocks stored at some addresses. -/
def memoryOf (l : List (Nat × Block)) : Memory := l.foldl (fun m p => Memory.writeBlock m p.1 p.2) []

/-- The block after reset with field registers, scalar registers and memory set. -/
def start (f : Vector Block 6) (x : Vector Addr 4) (l : List (Nat × Block)) : State :=
  { State.reset with f := f, x := x, mem := memoryOf l }

/-- The table of R130. -/
def exampleKeys : Vector Block 8 := #v[
  0x7b754bba26f8311d7642925847936225, 0xa5f02136690050d6982ece04d42e0e44, 0x8e483d2790a6c2800057c13b363ae95a,
  0x0d63d263c0caad08593f2763b96be528, 0xb3aa9eaf8fe68a11d6984b30cd82afdb, 0xaf440db883f0c0a90dd16aa9b3dd1f95,
  0x5e1fced63aac2996e975beaedf3eeef7, 0xfcc250a53c16e52bec3b091a65e4e538]

/-- The same with the table of R130 loaded. -/
def keyed (x : Vector Addr 4) (l : List (Nat × Block)) : State :=
  (start #v[exampleA, exampleB, 0, 0, 0, 0] x l).withKeys exampleKeys

/-- F0 = A, F1 = B (spec/40_fieldops.md), the scalar registers at 16-byte-aligned addresses. -/
def twoOperands : State := start #v[exampleA, exampleB, 0x7876974477c298f05dc48cc82e0cff00, 0x000eef3c0fbae08825bcf4b056748778, 0, 0] #v[0x1000, 0x1010, 0x2000, 0x4000]
  [(0x1000, exampleA), (0x1010, exampleB)]

/-- R90's example. -/
theorem test_xor : look (exec (.xor 2 0 1) twoOperands) (fun t => t.field 2) = some 0x0e3d685bc2f1a497794a1f2cb586d3e0 := by decide +kernel

/-- R92's example. -/
theorem test_clmulLL : look (exec (.clmulLL 2 0 1) twoOperands) (fun t => t.field 2) = some 0x7de4ace80e2cdf205dc48cc82e0cff00 := by decide +kernel

/-- R93's example. -/
theorem test_clmulLH : look (exec (.clmulLH 2 0 1) twoOperands) (fun t => t.field 2) = some 0x0504f428368cc7a02524d40816ace780 := by decide +kernel

/-- R94's example. -/
theorem test_clmulHL : look (exec (.clmulHL 2 0 1) twoOperands) (fun t => t.field 2) = some 0x0096cf844f62807020b6efa46f42a050 := by decide +kernel

/-- R95's example. -/
theorem test_clmulHH : look (exec (.clmulHH 2 0 1) twoOperands) (fun t => t.field 2) = some 0x000eef3c0fbae088202ecf1c2f9ac0a8 := by decide +kernel

/-- R97's example. -/
theorem test_swap64 : look (exec (.swap64 2 0) twoOperands) (fun t => t.field 2) = some 0xfedcba98765432100123456789abcdef := by decide +kernel

/-- R98's example. -/
theorem test_shl64 : look (exec (.shl64 2 0) twoOperands) (fun t => t.field 2) = some 0xfedcba98765432100000000000000000 := by decide +kernel

/-- R99's example. -/
theorem test_shr64 : look (exec (.shr64 2 0) twoOperands) (fun t => t.field 2) = some 0x00000000000000000123456789abcdef := by decide +kernel

/-- R100's example. -/
theorem test_reduce : look (exec (.reduce 0 3 2) twoOperands) (fun t => t.field 0) = some 0x5aae7b25d686170da1509437f4a121c6 := by decide +kernel

/-- R112's example. -/
theorem test_bmul : look (exec (.bmul 2 0 1) twoOperands) (fun t => t.field 2) = some 0x5aae7b25d686170da1509437f4a121c6 := by decide +kernel

/-- R112: fd may equal a source, which is read first. -/
theorem test_bmul_in_place : look (exec (.bmul 0 0 1) twoOperands) (fun t => (t.field 0, t.field 1)) =
    some (0x5aae7b25d686170da1509437f4a121c6, exampleB) := by decide +kernel

/-- R92's corner: both low halves 2^63 give bit 126 alone. -/
theorem test_clmul_top_bit : clmul64 0x8000000000000000 0x8000000000000000 = 0x40000000000000000000000000000000 := by
  decide +kernel

/-- R113's example, byte by byte: c6 21 … 5a at 0x1000, op2 unchanged. -/
theorem test_blockmul : look (exec (.blockmul 0 1) twoOperands)
    (fun t => (Memory.read t.mem 0x1000, Memory.read t.mem 0x1001, Memory.read t.mem 0x100f, Memory.readBlock t.mem 0x1010)) =
    some (0xc6, 0x21, 0x5a, exampleB) := by decide +kernel

/-- R121 and the table of R130: KEYEXP of the raw key. -/
theorem test_keyexp : look (exec (.keyexp 0) (start #v[0x7b754bba26f8311d7642925847936225, 0, 0, 0, 0, 0] #v[0, 0, 0, 0] []))
    (fun t => (t.kp, t.status.kpv)) = some (exampleKeys, true) := by decide +kernel

/-- R61, R125: entry 8 of the table at offset 112, its lowest byte first. -/
theorem test_kpst : look (exec (.kpst 3) (keyed #v[0, 0, 0, 0x4000] []))
    (fun t => (Memory.readBlock t.mem 0x4000, Memory.readBlock t.mem 0x4070, Memory.read t.mem 0x4070, Memory.read t.mem 0x4080)) =
    some (0x7b754bba26f8311d7642925847936225, 0xfcc250a53c16e52bec3b091a65e4e538, 0x38, 0) := by decide +kernel

/-- R124: KPLD of an image of two entries and six zero ones. -/
theorem test_kpld : look (exec (.kpld 3) (start #v[0, 0, 0, 0, 0, 0] #v[0, 0, 0, 0x4000] [(0x4000, exampleA), (0x4070, exampleB)]))
    (fun t => (t.field 8, t.field 9, t.field 15, t.status.kpv)) = some (exampleA, 0, exampleB, true) := by decide +kernel

/-- R126. -/
theorem test_kpclr : look (exec .kpclr (keyed #v[0, 0, 0, 0] [])) (fun t => (t.kp[7], t.status.kpv, t.readable 8)) =
    some (0, false, false) := by decide +kernel

/-- V40 (R162): one block. -/
theorem test_update_one_block :
    look (exec (.update 0 1 2) (keyed #v[0x1000, 1, 0x2000, 0] [(0x1000, 0x62a2012dbb621740b6df838c66954f4f)]))
      (fun t => (Memory.readBlock t.mem 0x2000, t.field 6, t.phases)) =
    some (0x776d08511501169c9850ff3745c6dace, 0x776d08511501169c9850ff3745c6dace,
      [.init, .tail, .aligned, .done]) := by decide +kernel

/-- The message of R164, N = 9: the byte at offset o is o. -/
def nineBlocks : List (Nat × Block) := [
  (0x1000, 0x0f0e0d0c0b0a09080706050403020100),
  (0x1010, 0x1f1e1d1c1b1a19181716151413121110),
  (0x1020, 0x2f2e2d2c2b2a29282726252423222120),
  (0x1030, 0x3f3e3d3c3b3a39383736353433323130),
  (0x1040, 0x4f4e4d4c4b4a49484746454443424140),
  (0x1050, 0x5f5e5d5c5b5a59585756555453525150),
  (0x1060, 0x6f6e6d6c6b6a69686766656463626160),
  (0x1070, 0x7f7e7d7c7b7a79787776757473727170),
  (0x1080, 0x8f8e8d8c8b8a89888786858483828180)]

/-- R164, N = 9: a tail of one, then one stride. -/
theorem test_update_nine_blocks :
    look (exec (.update 0 1 2) (keyed #v[0x1000, 9, 0x2000, 0] nineBlocks)) (fun t => (t.field 6, t.phases)) =
    some (0xc5791d66d5e6a36c9b745c9a058f9b51, [.init, .tail, .aligned, .strideFirst, .finalize, .done]) := by
  decide +kernel

/-- R170's example. -/
theorem test_ldb : look (exec (.ldb 0 0) (start #v[0, 0, 0, 0, 0, 0] #v[0x1000, 0, 0, 0] [(0x1000, 0x7b754bba26f8311d7642925847936225)]))
    (fun t => (t.field 0, t.scalar 0)) = some (0x7b754bba26f8311d7642925847936225, 0x1000) := by decide +kernel

/-- R171's example: `STB G` stores 00 … 00 c2 twice. -/
theorem test_stb_G : look (exec (.stb 7 1) twoOperands)
    (fun t => (Memory.read t.mem 0x1010, Memory.read t.mem 0x1016, Memory.read t.mem 0x1017, Memory.read t.mem 0x101f)) =
    some (0, 0, 0xc2, 0xc2) := by decide +kernel

/-- R172's example, and the highest halfword. -/
theorem test_setxz : look (exec (.setxz 1 0 2) twoOperands) (fun t => t.scalar 1) = some 2 ∧
    look (exec (.setxz 1 3 0xffff) twoOperands) (fun t => t.scalar 1) = some 0xffff000000000000 := by decide +kernel

/-- R173's example. -/
theorem test_setxk : look (exec (.setxk 0 1 1) twoOperands) (fun t => t.scalar 0) = some 0x11000 := by decide +kernel

/-- R30: the bits of ST after `Misaligned` with KPV = 1: ERR, code 2 in bits 4:1, KPV in bit 5 (R183, R184). -/
theorem test_status_port_after_misaligned : look (exec (.ldb 0 0) (keyed #v[0x1008, 0, 0, 0] [])) State.statusPort =
    some (0x0025, 0x1008) := by decide +kernel

/-- R30: a step through the command port on an illegal word (V120). -/
theorem test_step_illegal : look (step (twoOperands.withFetchWord 32 0)) State.statusPort = some (0x0003, 0) := by decide +kernel

/-! Witnesses: the states -/

/-- KPV = 0, X0 misaligned, X1 aligned, X2 the last Block, X3 an image that would pass 2^64. -/
def edges : State := start #v[0, 0, 0, 0, 0, 0] #v[0x1008, 0x1000, 0xfffffffffffffff0, 0xffffffffffffff90] []

/-- The same with KPV = 1. -/
def keyedEdges : State := edges.withKeys exampleKeys

/-- KPV = 1; X0 the message of X1 = 9 blocks, which ends with the address space; X2 the `acc` Block; X3 an image that ends there. -/
def busy : State := keyed #v[0xffffffffffffff70, 9, 0x2000, 0xffffffffffffff80] [(0x2000, exampleA)]

/-- The platform refuses all accesses of one kind to the Block at an address. -/
def refusing (s : State) (k : AccessKind) (a : Nat) : State := { s with refused := [⟨k, a, 16⟩] }

/-- A state with one input to come. -/
def handed (s : State) (inp : HostInput) : State := { s with inputs := [inp] }

/-- A halted block (R185). -/
def halted : State := faulted twoOperands 2 0x1008

/-- A state of canonical memory with ERR = 0 and an idle Streamer meets the invariant. -/
theorem inv_of_running {s : State} (hm : Memory.wf s.mem = true) (he : s.status = { err := false, cause := 0, kpv := s.status.kpv })
    (hf : s.finfo = 0) (hs : s.streamer.phase = .done ∧ s.streamer.pend = false) : s.Inv :=
  ⟨hm, fun _ => ⟨by rw [he], hf⟩, fun h => (by rw [he] at h; cases h), hs⟩

theorem busy_inv : busy.Inv := inv_of_running (by decide +kernel) rfl rfl ⟨rfl, rfl⟩

theorem twoOperands_inv : twoOperands.Inv := inv_of_running (by decide +kernel) rfl rfl ⟨rfl, rfl⟩

theorem edges_inv : edges.Inv := inv_of_running (by decide +kernel) rfl rfl ⟨rfl, rfl⟩

theorem keyedEdges_inv : keyedEdges.Inv := inv_of_running (by decide +kernel) rfl rfl ⟨rfl, rfl⟩

theorem busy_keysConsistent : busy.keysConsistent := by
  intro i h1 h7
  interval_cases i <;> decide +kernel

/-- With nothing refused every access is admitted. -/
theorem admits_of_nothing_refused {s : State} (h : s.refused = []) (a : Addr) (k : AccessKind) : s.memOK a k = true := by
  simp [State.memOK, h]

theorem busy_runs : UpdateRuns 0 1 2 busy :=
  ⟨by decide, rfl, by decide +kernel, by decide +kernel, by unfold inRange; decide +kernel, rfl,
    fun _ _ => admits_of_nothing_refused rfl _ _, rfl⟩

/-! Witnesses: one for each statement with hypotheses, and for each of its clauses -/

theorem witness_decodeInvertsEncode : Instr.wf (.stb 15 3) = true ∧ Instr.wf (.setxk 3 3 0xffff) = true := by decide

theorem witness_encodeInvertsDecode : decode 0x41fc0000 = some (.stb 15 3) := by decide +kernel

theorem witness_wordIsCommandIffItsRowMatches : (⟨"STB", 0x41000000, 0xFF03FFFF, false⟩ : OpcodeRow) ∈ opcodeMap := by
  simp [opcodeMap]

theorem witness_illegalWord : (handed twoOperands (.command 0x01701000)).inputs = .command 0x01701000 :: [] ∧
    (handed twoOperands (.command 0x01701000)).status.err = false ∧ decode 0x01701000 = none := by decide +kernel

theorem witness_stepRunsTheDecodedCommand : (handed twoOperands (.command 0x23000000)).inputs = .command 0x23000000 :: [] ∧
    (handed twoOperands (.command 0x23000000)).status.err = false ∧ decode 0x23000000 = some .kpclr ∧
    decodeTableWord 32 0x23000000 = some .kpclr := by decide +kernel

theorem witness_haltedBlockDiscards : (handed halted (.command 0x23000000)).inputs = .command 0x23000000 :: [] ∧
    (handed halted (.command 0x23000000)).status.err = true := by decide

theorem witness_onlyResetClearsErr : (handed halted .reset).status.err = true ∧
    ∃ t, step (handed halted .reset) = .next t ∧ t.status.err = false := ⟨rfl, _, rfl, rfl⟩

theorem witness_haltedBlockIsFrozen : (handed halted (.poke 0 1)).status.err = true ∧
    (∀ rest, (handed halted (.poke 0 1)).inputs ≠ .reset :: rest) ∧ ∃ t, step (handed halted (.poke 0 1)) = .next t :=
  ⟨rfl, fun rest h => by simp [handed] at h, _, rfl⟩

theorem witness_resetInput : (handed halted .reset).inputs = .reset :: [] := rfl

theorem witness_everyStepKeepsTheInvariant : busy.Inv ∧ ∃ t, step busy = .next t := ⟨busy_inv, _, rfl⟩

theorem witness_hostActions : State.reset.inputs = [] ∧ (busy.Inv ∧
    (handed busy (.poke 0xffffffffffffffff 1)).inputs = .poke 0xffffffffffffffff 1 :: []) ∧
    (handed busy (.platform [⟨.read, 0, 2 ^ 64⟩])).inputs = .platform [⟨.read, 0, 2 ^ 64⟩] :: [] := ⟨rfl, ⟨busy_inv, rfl⟩, rfl⟩

theorem witness_commandCompletesOrFaults : twoOperands.status.err = false ∧ Instr.wf (.xor 7 0 1) = false := by decide

/-- No fault, and a fault of each code. -/
theorem witness_faultReported :
    (handed twoOperands (.command 0x23000000)).status.err = false ∧
    faultOfWord 0x23000000 (handed twoOperands (.command 0x23000000)) = none ∧
    faultOfWord 0x00000000 edges = some (1, 0) ∧
    faultOfWord (encode (.stb 8 0)) edges = some (3, 0) ∧
    faultOfWord (encode (.stb 8 0)) keyedEdges = some (2, 0x1008) ∧
    faultOfWord (encode (.kpst 3)) keyedEdges = some (5, 0xffffffffffffff90) ∧
    faultOfWord (encode (.kpst 2)) keyedEdges = some (5, 0xfffffffffffffff0) ∧
    faultOfWord (encode (.ldb 0 2)) (refusing edges .read 0xfffffffffffffff0) = some (4, 0xfffffffffffffff0) := by
  decide +kernel

theorem witness_commandThatCompletes : twoOperands.status.err = false ∧
    ∃ t, exec (.blockmul 0 1) twoOperands = .next t ∧ t.status.err = false := by
  obtain ⟨t, h, hc⟩ := exec_completes (i := .blockmul 0 1) (s := twoOperands) (by decide +kernel)
  exact ⟨rfl, t, h, by rw [hc.status]; rfl⟩

/-- XOR and a register that is not its destination; UPDATE and F5. -/
theorem witness_onlyTheDestination :
    (twoOperands.status.err = false ∧ (∃ t, exec (.xor 0 0 1) twoOperands = .next t ∧ t.status.err = false) ∧
      FIdx.writable 6 = true ∧ Instr.dest (.xor 0 0 1) ≠ some 6 ∧ ¬ ∃ xin xn xacc, Instr.xor 0 0 1 = .update xin xn xacc) ∧
    (busy.status.err = false ∧ (∃ t, exec (.update 0 1 2) busy = .next t ∧ t.status.err = false) ∧
      FIdx.writable 5 = true ∧ Instr.dest (.update 0 1 2) ≠ some 5 ∧ (5 : FIdx) ≠ 6) :=
  ⟨⟨rfl, ⟨_, rfl, rfl⟩, rfl, by decide, by simp⟩, rfl, ⟨_, execUpdate_ok busy_runs, rfl⟩, rfl, by decide, by decide⟩

/-- For the scalar registers and for the table: UPDATE is none of their writers. -/
theorem witness_updateWritesNeither :
    busy.status.err = false ∧ (∃ t, exec (.update 0 1 2) busy = .next t ∧ t.status.err = false) ∧
    (∀ xd hw imm, Instr.update 0 1 2 ≠ .setxz xd hw imm ∧ Instr.update 0 1 2 ≠ .setxk xd hw imm) ∧
    (∀ fs1, Instr.update 0 1 2 ≠ .keyexp fs1) ∧ (∀ xa, Instr.update 0 1 2 ≠ .kpld xa) ∧ Instr.update 0 1 2 ≠ .kpclr :=
  ⟨rfl, ⟨_, execUpdate_ok busy_runs, rfl⟩, by simp, by simp, by simp, by simp⟩

theorem witness_keyValidBit :
    (∃ t, exec (.keyexp 0) twoOperands = .next t ∧ t.status.err = false) ∧
    (∃ t, exec (.kpld 3) busy = .next t ∧ t.status.err = false) ∧ (∃ t, exec .kpclr busy = .next t) ∧
    ((handed busy .reset).inputs = .reset :: [] ∧ ∃ t, step (handed busy .reset) = .next t) ∧
    (∃ t, exec (.xor 0 0 0) busy = .next t ∧ (∀ fs1, Instr.xor 0 0 0 ≠ .keyexp fs1) ∧ (∀ xa, Instr.xor 0 0 0 ≠ .kpld xa) ∧
      Instr.xor 0 0 0 ≠ .kpclr) := by
  obtain ⟨t, h, hc⟩ := exec_completes (i := .kpld 3) (s := busy) (by decide +kernel)
  exact ⟨⟨_, rfl, rfl⟩, ⟨t, h, by rw [hc.status]; rfl⟩, ⟨_, rfl⟩, ⟨rfl, _, rfl⟩, _, rfl, by simp, by simp, by simp⟩

theorem witness_independence :
    let s' : State := { twoOperands with f := #v[0, 0, 0, 0, 0, 0], mem := [] }
    twoOperands.x = s'.x ∧ twoOperands.status = s'.status ∧ twoOperands.finfo = s'.finfo ∧ twoOperands.refused = s'.refused ∧
      twoOperands.accesses = s'.accesses ∧ twoOperands.phases = s'.phases ∧ (∃ t, exec (.blockmul 0 1) twoOperands = .next t) ∧
      ∃ t, exec (.blockmul 0 1) s' = .next t :=
  ⟨rfl, rfl, rfl, rfl, rfl, rfl, exec_next _ _, exec_next _ _⟩

theorem witness_memRead : (0x1001 : Addr).toNat % 16 ≠ 0 ∧
    ((0xfffffffffffffff0 : Addr).toNat % 16 = 0 ∧ (refusing edges .read 0xfffffffffffffff0).memOK 0xfffffffffffffff0 .read = false) ∧
    edges.memOK 0xfffffffffffffff0 .read = true := by decide +kernel

/-- The three clauses of MemWrite, in a state that also meets its premise in the middle of an UPDATE. -/
theorem witness_memWrite : Memory.wf { twoOperands with streamer := { Streamer.reset with phase := .finalize } }.mem = true ∧
    (0x1001 : Addr).toNat % 16 ≠ 0 ∧ (0xfffffffffffffff0 : Addr).toNat % 16 = 0 ∧
    Memory.wf (refusing edges .write 0xfffffffffffffff0).mem = true ∧
    (refusing edges .write 0xfffffffffffffff0).memOK 0xfffffffffffffff0 .write = false ∧
    edges.memOK 0xfffffffffffffff0 .write = true :=
  ⟨twoOperands_inv.memory_canonical, by decide +kernel⟩

/-- For XOR, the CLMULs, the half moves, REDUCE, BMUL and KEYEXP: the highest destination, and KP8 as a source. -/
theorem witness_fieldOps : FIdx.writable 6 = true ∧ busy.readable 15 = true ∧ edges.readable 7 = true ∧
    edges.readable 8 = false := by decide +kernel

theorem witness_blockmul : twoOperands.Inv ∧ edges.Inv ∧
    (aligned16 (twoOperands.scalar 0) = true ∧ aligned16 (twoOperands.scalar 1) = true ∧
      twoOperands.memOK (twoOperands.scalar 0) .read = true ∧ twoOperands.memOK (twoOperands.scalar 1) .read = true ∧
      twoOperands.memOK (twoOperands.scalar 0) .write = true) ∧
    aligned16 (edges.scalar 0) = false ∧ (aligned16 (edges.scalar 1) = true ∧ aligned16 (edges.scalar 0) = false) :=
  ⟨twoOperands_inv, edges_inv, by decide +kernel⟩

theorem refusing_inv {s : State} (k : AccessKind) (a : Nat) (h : s.Inv) : (refusing s k a).Inv := ⟨h.1, h.2, h.3, h.4⟩

theorem witness_blockmul_refused : (∀ k a, (refusing twoOperands k a).Inv) ∧
    let s1 := refusing twoOperands .read 0x1000
    let s2 := refusing twoOperands .read 0x1010
    let s3 := refusing twoOperands .write 0x1000
    (aligned16 (s1.scalar 0) = true ∧ aligned16 (s1.scalar 1) = true ∧ s1.memOK (s1.scalar 0) .read = false) ∧
    (aligned16 (s2.scalar 0) = true ∧ aligned16 (s2.scalar 1) = true ∧ s2.memOK (s2.scalar 0) .read = true ∧
      s2.memOK (s2.scalar 1) .read = false) ∧
    (aligned16 (s3.scalar 0) = true ∧ aligned16 (s3.scalar 1) = true ∧ s3.memOK (s3.scalar 0) .read = true ∧
      s3.memOK (s3.scalar 1) .read = true ∧ s3.memOK (s3.scalar 0) .write = false) :=
  ⟨fun k a => refusing_inv k a twoOperands_inv, by decide +kernel⟩

theorem witness_keyexpTable : edges.readable 7 = true ∧ ∃ t, exec (.keyexp 7) edges = .next t := ⟨by decide, exec_next _ _⟩

/-- KPLD and KPST: an image that ends at 2^64, KPV = 0, a misaligned base, and an image that passes 2^64 by 16 bytes. -/
theorem witness_images : busy.Inv ∧ edges.Inv ∧ keyedEdges.Inv ∧
    (busy.status.kpv = true ∧ aligned16 (busy.scalar 3) = true ∧ inRange (busy.scalar 3) 8 ∧
      busy.admitsBlocks (busy.scalar 3) 8 .read ∧ busy.admitsBlocks (busy.scalar 3) 8 .write) ∧
    edges.status.kpv = false ∧
    (keyedEdges.status.kpv = true ∧ aligned16 (keyedEdges.scalar 0) = false) ∧
    (keyedEdges.status.kpv = true ∧ aligned16 (keyedEdges.scalar 3) = true ∧ ¬ inRange (keyedEdges.scalar 3) 8) :=
  ⟨busy_inv, edges_inv, keyedEdges_inv, ⟨rfl, by decide +kernel, by unfold inRange; decide +kernel,
    fun _ _ => admits_of_nothing_refused rfl _ _, fun _ _ => admits_of_nothing_refused rfl _ _⟩, rfl, ⟨rfl, by decide +kernel⟩, rfl,
    by decide +kernel, by unfold inRange; decide +kernel⟩

/-- The first refused access is the one of the first entry, or of the eighth. -/
theorem witness_images_refused (k : AccessKind) :
    let s1 := refusing busy k 0xffffffffffffff80
    let s8 := refusing busy k 0xfffffffffffffff0
    (s1.Inv ∧ 0 < 8 ∧ s1.status.kpv = true ∧ aligned16 (s1.scalar 3) = true ∧ inRange (s1.scalar 3) 8 ∧
      s1.admitsBlocks (s1.scalar 3) 0 k ∧ s1.memOK (blockAddr (s1.scalar 3) 0) k = false) ∧
    (s8.Inv ∧ 7 < 8 ∧ s8.status.kpv = true ∧ aligned16 (s8.scalar 3) = true ∧ inRange (s8.scalar 3) 8 ∧
      s8.admitsBlocks (s8.scalar 3) 7 k ∧ s8.memOK (blockAddr (s8.scalar 3) 7) k = false) := by
  have hr : inRange (busy.scalar 3) 8 := by
    unfold inRange
    decide +kernel
  have ha : aligned16 (busy.scalar 3) = true := by decide +kernel
  refine ⟨⟨refusing_inv _ _ busy_inv, by decide, rfl, ha, hr, fun i hi => absurd hi (Nat.not_lt_zero i), ?_⟩,
    refusing_inv _ _ busy_inv, by decide, rfl, ha, hr, fun i hi => ?_, ?_⟩
  · cases k <;> decide +kernel
  · interval_cases i <;> cases k <;> decide +kernel
  · cases k <;> decide +kernel

theorem witness_storedTableLoadsBack : ∃ t v, busy.Inv ∧ busy.status.err = false ∧ exec (.kpst 3) busy = .next t ∧
    t.status.err = false ∧ t.mem = t.mem ∧ t.scalar 3 = busy.scalar 3 ∧ exec (.kpld 3) t = .next v ∧ v.status.err = false := by
  obtain ⟨t, h, hc⟩ := exec_completes (i := .kpst 3) (s := busy) (by decide +kernel)
  have ht : t.status.err = false := by rw [hc.status]; rfl
  have hx : ∀ j, t.scalar j = busy.scalar j := hc.scalars (by simp)
  have hp : t.refused = [] := hc.host.2
  obtain ⟨v, h', hc'⟩ := exec_completes (i := .kpld 3) (s := t) (by
    have e : firstFault (.kpld 3) t = firstFault (.kpld 3) busy := by
      have hm : t.memOK = busy.memOK := by funext a k; rw [State.memOK, State.memOK, hp]; rfl
      simp only [firstFault, misalignment, rangeOverrun, refusedAccess, needsKeys, sourcesOf, operandAddresses, blockBuffer,
        accessesOf, hx, hm, List.any_nil, Bool.false_and]
    rw [e]
    decide +kernel)
  exact ⟨t, v, busy_inv, rfl, h, ht, rfl, hx 3, h', by rw [hc'.status]; exact ht⟩

theorem witness_updateOfNoBlocks : State.reset.scalar 3 = 0 := rfl

theorem witness_update : busy.Inv ∧ UpdateRuns 0 1 2 busy ∧ busy.keysConsistent := ⟨busy_inv, busy_runs, busy_keysConsistent⟩

/-- UPDATE's checks: KPV = 0; input misaligned; `acc` misaligned; a message of one block more than the address space holds. -/
theorem witness_updateChecks :
    let long := busy.withScalar 1 10
    (0 < (edges.scalar 2).toNat ∧ edges.status.kpv = false) ∧
    (0 < (keyedEdges.scalar 1).toNat ∧ keyedEdges.status.kpv = true ∧ aligned16 (keyedEdges.scalar 0) = false) ∧
    (keyedEdges.status.kpv = true ∧ aligned16 (keyedEdges.scalar 1) = true ∧ aligned16 (keyedEdges.scalar 0) = false) ∧
    (0 < (long.scalar 1).toNat ∧ long.status.kpv = true ∧ aligned16 (long.scalar 0) = true ∧ aligned16 (long.scalar 2) = true ∧
      ¬ inRange (long.scalar 0) (long.scalar 1).toNat) :=
  ⟨by decide +kernel, by decide +kernel, by decide +kernel, by decide +kernel, rfl, by decide +kernel, by decide +kernel,
    by unfold inRange; decide +kernel⟩

/-- Its checks pass and the first refused access is the read of `acc`, the read of the last block, the write of `acc`. -/
theorem witness_updateRefused (k : AccessKind) (a : Nat) :
    let s := refusing busy k a
    let first := fun s : State => (accessesOf (.update 0 1 2) s).find? (fun a => !s.memOK a.addr a.kind)
    (0 < (s.scalar 1).toNat ∧ s.status.kpv = true ∧ aligned16 (s.scalar 0) = true ∧ aligned16 (s.scalar 2) = true ∧
      inRange (s.scalar 0) (s.scalar 1).toNat) ∧
    first (refusing busy .read 0x2000) = some ⟨.read, 0x2000⟩ ∧
    first (refusing busy .read 0xfffffffffffffff0) = some ⟨.read, 0xfffffffffffffff0⟩ ∧
    first (refusing busy .write 0x2000) = some ⟨.write, 0x2000⟩ :=
  ⟨⟨busy_runs.blocks, rfl, busy_runs.input_aligned, busy_runs.acc_aligned, busy_runs.range⟩, by decide +kernel⟩

/-- The rest of the message of `busy` after its first block, in the memory the first UPDATE left. -/
def busyFirst : State := busy.withScalar 1 1

/-- The same after that UPDATE, its registers set for the rest. -/
def busyRest : State :=
  { busy with x := #v[0xffffffffffffff80, 8, 0x2000, 0], mem := (busyFirst.updated (busyFirst.scalar 0) (busyFirst.scalar 1) (busyFirst.scalar 2)).mem }

theorem witness_updateOfASplitMessage :
    busy.Inv ∧ busy.keysConsistent ∧ UpdateRuns 0 1 2 busy ∧ UpdateRuns 0 1 2 busyFirst ∧ UpdateRuns 0 1 2 busyRest ∧
    busyFirst.mem = busy.mem ∧ (∀ k, busyFirst.keyPower k = busy.keyPower k) ∧ busyFirst.scalar 0 = busy.scalar 0 ∧
    busyFirst.scalar 2 = busy.scalar 2 ∧
    (∃ t1, exec (.update 0 1 2) busyFirst = .next t1 ∧ busyRest.mem = t1.mem) ∧
    (∀ k, busyRest.keyPower k = busy.keyPower k) ∧ busyRest.scalar 2 = busy.scalar 2 ∧
    (busyRest.scalar 0).toNat = (busy.scalar 0).toNat + 16 * (busyFirst.scalar 1).toNat ∧
    (busy.scalar 1).toNat = (busyFirst.scalar 1).toNat + (busyRest.scalar 1).toNat ∧
    (busy.scalar 2).toNat + 16 ≤ (busyRest.scalar 0).toNat ∧
    (∃ t2, exec (.update 0 1 2) busyRest = .next t2) ∧ ∃ t, exec (.update 0 1 2) busy = .next t := by
  have h1 : UpdateRuns 0 1 2 busyFirst := ⟨by decide, rfl, by decide +kernel, by decide +kernel, by unfold inRange; decide +kernel, rfl,
    fun _ _ => admits_of_nothing_refused rfl _ _, rfl⟩
  have h2 : UpdateRuns 0 1 2 busyRest := ⟨by decide, rfl, by decide +kernel, by decide +kernel, by unfold inRange; decide +kernel, rfl,
    fun _ _ => admits_of_nothing_refused rfl _ _, rfl⟩
  exact ⟨busy_inv, busy_keysConsistent, busy_runs, h1, h2, rfl, fun _ => rfl, rfl, rfl, ⟨_, execUpdate_ok h1, by rw [busyRest]⟩, fun _ => rfl, rfl,
    by decide, by decide, by decide, exec_next _ _, exec_next _ _⟩

/-- LDB and STB at the last Block of the address space: they complete; KPV = 0; misaligned; refused. -/
theorem witness_ldb_and_stb : FIdx.writable 6 = true ∧ keyedEdges.Inv ∧ edges.Inv ∧
    (keyedEdges.readable 15 = true ∧ aligned16 (keyedEdges.scalar 2) = true ∧ keyedEdges.memOK (keyedEdges.scalar 2) .read = true ∧
      keyedEdges.memOK (keyedEdges.scalar 2) .write = true) ∧
    edges.readable 8 = false ∧ (keyedEdges.readable 15 = true ∧ aligned16 (keyedEdges.scalar 0) = false) :=
  ⟨rfl, keyedEdges_inv, edges_inv, by decide +kernel⟩

/-- A fault of the highest code, while KPV = 1. -/
theorem witness_statusPort :
    let s := handed keyedEdges (.command (encode (.kpst 3)))
    s.inputs = .command (encode (.kpst 3)) :: [] ∧ s.status.err = false ∧
      faultOfWord (encode (.kpst 3)) s = some (5, 0xffffffffffffff90) := by decide +kernel

theorem witness_ldb_and_stb_refused (k : AccessKind) :
    let s := refusing keyedEdges k 0xfffffffffffffff0
    s.Inv ∧ s.readable 15 = true ∧ aligned16 (s.scalar 2) = true ∧ s.memOK (s.scalar 2) k = false :=
  ⟨refusing_inv _ _ keyedEdges_inv, rfl, by cases k <;> decide +kernel, by cases k <;> decide +kernel⟩

end Sys2Proof.Machine.Tests
end

section
/-! The data path of spec/00_scope.md: the carry-less multiplier by its bits (R14), the constants of the field and its addition
(R16); and what the host and the platform do between commands (R18). -/

namespace Sys2Proof.Machine

open Polynomial

/-! The carry-less product, bit by bit (R14) -/

/-- The pairs of set bits, one of each factor, whose places add up to `k`. -/
def setBitPairs (a b : Half) (k : Nat) : Finset (Nat × Nat) :=
  (Finset.range 64 ×ˢ Finset.range 64).filter fun p => p.1 + p.2 = k ∧ a.getLsbD p.1 = true ∧ b.getLsbD p.2 = true

/-- The pairs may as well be drawn from all that add up to `k`, as the coefficient of a product of polynomials draws them. -/
theorem setBitPairs_eq_antidiagonal (a b : Half) (k : Nat) :
    setBitPairs a b k = (Finset.HasAntidiagonal.antidiagonal k).filter fun p => a.getLsbD p.1 = true ∧ b.getLsbD p.2 = true := by
  ext ⟨i, j⟩
  simp only [setBitPairs, Finset.mem_filter, Finset.mem_product, Finset.mem_range, Finset.HasAntidiagonal.mem_antidiagonal]
  constructor
  · rintro ⟨-, hk, hbits⟩
    exact ⟨hk, hbits⟩
  · rintro ⟨hk, ha, hb⟩
    exact ⟨⟨BitVec.lt_of_getLsbD ha, BitVec.lt_of_getLsbD hb⟩, hk, ha, hb⟩

theorem setBitPairs_127 (a b : Half) : setBitPairs a b 127 = ∅ := by
  simp only [setBitPairs, Finset.filter_eq_empty_iff, Finset.mem_product, Finset.mem_range]
  omega

theorem coeff_poly_mul_poly (a b : Half) (k : Nat) : (poly a * poly b).coeff k = ((setBitPairs a b k).card : ZMod 2) := by
  rw [coeff_mul, setBitPairs_eq_antidiagonal, Finset.natCast_card_filter]
  refine Finset.sum_congr rfl fun p _ => ?_
  rw [poly_coeff, poly_coeff, ite_zero_mul_ite_zero, mul_one]

/-- A bit is set exactly when the coefficient it denotes is 1 (R10). -/
theorem getLsbD_iff_poly_coeff {w : Nat} (v : BitVec w) (k : Nat) : v.getLsbD k = true ↔ (poly v).coeff k = 1 := by
  rw [poly_coeff]
  cases v.getLsbD k <;> simp

theorem getLsbD_clmul64 (a b : Half) (k : Nat) : (clmul64 a b).getLsbD k = decide ((setBitPairs a b k).card % 2 = 1) := by
  rw [Bool.eq_iff_iff, getLsbD_iff_poly_coeff, poly_clmul64, coeff_poly_mul_poly, ZMod.natCast_eq_one_iff_odd, Nat.odd_iff,
    decide_eq_true_iff]

/-- No two places below 64 add up to 127. -/
theorem getLsbD_clmul64_127 (a b : Half) : (clmul64 a b).getLsbD 127 = false := by
  rw [getLsbD_clmul64, setBitPairs_127, Finset.card_empty]
  rfl

/-! The laws of the product, read off the polynomials -/

theorem clmul64_comm (a b : Half) : clmul64 a b = clmul64 b a := by
  apply poly_injective
  rw [poly_clmul64, poly_clmul64, mul_comm]

theorem clmul64_xor_left (a a' b : Half) : clmul64 (a ^^^ a') b = clmul64 a b ^^^ clmul64 a' b := by
  apply poly_injective
  rw [poly_clmul64, poly_xor, poly_xor, poly_clmul64, poly_clmul64, add_mul]

theorem clmul64_zero (a : Half) : clmul64 a 0#64 = 0#128 := by
  apply poly_injective
  rw [poly_clmul64, poly_zero, poly_zero, mul_zero]

theorem clmul64_one (a : Half) : clmul64 a 1#64 = a.setWidth 128 := by
  apply poly_injective
  rw [poly_clmul64, poly_one (by decide), mul_one, poly_setWidth a (by decide)]

/-- Settles O31: `clmul64` multiplies polynomials, so its bits are the coefficients of the product and its laws are those of
polynomial multiplication. -/
theorem clmul64IsTheCarrylessProduct : Obligations.Clmul64IsTheCarrylessProduct := by
  unfold Obligations.Clmul64IsTheCarrylessProduct
  exact ⟨fun a b k _ => getLsbD_clmul64 a b k, getLsbD_clmul64_127, clmul64_comm, clmul64_xor_left, clmul64_zero, clmul64_one⟩

/-! The constants of the field (R16) -/

@[simp] theorem elem_one : elem 1#128 = 1 := by simp [elem, poly_one]

/-- `reduce` sends (1, 0xc2…01) to 0: both denote x^128, and they cancel (R105). -/
theorem reduce_one_c2 : reduce ⟨1#128, 0xc2000000000000000000000000000001#128⟩ = 0#128 := by decide +kernel

theorem elem_c2 : elem 0xc2000000000000000000000000000001#128 = fieldX ^ 128 := by
  have cancel := elem_reduce_mul ⟨1#128, 0xc2000000000000000000000000000001#128⟩
  rw [reduce_one_c2, elem_zero, elem_one, zero_mul, one_mul] at cancel
  have twice : elem 0xc2000000000000000000000000000001#128 + elem 0xc2000000000000000000000000000001#128 = 0 := by
    rw [← elem_xor, BitVec.xor_self, elem_zero]
  linear_combination twice + cancel

/-- Settles O34: the two constants are what `reduce` makes of them, and the element of a Block is additive and injective. -/
theorem fieldConstantsAndAddition : Obligations.FieldConstantsAndAddition := by
  unfold Obligations.FieldConstantsAndAddition
  exact ⟨elem_c2, xInv128_mul, elem_xor, fun _ _ => elem_injective⟩

/-! One step on each input that is not a command (R18) -/

theorem step_of_inputs_nil {s : State} (h : s.inputs = []) : step s = .next s := by
  simp [step, takeInput, h]

theorem step_of_inputs_cons {s : State} {inp : HostInput} {rest : List HostInput} (h : s.inputs = inp :: rest) :
    step s = acceptInput inp { s with inputs := rest } := by
  simp [step, takeInput, h]

/-- The state after the host's write of one byte, which takes the input from the list. -/
def State.poked (s : State) (a : Addr) (b : Byte) (rest : List HostInput) : State :=
  { s with inputs := rest, mem := Memory.write s.mem a.toNat b }

theorem step_poke {s : State} {a : Addr} {b : Byte} {rest : List HostInput} (h : s.inputs = .poke a b :: rest) :
    step s = .next (s.poked a b rest) := step_of_inputs_cons h

theorem step_platform {s : State} {ws : List Window} {rest : List HostInput} (h : s.inputs = .platform ws :: rest) :
    step s = .next { s with inputs := rest, refused := ws } := step_of_inputs_cons h

section Poked

variable (s : State) (a : Addr) (b : Byte) (rest : List HostInput)

theorem read_poked_same (hs : s.Inv) : Memory.read (s.poked a b rest).mem a.toNat = b :=
  Memory.read_write_same b hs.memory_canonical

theorem sameMemoryOutside_poked : SameMemoryOutside a.toNat 1 s (s.poked a b rest) := fun _ outside =>
  Memory.read_write_other s.mem b (by omega)

theorem sameRegisters_poked : SameRegisters s (s.poked a b rest) := ⟨fun _ _ => rfl, fun _ _ _ => rfl, fun _ => rfl⟩

theorem sameStatus_poked : SameStatus s (s.poked a b rest) := ⟨rfl, rfl⟩

theorem sameStreamer_poked : SameStreamer s (s.poked a b rest) := ⟨rfl, rfl, rfl⟩

end Poked

/-- Settles O15: waiting and a platform change give the state written out, and a host's write touches one byte of memory. -/
theorem hostActionsBetweenCommandsTouchNoRegister : Obligations.HostActionsBetweenCommandsTouchNoRegister := by
  unfold Obligations.HostActionsBetweenCommandsTouchNoRegister
  refine ⟨fun _ => step_of_inputs_nil, fun s a b rest hs hin => ?_, fun _ _ _ => step_platform⟩
  exact ⟨s.poked a b rest, step_poke hin, read_poked_same s a b rest hs, sameMemoryOutside_poked s a b rest,
    sameRegisters_poked s a b rest, sameStatus_poked s a b rest, sameStreamer_poked s a b rest, rfl, rfl, rfl⟩

end Sys2Proof.Machine
end

section
/-! The state of spec/10_state.md: the invariant, one kind of input at a time (R30, R31, R33); which registers a command that
completes may write (R21, R25, R28, R29); the index map (R26); reset (R39); and the status port (R30, R197). -/

namespace Sys2Proof.Machine

/-! The invariant: what each outcome of a step leaves (R30, R31, R33, R183) -/

theorem Cause.code_range (c : Cause) : 1 ≤ c.code.toNat ∧ c.code.toNat ≤ 5 := by cases c <;> decide

/-- The invariant does not look at what the host does next. -/
theorem State.Inv.withInputs {s : State} (hs : s.Inv) (rest : List HostInput) : State.Inv { s with inputs := rest } :=
  ⟨hs.memory_canonical, hs.no_record_while_running, hs.cause_while_halted, hs.streamer_idle⟩

/-- A fault writes a record of its own, so of the state before it only memory and the Streamer matter. -/
theorem inv_takeFault {s : State} (t : Trap) (hm : Memory.wf s.mem = true)
    (hst : s.streamer.phase = .done ∧ s.streamer.pend = false) : (takeFault t s).Inv where
  memory_canonical := hm
  no_record_while_running h := by simp at h
  cause_while_halted _ := t.cause.code_range
  streamer_idle := hst

theorem inv_resetBlock {s : State} (hm : Memory.wf s.mem = true) : (resetBlock s).Inv where
  memory_canonical := hm
  no_record_while_running _ := ⟨rfl, rfl⟩
  cause_while_halted h := by simp at h
  streamer_idle := ⟨rfl, rfl⟩

theorem State.Inv.poked {s : State} (hs : s.Inv) (a : Addr) (b : Byte) (rest : List HostInput) : (s.poked a b rest).Inv where
  memory_canonical := Memory.wf_write b hs.memory_canonical a.isLt
  no_record_while_running := hs.no_record_while_running
  cause_while_halted := hs.cause_while_halted
  streamer_idle := hs.streamer_idle

/-! A command touches of ST only KPV, unless it faults (R25, R184) -/

theorem statusAfter_eq_withKpv (i : Instr) (s : State) : ∃ b, statusAfter i s = s.status.withKpv b := by
  unfold statusAfter
  split
  · exact ⟨true, rfl⟩
  · exact ⟨true, rfl⟩
  · exact ⟨false, rfl⟩
  · exact ⟨s.status.kpv, rfl⟩

@[simp] theorem statusAfter_err (i : Instr) (s : State) : (statusAfter i s).err = s.status.err := by
  obtain ⟨b, h⟩ := statusAfter_eq_withKpv i s
  rw [h, Status.withKpv_err]

@[simp] theorem statusAfter_cause (i : Instr) (s : State) : (statusAfter i s).cause = s.status.cause := by
  obtain ⟨b, h⟩ := statusAfter_eq_withKpv i s
  rw [h, Status.withKpv_cause]

theorem Completes.inv {i : Instr} {s t : State} (hc : Completes i s t) (hs : s.Inv) : t.Inv where
  memory_canonical := hc.canonical hs.memory_canonical
  no_record_while_running := by
    rw [hc.status, hc.finfo, statusAfter_err, statusAfter_cause]
    exact hs.no_record_while_running
  cause_while_halted := by
    rw [hc.status, statusAfter_err, statusAfter_cause]
    exact hs.cause_while_halted
  streamer_idle := hc.streamer hs.streamer_idle

theorem Stops.inv {i : Instr} {s r : State} {code : BitVec 4} {info : BitVec 64} {t : Trap} (h : Stops i s code info t r)
    (hs : s.Inv) : (takeFault t (atRaise s r)).Inv :=
  inv_takeFault t (h.canonical hs.memory_canonical) hs.streamer_idle

theorem exec_keeps_inv {i : Instr} {s t : State} (hs : s.Inv) (h : exec i s = .next t) : t.Inv := by
  rcases exec_cases h with ⟨-, completes⟩ | ⟨_, _, _, _, -, rfl, stops⟩
  · exact completes.inv hs
  · exact stops.inv hs

/-! A command word by its three fates: discarded, illegal, executed (R185, R190) -/

theorem acceptCommand_of_halted {s : State} (w : CmdWord) (he : s.status.err = true) : acceptCommand w s = .next s := by
  rw [acceptCommand, if_pos he]

theorem acceptCommand_of_illegal {s : State} {w : CmdWord} (he : s.status.err = false) (hd : decode w = none) :
    acceptCommand w s = .next (takeFault ⟨.illegalCommand, w.setWidth 64⟩ s) := by
  simp [acceptCommand, he, hd]

theorem acceptCommand_of_decode {s : State} {w : CmdWord} {i : Instr} (he : s.status.err = false) (hd : decode w = some i) :
    acceptCommand w s = exec i s := by
  simp [acceptCommand, he, hd]

theorem acceptCommand_keeps_inv {w : CmdWord} {s t : State} (hs : s.Inv) (h : acceptCommand w s = .next t) : t.Inv := by
  cases he : s.status.err with
  | true =>
    rw [acceptCommand_of_halted w he] at h
    cases h
    exact hs
  | false =>
    cases hd : decode w with
    | none =>
      rw [acceptCommand_of_illegal he hd] at h
      cases h
      exact inv_takeFault _ hs.memory_canonical hs.streamer_idle
    | some i =>
      rw [acceptCommand_of_decode he hd] at h
      exact exec_keeps_inv hs h

theorem step_reset {s : State} {rest : List HostInput} (h : s.inputs = .reset :: rest) :
    step s = .next (resetBlock { s with inputs := rest }) := step_of_inputs_cons h

theorem step_command {s : State} {w : CmdWord} {rest : List HostInput} (h : s.inputs = .command w :: rest) :
    step s = acceptCommand w { s with inputs := rest } := step_of_inputs_cons h

/-- Settles O14: the invariant is kept by waiting and by each of the four kinds of input; for a command that is the case split of
`exec_cases` into completion and fault. -/
theorem everyStepKeepsTheInvariant : Obligations.EveryStepKeepsTheInvariant := by
  unfold Obligations.EveryStepKeepsTheInvariant
  intro s t hs h
  cases hin : s.inputs with
  | nil =>
    rw [step_of_inputs_nil hin] at h
    cases h
    exact hs
  | cons inp rest =>
    cases inp with
    | command w =>
      rw [step_command hin] at h
      exact acceptCommand_keeps_inv (hs.withInputs rest) h
    | reset =>
      rw [step_reset hin] at h
      cases h
      exact inv_resetBlock hs.memory_canonical
    | poke a b =>
      rw [step_poke hin] at h
      cases h
      exact hs.poked a b rest
    | platform ws =>
      rw [step_platform hin] at h
      cases h
      exact ⟨hs.memory_canonical, hs.no_record_while_running, hs.cause_while_halted, hs.streamer_idle⟩

/-! Which registers a command that completes writes (R21, R25, R28, R29) -/

/-- Settles O19: it is a clause of `Completes`. -/
theorem onlyTheDestinationFieldRegisterChanges : Obligations.OnlyTheDestinationFieldRegisterChanges := by
  unfold Obligations.OnlyTheDestinationFieldRegisterChanges
  intro i s t _ h ht
  exact (Completes.of_exec h ht).fields

/-- Settles O20: it is a clause of `Completes`. -/
theorem onlySetxWritesScalarRegisters : Obligations.OnlySetxWritesScalarRegisters := by
  unfold Obligations.OnlySetxWritesScalarRegisters
  intro i s t _ h ht
  exact (Completes.of_exec h ht).scalars

theorem statusAfter_of_not_tableWriter {i : Instr} (s : State) (hexp : ∀ fs1, i ≠ .keyexp fs1) (hld : ∀ xa, i ≠ .kpld xa)
    (hclr : i ≠ .kpclr) : statusAfter i s = s.status := by
  unfold statusAfter
  split
  · exact absurd rfl (hexp _)
  · exact absurd rfl (hld _)
  · exact absurd rfl hclr
  · rfl

theorem exec_kpclr (s : State) : exec .kpclr s = .next s.withoutKeys := command_ok (Cmd.modify_apply _ _)

/-- Settles O21: on completion KPV is that of `statusAfter`, a fault keeps it, and KPCLR and reset cannot fault. -/
theorem keyValidBitIsSetAndClearedAsStated : Obligations.KeyValidBitIsSetAndClearedAsStated := by
  unfold Obligations.KeyValidBitIsSetAndClearedAsStated
  refine ⟨?keyexp, ?kpld, ?kpclr, ?reset, ?others⟩
  case keyexp =>
    intro fs1 s t _ h ht
    rw [(Completes.of_exec h ht).status]
    rfl
  case kpld =>
    intro xa s t _ h ht
    rw [(Completes.of_exec h ht).status]
    rfl
  case kpclr =>
    intro s t h
    rw [exec_kpclr] at h
    cases h
    rfl
  case reset =>
    intro s t rest hin h
    rw [step_reset hin] at h
    cases h
    rfl
  case others =>
    intro i s t h hexp hld hclr
    rcases exec_cases h with ⟨-, completes⟩ | ⟨_, _, _, _, -, rfl, -⟩
    · rw [completes.status, statusAfter_of_not_tableWriter s hexp hld hclr]
    · rfl

/-! The status port (R30, R31, R197) -/

/-- The fault a word reports does not depend on what the host does after it. -/
theorem faultOfWord_withInputs (w : CmdWord) (s : State) (rest : List HostInput) :
    faultOfWord w { s with inputs := rest } = faultOfWord w s := rfl

/-- What a word that faults leaves in the two registers the host can read (R183, R184). -/
theorem acceptCommand_of_fault {s : State} {w : CmdWord} {code : BitVec 4} {info : BitVec 64} (he : s.status.err = false)
    (hf : faultOfWord w s = some (code, info)) :
    ∃ t, acceptCommand w s = .next t ∧
      t.status.err = true ∧ t.status.cause = code ∧ t.status.kpv = s.status.kpv ∧ t.finfo = info := by
  unfold faultOfWord at hf
  cases hd : decode w with
  | none =>
    rw [hd] at hf
    cases hf
    exact ⟨_, acceptCommand_of_illegal he hd, rfl, rfl, rfl, rfl⟩
  | some i =>
    rw [hd] at hf
    obtain ⟨tr, r, hexec, stops⟩ := exec_stops hf
    exact ⟨_, (acceptCommand_of_decode he hd).trans hexec, rfl, stops.code_eq, rfl, stops.info_eq⟩

/-- Settles O58: the port shows the fields of ST at their places in every state, so after a fault it shows the record. -/
theorem statusPortShowsStAndFinfo : Obligations.StatusPortShowsStAndFinfo := by
  unfold Obligations.StatusPortShowsStAndFinfo
  refine ⟨fun s => by simp, fun s w rest code info hin he hf => ?_⟩
  rw [← faultOfWord_withInputs w s rest] at hf
  obtain ⟨t, haccept, herr, hcause, hkpv, hinfo⟩ := acceptCommand_of_fault (s := { s with inputs := rest }) he hf
  exact ⟨t, (step_command hin).trans haccept, by simp [herr, hcause, hkpv, hinfo]⟩

/-! Reset (R39, R210, R211) -/

/-- Index 7 reads the constant G, both halves `G64` (R23). -/
theorem State.field_seven (s : State) : s.field 7 = 0xc200000000000000c200000000000000 := by
  show Config.gstar = _
  decide

@[simp] theorem Status.word_reset : Status.reset.word = 0 := by decide

/-- Settles O11: the state after a reset input is `resetBlock` of the state before. -/
theorem resetInputLeavesTheSpecsValues : Obligations.ResetInputLeavesTheSpecsValues := by
  unfold Obligations.ResetInputLeavesTheSpecsValues
  intro s rest hin
  exact ⟨_, step_reset hin, Status.word_reset, rfl, rfl, rfl, State.field_seven _, rfl, rfl, rfl, rfl⟩

/-- Settles O12: KPV is 0 in `State.reset`, so none of KP1–KP8 is readable. -/
theorem resetStateHoldsTheSpecsValues : Obligations.ResetStateHoldsTheSpecsValues := by
  unfold Obligations.ResetStateHoldsTheSpecsValues
  refine ⟨rfl, rfl, rfl, State.field_seven _, fun i hi => ?_⟩
  rw [← Bool.not_eq_true, State.readable_eq_true_iff]
  exact fun h => Bool.false_ne_true (h hi)

/-- Settles O13. -/
theorem resetStateMeetsTheInvariant : Obligations.ResetStateMeetsTheInvariant where
  memory_canonical := rfl
  no_record_while_running _ := ⟨rfl, rfl⟩
  cause_while_halted h := absurd h Bool.false_ne_true
  streamer_idle := ⟨rfl, rfl⟩

/-! The index map (R26, R27) -/

theorem wf_of_decode {w : CmdWord} {i : Instr} (h : decode w = some i) : i.wf = true := by
  unfold decode at h
  split at h
  · split at h
    · rename_i hwf
      cases h
      exact hwf
    · cases h
  · cases h

theorem FIdx.writable_iff (i : FIdx) : FIdx.writable i = true ↔ i.val ≤ 6 := decide_eq_true_iff

theorem decode_dest_le_six {w : CmdWord} {i : Instr} {fd : FIdx} (h : decode w = some i) (hfd : i.dest = some fd) :
    fd.val ≤ 6 := by
  have hwf := wf_of_decode h
  rw [Instr.wf, hfd] at hwf
  exact (FIdx.writable_iff fd).mp hwf

theorem State.field_low (s : State) (i : Fin 6) : s.field (Fin.castLE (by decide) i) = s.f[i] := dif_pos i.isLt

theorem State.field_high (s : State) (k : Fin 8) : s.field (Fin.natAdd 8 k) = s.kp[k] := by
  simp [State.field, State.keyPower]

theorem readField_run (s : State) (i : FIdx) :
    (readField i).run s =
      if 8 ≤ i.val ∧ s.status.kpv = false then .error ⟨.keysInvalid, 0⟩ s else .ok (s.field i) s := by
  have hread := s.readable_eq_true_iff i
  split
  · next hbad =>
    refine readField_error (Bool.eq_false_iff.mpr fun h => ?_)
    simp [hread.mp h hbad.1] at hbad
  · next hok => exact readField_ok (hread.mpr fun hi => by simpa [hi] using hok)

/-- Settles O24: row by row of the index map; the destinations by the decoder's own check. -/
theorem fieldRegisterIndexMap : Obligations.FieldRegisterIndexMap := by
  unfold Obligations.FieldRegisterIndexMap
  intro s
  exact ⟨s.field_low, rfl, s.field_seven, s.field_high, s.readable_eq_true_iff, FIdx.writable_iff, readField_run s,
    fun _ _ _ => decode_dest_le_six⟩

end Sys2Proof.Machine
end

section
/-! Accesses and memory (spec/20_memory.md): `MemRead` and `MemWrite` byte by byte (R52, R54, R55), the table of accesses (R51, R63),
and the image of the key table that KPST stores and KPLD loads (R61, R124, R125). -/

namespace Sys2Proof.Machine

/-! The accesses of a command (R51, R63) -/

/-- Settles O18: it is a clause of `Completes`. -/
theorem accessesAreThoseOfTheTable : Obligations.AccessesAreThoseOfTheTable := by
  unfold Obligations.AccessesAreThoseOfTheTable
  intro i s t _ h ht
  exact (Completes.of_exec h ht).accesses

/-! MemRead and MemWrite (R54, R55) -/

/-- Byte `i` of the Block at an address is the byte `i` places on: the lowest address is least significant (R52). -/
theorem Memory.byte_readBlock (m : Memory) (a : Nat) {i : Nat} (hi : i < 16) :
    Block.byte (Memory.readBlock m a) i = Memory.read m (a + i) := by
  apply BitVec.eq_of_getLsbD_eq
  intro k hk
  have hdiv : (8 * i + k) / 8 = i := by omega
  have hmod : (8 * i + k) % 8 = k := by omega
  rw [Block.byte, BitVec.getLsbD_extractLsb', Memory.getLsbD_readBlock m a _ (by omega), hdiv, hmod, decide_eq_true hk,
    Bool.true_and]

/-- Settles O25: the three outcomes of `memRead`, and the bytes of the value it completes with. -/
theorem memReadIsSixteenBytesLittleEndian : Obligations.MemReadIsSixteenBytesLittleEndian := by
  unfold Obligations.MemReadIsSixteenBytesLittleEndian
  intro a s
  refine ⟨fun h => memRead_misaligned ((aligned16_eq_false_iff a).mpr h),
    fun h hm => memRead_refused ((aligned16_iff a).mpr h) hm, fun h hm => ?_⟩
  exact ⟨_, _, memRead_ok ((aligned16_iff a).mpr h) hm, rfl, fun _ hi => Memory.byte_readBlock s.mem a.toNat hi⟩

/-- Settles O26: the three outcomes of `memWrite`; a stored Block reads back byte by byte, and an aligned address leaves room for it. -/
theorem memWriteStoresSixteenBytesLittleEndian : Obligations.MemWriteStoresSixteenBytesLittleEndian := by
  unfold Obligations.MemWriteStoresSixteenBytesLittleEndian
  intro a v s hs
  refine ⟨fun h => memWrite_misaligned ((aligned16_eq_false_iff a).mpr h),
    fun h hm => memWrite_refused ((aligned16_iff a).mpr h) hm, fun h hm => ?_⟩
  have ha : aligned16 a = true := (aligned16_iff a).mpr h
  refine ⟨s.stored a v, memWrite_ok ha hm, rfl, fun i hi => ?_, sameMemoryOutside_stored s a v, ?_⟩
  · rw [State.stored_mem]
    exact Memory.read_writeBlock_same v hs (aligned16_room ha) hi
  · rw [State.stored_mem]
    exact Memory.wf_writeBlock v hs (aligned16_room ha)

/-! The image of the table: what a KPST or a KPLD that completes has done (R61, R124, R125) -/

/-- A command that leaves ERR = 0 has done its work to the end: a fault would have set ERR (R184). -/
theorem command_completed {c : Cmd Unit} {s t : State} (h : command c s = .next t) (ht : t.status.err = false) :
    c.run s = .ok () t := by
  rcases command_cases h with hok | ⟨_, _, -, rfl⟩
  · exact hok
  · simp at ht

/-- `KP[k]` is component k - 1 of the table (R24). -/
theorem State.keyPower_eq_getElem (s : State) {k : Nat} (h : k - 1 < 8) : s.keyPower k = s.kp[k - 1] := dif_pos h

/-- A KPST that completes has found its buffer inside the address space and written the eight entries. -/
theorem storeKeys_completed {xa : XIdx} {s t : State} (h : (storeKeys xa).run s = .ok () t) :
    inRange (s.scalar xa) 8 ∧
      t = { s with
        mem := Memory.writeBlocks s.mem (s.scalar xa).toNat s.kp.toList 0
        accesses := s.accesses ++ writesOf (s.scalar xa) 0 8 } := by
  cases hv : s.status.kpv with
  | false => simp [storeKeys_keysInvalid hv] at h
  | true =>
    cases ha : aligned16 (s.scalar xa) with
    | false => simp [storeKeys_misaligned hv ha] at h
    | true =>
      by_cases hr : inRange (s.scalar xa) 8
      · rcases admitsBlocks_or_first s (s.scalar xa) .write 8 with hm | ⟨k, hk, hm, hf⟩
        · rw [storeKeys_ok hv ha hr hm] at h
          cases h
          exact ⟨hr, rfl⟩
        · simp [storeKeys_refused hk hv ha hr hm hf] at h
      · simp [storeKeys_range hv ha hr] at h

/-- A KPLD that completes has put the eight Blocks of its buffer into the table. -/
theorem loadKeys_completed {xa : XIdx} {s t : State} (h : (loadKeys xa).run s = .ok () t) :
    t = ({ s with accesses := s.accesses ++ readsOf (s.scalar xa) 0 8 } : State).withKeys
      (Vector.ofFn fun i => s.messageBlock (s.scalar xa) i.val) := by
  cases ha : aligned16 (s.scalar xa) with
  | false => simp [loadKeys_misaligned ha] at h
  | true =>
    by_cases hr : inRange (s.scalar xa) 8
    · rcases admitsBlocks_or_first s (s.scalar xa) .read 8 with hm | ⟨k, hk, hm, hf⟩
      · rw [loadKeys_ok ha hr hm] at h
        cases h
        rfl
      · simp [loadKeys_refused hk ha hr hm hf] at h
    · simp [loadKeys_range ha hr] at h

/-- The image of a table: its entry `k` stands at offset 16·(k-1) (R61). -/
theorem readBlock_image {xa : XIdx} {s t : State} (hs : s.Inv) (h : (storeKeys xa).run s = .ok () t) {k : Nat} (hk : k - 1 < 8) :
    Memory.readBlock t.mem ((s.scalar xa).toNat + 16 * (k - 1)) = s.keyPower k := by
  obtain ⟨hr, rfl⟩ := storeKeys_completed h
  have hl : s.kp.toList.length = 8 := Vector.length_toList
  have hread := Memory.readBlock_writeBlocks (base := (s.scalar xa).toNat) s.kp.toList s.mem 0 (k - 1) (by rwa [hl])
    hs.memory_canonical (by rwa [hl, Nat.zero_add])
  rw [Nat.zero_add] at hread
  rw [hread, State.keyPower_eq_getElem s hk, Vector.getElem_toList]

/-- Settles O45: KPLD reads, entry by entry, the Blocks that KPST wrote. -/
theorem storedTableLoadsBack : Obligations.StoredTableLoadsBack := by
  unfold Obligations.StoredTableLoadsBack
  intro xa xb s t u v hs _ _ hst ht hmem hbase hld hv k _ _
  have hk : k - 1 < 8 := by omega
  have hstore : (storeKeys xa).run s = .ok () t := command_completed hst ht
  have hload : (loadKeys xb).run u = .ok () v := command_completed hld hv
  calc v.keyPower k
      = u.messageBlock (u.scalar xb) (k - 1) := by
        rw [loadKeys_completed hload, State.keyPower_withKeys _ _ hk, Vector.getElem_ofFn]
    _ = Memory.readBlock t.mem ((s.scalar xa).toNat + 16 * (k - 1)) := by rw [State.messageBlock, hmem, hbase]
    _ = s.keyPower k := readBlock_image hs hstore hk

end Sys2Proof.Machine
end

section
/-! The encoding (spec/30_encoding.md): which row of the table decides a word (R78, R85), the two round trips between commands and
words (R72–R77, R82), the decoder's rows against the printed table, and the illegal words (R83). -/

namespace Sys2Proof

/-! The decoder as its table (R78, R85): the row that selects a word decides it, and there is at most one -/

theorem DecodeRow.selects_iff (r : DecodeRow) (w : CmdWord) : r.selects w = true ↔ w &&& r.mask = r.pat := beq_iff_eq

theorem decode_of_selects {w : CmdWord} {r : DecodeRow} (hr : r ∈ decodeRows) (hs : r.selects w = true) :
    decode w = if (r.build w).wf then some (r.build w) else none := by
  rw [decode, find_row hr hs]

theorem decode_of_no_row {w : CmdWord} (h : ∀ r ∈ decodeRows, ¬ r.selects w = true) : decode w = none := by
  rw [decode, List.find?_eq_none.mpr h]

theorem decode_eq_some_iff {w : CmdWord} {i : Instr} :
    decode w = some i ↔ ∃ r ∈ decodeRows, r.selects w = true ∧ r.build w = i ∧ i.wf = true := by
  constructor
  · intro h
    by_cases hrow : ∃ r ∈ decodeRows, r.selects w = true
    · obtain ⟨r, hr, hs⟩ := hrow
      rw [decode_of_selects hr hs, Option.ite_none_right_eq_some, Option.some_inj] at h
      obtain ⟨hwf, rfl⟩ := h
      exact ⟨r, hr, hs, rfl, hwf⟩
    · rw [decode_of_no_row fun r hr hs => hrow ⟨r, hr, hs⟩] at h
      cases h
  · rintro ⟨r, hr, hs, rfl, hwf⟩
    rw [decode_of_selects hr hs, if_pos hwf]

/-- Settles O5: two rows disagree on a bit that both fix. -/
theorem decoderRowsAreDisjoint : Obligations.DecoderRowsAreDisjoint := by
  unfold Obligations.DecoderRowsAreDisjoint
  exact decodeRows_conflict.imp DecodeRow.not_both

/-! From a command to its word and back (R72–R77) -/

/-- Every command has its row, whatever its operands. -/
theorem rowOfEncoding (i : Instr) : Laws.RowOfEncoding.Statement i := by
  cases i with
  | xor fd fs1 fs2 => exact Laws.RowOfEncoding.xor fd fs1 fs2
  | clmulLL fd fs1 fs2 => exact Laws.RowOfEncoding.clmulLL fd fs1 fs2
  | clmulLH fd fs1 fs2 => exact Laws.RowOfEncoding.clmulLH fd fs1 fs2
  | clmulHL fd fs1 fs2 => exact Laws.RowOfEncoding.clmulHL fd fs1 fs2
  | clmulHH fd fs1 fs2 => exact Laws.RowOfEncoding.clmulHH fd fs1 fs2
  | swap64 fd fs1 => exact Laws.RowOfEncoding.swap64 fd fs1
  | shl64 fd fs1 => exact Laws.RowOfEncoding.shl64 fd fs1
  | shr64 fd fs1 => exact Laws.RowOfEncoding.shr64 fd fs1
  | reduce fd fph fpl => exact Laws.RowOfEncoding.reduce fd fph fpl
  | bmul fd fs1 fs2 => exact Laws.RowOfEncoding.bmul fd fs1 fs2
  | blockmul xa xb => exact Laws.RowOfEncoding.blockmul xa xb
  | keyexp fs1 => exact Laws.RowOfEncoding.keyexp fs1
  | kpld xa => exact Laws.RowOfEncoding.kpld xa
  | kpst xa => exact Laws.RowOfEncoding.kpst xa
  | kpclr => exact Laws.RowOfEncoding.kpclr
  | update xin xn xacc => exact Laws.RowOfEncoding.update xin xn xacc
  | ldb fd xa => exact Laws.RowOfEncoding.ldb fd xa
  | stb fs xa => exact Laws.RowOfEncoding.stb fs xa
  | setxz xd hw imm16 => exact Laws.RowOfEncoding.setxz xd hw imm16
  | setxk xd hw imm16 => exact Laws.RowOfEncoding.setxk xd hw imm16

/-- Settles O1: the command's own row selects its word and builds the command back. -/
theorem decodeInvertsEncode : Obligations.DecodeInvertsEncode := by
  unfold Obligations.DecodeInvertsEncode
  intro i hwf
  obtain ⟨r, hr, hs, hb⟩ := rowOfEncoding i
  exact decode_eq_some_iff.mpr ⟨r, hr, hs, hb, hwf⟩

/-! From a word to its command and back (R82): the bits under the mask are the row's pattern, reserved zeros among them, and the
bits outside it are fields, which the format puts back where they were read -/

/-- Two words with the same bits under a mask and the same bits outside it are one word. -/
theorem eq_of_masked_eq {u w m p : CmdWord} (hu : u &&& m = p) (hw : w &&& m = p)
    (hfields : ∀ k < 32, m.getLsbD k = false → u.getLsbD k = w.getLsbD k) : u = w := by
  apply BitVec.eq_of_getLsbD_eq
  intro k hk
  cases hm : m.getLsbD k with
  | false => exact hfields k hk hm
  | true =>
    have hbit := congrArg (BitVec.getLsbD · k) (hu.trans hw.symm)
    simpa [hm] using hbit

@[simp] theorem ofFin_fieldAt20 (w : CmdWord) : BitVec.ofFin (w := 4) (fieldAt20 w) = w.extractLsb' 20 4 := rfl
@[simp] theorem ofFin_fieldAt16 (w : CmdWord) : BitVec.ofFin (w := 4) (fieldAt16 w) = w.extractLsb' 16 4 := rfl
@[simp] theorem ofFin_fieldAt12 (w : CmdWord) : BitVec.ofFin (w := 4) (fieldAt12 w) = w.extractLsb' 12 4 := rfl
@[simp] theorem ofFin_scalarAt22 (w : CmdWord) : BitVec.ofFin (w := 2) (scalarAt22 w) = w.extractLsb' 22 2 := rfl
@[simp] theorem ofFin_scalarAt20 (w : CmdWord) : BitVec.ofFin (w := 2) (scalarAt20 w) = w.extractLsb' 20 2 := rfl
@[simp] theorem ofFin_scalarAt18 (w : CmdWord) : BitVec.ofFin (w := 2) (scalarAt18 w) = w.extractLsb' 18 2 := rfl

section Formats

variable {w : CmdWord} (op : BitVec 8)

theorem encodeR3_of_masked (sel : BitVec 2) (h : w &&& 0xFF000FFF = op ++ 0#12 ++ 0#10 ++ sel) :
    encodeR3 op (fieldAt20 w) (fieldAt16 w) (fieldAt12 w) sel = w := by
  refine eq_of_masked_eq (encodeR3_masked _ _ _ _ _) h fun k hk hm => ?_
  simp only [encodeR3, ofFin_fieldAt20, ofFin_fieldAt16, ofFin_fieldAt12, BitVec.getLsbD_append, BitVec.getLsbD_extractLsb']
  interval_cases k <;> simp at hm ⊢

theorem encodeR2_of_masked (h : w &&& 0xFF00FFFF = op ++ 0#24) : encodeR2 op (fieldAt20 w) (fieldAt16 w) = w := by
  refine eq_of_masked_eq (encodeR2_masked _ _ _) h fun k hk hm => ?_
  simp only [encodeR2, ofFin_fieldAt20, ofFin_fieldAt16, BitVec.getLsbD_append, BitVec.getLsbD_extractLsb']
  interval_cases k <;> simp at hm ⊢

theorem encodeR1_of_masked (h : w &&& 0xFFF0FFFF = op ++ 0#24) : encodeR1 op (fieldAt16 w) = w := by
  refine eq_of_masked_eq (encodeR1_masked _ _) h fun k hk hm => ?_
  simp only [encodeR1, ofFin_fieldAt16, BitVec.getLsbD_append, BitVec.getLsbD_extractLsb']
  interval_cases k <;> simp at hm ⊢

theorem encodeM_of_masked (h : w &&& 0xFF03FFFF = op ++ 0#24) : encodeM op (fieldAt20 w) (scalarAt18 w) = w := by
  refine eq_of_masked_eq (encodeM_masked _ _ _) h fun k hk hm => ?_
  simp only [encodeM, ofFin_fieldAt20, ofFin_scalarAt18, BitVec.getLsbD_append, BitVec.getLsbD_extractLsb']
  interval_cases k <;> simp at hm ⊢

theorem encodeX_of_masked3 (h : w &&& 0xFF03FFFF = op ++ 0#24) :
    encodeX op (scalarAt22 w) (scalarAt20 w) (scalarAt18 w) = w := by
  refine eq_of_masked_eq (encodeX_masked3 _ _ _ _) h fun k hk hm => ?_
  simp only [encodeX, ofFin_scalarAt22, ofFin_scalarAt20, ofFin_scalarAt18, BitVec.getLsbD_append, BitVec.getLsbD_extractLsb']
  interval_cases k <;> simp at hm ⊢

theorem encodeX_of_masked2 (h : w &&& 0xFF0FFFFF = op ++ 0#24) : encodeX op (scalarAt22 w) (scalarAt20 w) 0 = w := by
  refine eq_of_masked_eq (encodeX_masked2 _ _ _) h fun k hk hm => ?_
  simp only [encodeX, ofFin_scalarAt22, ofFin_scalarAt20, BitVec.getLsbD_append, BitVec.getLsbD_extractLsb']
  interval_cases k <;> simp at hm ⊢

theorem encodeX_of_masked1 (h : w &&& 0xFF3FFFFF = op ++ 0#24) : encodeX op (scalarAt22 w) 0 0 = w := by
  refine eq_of_masked_eq (encodeX_masked1 _ _) h fun k hk hm => ?_
  simp only [encodeX, ofFin_scalarAt22, BitVec.getLsbD_append, BitVec.getLsbD_extractLsb']
  interval_cases k <;> simp at hm ⊢

theorem encodeI_of_masked (c : BitVec 1) (h : w &&& 0xFF0F0000 = op ++ 0#4 ++ c ++ 0#19) :
    encodeI op (scalarAt22 w) (scalarAt20 w) c (immAt0 w) = w := by
  refine eq_of_masked_eq (encodeI_masked _ _ _ _ _) h fun k hk hm => ?_
  simp only [encodeI, immAt0, ofFin_scalarAt22, ofFin_scalarAt20, BitVec.getLsbD_append, BitVec.getLsbD_extractLsb']
  interval_cases k <;> simp at hm ⊢

end Formats

theorem forall_decodeRows_iff {p : DecodeRow → Prop} :
    (∀ r ∈ decodeRows, p r) ↔ (∀ r ∈ decodeRowsFieldOps, p r) ∧ ∀ r ∈ decodeRowsOther, p r := List.forall_mem_append

/-- A row that selects a word builds the command that encodes to it: one format per row; KPCLR's row masks nothing out. -/
theorem encode_build : ∀ r ∈ decodeRows, ∀ w, r.selects w = true → encode (r.build w) = w := by
  simp only [DecodeRow.selects_iff]
  refine forall_decodeRows_iff.mpr ⟨?fieldOps, ?others⟩
  case fieldOps =>
    simp only [decodeRowsFieldOps, List.forall_mem_cons, List.not_mem_nil, false_imp_iff, implies_true, and_true]
    exact ⟨fun _ h => encodeR3_of_masked 0x01 0b00 (h.trans rfl),
      fun _ h => encodeR3_of_masked 0x02 0b00 (h.trans rfl),
      fun _ h => encodeR3_of_masked 0x02 0b01 (h.trans rfl),
      fun _ h => encodeR3_of_masked 0x02 0b10 (h.trans rfl),
      fun _ h => encodeR3_of_masked 0x02 0b11 (h.trans rfl),
      fun _ h => encodeR2_of_masked 0x03 (h.trans rfl),
      fun _ h => encodeR2_of_masked 0x04 (h.trans rfl),
      fun _ h => encodeR2_of_masked 0x05 (h.trans rfl),
      fun _ h => encodeR3_of_masked 0x06 0b00 (h.trans rfl)⟩
  case others =>
    simp only [decodeRowsOther, List.forall_mem_cons, List.not_mem_nil, false_imp_iff, implies_true, and_true]
    exact ⟨fun _ h => encodeR3_of_masked 0x10 0b00 (h.trans rfl),
      fun _ h => encodeX_of_masked2 0x11 (h.trans rfl),
      fun _ h => encodeR1_of_masked 0x20 (h.trans rfl),
      fun _ h => encodeX_of_masked1 0x21 (h.trans rfl),
      fun _ h => encodeX_of_masked1 0x22 (h.trans rfl),
      fun _ h => h.symm.trans BitVec.and_allOnes,
      fun _ h => encodeX_of_masked3 0x30 (h.trans rfl),
      fun _ h => encodeM_of_masked 0x40 (h.trans rfl),
      fun _ h => encodeM_of_masked 0x41 (h.trans rfl),
      fun _ h => encodeI_of_masked 0x42 0 (h.trans rfl),
      fun _ h => encodeI_of_masked 0x42 1 (h.trans rfl)⟩

/-- Settles O2: the row that selects the word built the command, and its format gives the word back. -/
theorem encodeInvertsDecode : Obligations.EncodeInvertsDecode := by
  unfold Obligations.EncodeInvertsDecode
  intro w i h
  obtain ⟨r, hr, hs, rfl, hwf⟩ := decode_eq_some_iff.mp h
  exact ⟨hwf, encode_build r hr w hs⟩

/-! The decoder's rows and the printed table (R78) -/

/-- What R78 prints of a row: its mnemonic, match, mask, and whether its command has a destination. -/
def DecodeRow.printed (r : DecodeRow) : Machine.OpcodeRow :=
  ⟨Machine.mnemonicOf (r.build 0), r.pat, r.mask, (r.build 0).dest.isSome⟩

theorem opcodeMap_eq_map_printed : Machine.opcodeMap = decodeRows.map DecodeRow.printed := rfl

/-- A row builds one command, whatever the word. -/
theorem mnemonicOf_build : ∀ r ∈ decodeRows, ∀ w, Machine.mnemonicOf (r.build w) = r.printed.mnemonic := by
  simp [decodeRows, decodeRowsFieldOps, decodeRowsOther, DecodeRow.printed, Machine.mnemonicOf]

/-- A destination, where there is one, is read at bits 23:20 (R72, R73, R75). -/
theorem dest_build : ∀ r ∈ decodeRows, ∀ w,
    (r.build w).dest = if r.printed.constrained then some (fieldAt20 w) else none := by
  simp [decodeRows, decodeRowsFieldOps, decodeRowsOther, DecodeRow.printed, Instr.dest]

/-- The destination constraint of R78 is well-formedness of the row's command. -/
theorem wf_build_iff {r : DecodeRow} (hr : r ∈ decodeRows) (w : CmdWord) :
    (r.build w).wf = true ↔ (r.printed.constrained = true → (w.extractLsb' 20 4).toNat ≤ 6) := by
  rw [Instr.wf, dest_build r hr w]
  cases r.printed.constrained with
  | false => simp
  | true => simp [FIdx.writable, fieldAt20]

/-- No two rows print one mnemonic. -/
theorem printed_mnemonic_injective {r q : DecodeRow} (hr : r ∈ decodeRows) (hq : q ∈ decodeRows)
    (h : r.printed.mnemonic = q.printed.mnemonic) : r = q := by
  have hnodup : (decodeRows.map fun r => r.printed.mnemonic).Nodup := by decide +kernel
  exact List.inj_on_of_nodup_map hnodup hr hq h

/-- The decoder's answer is a row's command exactly when that row selects the word and its destination constraint holds. -/
theorem decode_mnemonic_iff {r : DecodeRow} (hr : r ∈ decodeRows) (w : CmdWord) :
    (∃ i, decode w = some i ∧ Machine.mnemonicOf i = r.printed.mnemonic) ↔ r.selects w = true ∧ (r.build w).wf = true := by
  constructor
  · rintro ⟨i, hd, hm⟩
    obtain ⟨q, hq, hs, rfl, hwf⟩ := decode_eq_some_iff.mp hd
    rw [mnemonicOf_build q hq w] at hm
    cases printed_mnemonic_injective hq hr hm
    exact ⟨hs, hwf⟩
  · rintro ⟨hs, hwf⟩
    exact ⟨r.build w, decode_eq_some_iff.mpr ⟨r, hr, hs, rfl, hwf⟩, mnemonicOf_build r hr w⟩

/-- Settles O3: the printed table is that of the decoder's rows, and each row's constraint is well-formedness of what it builds. -/
theorem wordIsCommandIffItsRowMatches : Obligations.WordIsCommandIffItsRowMatches := by
  unfold Obligations.WordIsCommandIffItsRowMatches
  rw [opcodeMap_eq_map_printed, List.forall_mem_map]
  intro r hr w
  rw [decode_mnemonic_iff hr w, wf_build_iff hr w, DecodeRow.selects_iff]
  rfl

/-! Illegal words (R83) -/

theorem decode_eq_none_iff {w : CmdWord} :
    decode w = none ↔
      (∀ r ∈ decodeRows, ¬ r.selects w = true) ∨ ∃ r ∈ decodeRows, r.selects w = true ∧ ¬ (r.build w).wf = true := by
  constructor
  · intro h
    by_cases hrow : ∃ r ∈ decodeRows, r.selects w = true
    · obtain ⟨r, hr, hs⟩ := hrow
      rw [decode_of_selects hr hs, ite_eq_right_iff] at h
      exact .inr ⟨r, hr, hs, fun hwf => Option.some_ne_none _ (h hwf)⟩
    · exact .inl fun r hr hs => hrow ⟨r, hr, hs⟩
  · rintro (hno | ⟨r, hr, hs, hwf⟩)
    · exact decode_of_no_row hno
    · rw [decode_of_selects hr hs, if_neg hwf]

/-- R83 in the words of the printed table. -/
theorem decode_eq_none_iff_opcodeMap (w : CmdWord) :
    decode w = none ↔
      (∀ r ∈ Machine.opcodeMap, w &&& r.mask ≠ r.pattern) ∨
        ∃ r ∈ Machine.opcodeMap, w &&& r.mask = r.pattern ∧ r.constrained = true ∧ 7 ≤ (w.extractLsb' 20 4).toNat := by
  rw [decode_eq_none_iff, opcodeMap_eq_map_printed, List.forall_mem_map]
  simp only [List.mem_map, exists_exists_and_eq_and]
  refine or_congr (forall₂_congr fun r _ => ?_) (exists_congr fun r => and_congr_right fun hr => ?_)
  · rw [DecodeRow.selects_iff]
    rfl
  · rw [DecodeRow.selects_iff, wf_build_iff hr w, Classical.not_imp, Nat.not_le]
    rfl

end Sys2Proof

namespace Sys2Proof.Machine

/-- A fault taken writes ST and FINFO only (R184, R190). -/
theorem raised_takeFault (t : Trap) (s : State) : Raised t.cause.code t.info s (takeFault t s) :=
  ⟨rfl, rfl, rfl, rfl, fun _ => rfl, rfl, rfl⟩

theorem sameRegisters_takeFault (t : Trap) (s : State) : SameRegisters s (takeFault t s) :=
  ⟨fun _ _ => rfl, fun _ _ _ => rfl, fun _ => rfl⟩

theorem step_of_illegal {s : State} {w : CmdWord} {rest : List HostInput} (hin : s.inputs = .command w :: rest)
    (he : s.status.err = false) (hd : decode w = none) :
    step s = .next (takeFault ⟨.illegalCommand, w.setWidth 64⟩ { s with inputs := rest }) :=
  (step_command hin).trans (acceptCommand_of_illegal he hd)

/-- Settles O4: no row or a bad destination is all that keeps the decoder from a command, and the step on such a word is the taking
of a fault. -/
theorem illegalWordsAreExactlyTheSpecs : Obligations.IllegalWordsAreExactlyTheSpecs := by
  unfold Obligations.IllegalWordsAreExactlyTheSpecs
  refine ⟨decode_eq_none_iff_opcodeMap, by decide +kernel, by decide +kernel, fun s w rest hin he hd => ?_⟩
  exact ⟨_, step_of_illegal hin he hd, raised_takeFault ⟨.illegalCommand, w.setWidth 64⟩ _, sameRegisters_takeFault _ _, rfl⟩

/-! A legal word (R70, R181) -/

theorem step_of_decode {s : State} {w : CmdWord} {rest : List HostInput} {i : Instr} (hin : s.inputs = .command w :: rest)
    (he : s.status.err = false) (hd : decode w = some i) : step s = exec i { s with inputs := rest } :=
  (step_command hin).trans (acceptCommand_of_decode he hd)

theorem withFetchWord_inputs (s : State) (nbits w : Nat) :
    (s.withFetchWord nbits w).inputs = .command (wordOfBits nbits w) :: s.inputs := rfl

/-- Settles O7: taking the word that `withFetchWord` put at the head of the list leaves the state it was put into. -/
theorem stepRunsTheDecodedCommand : Obligations.StepRunsTheDecodedCommand := by
  unfold Obligations.StepRunsTheDecodedCommand
  exact ⟨fun _ _ _ _ => step_of_decode, fun s nbits w _ => step_of_decode (withFetchWord_inputs s nbits w)⟩

end Sys2Proof.Machine
end

section
/-! The FieldOps commands (spec/40_fieldops.md): what a command over field registers writes (R90–R100), and `reduce` as division
by x^128 in GF(2^128) (R102, R105). -/

namespace Sys2Proof.Machine

/-! A command over field registers whose checks pass: its result in the destination, and nothing else -/

theorem exec_fieldOp2 {i : Instr} {fd fs1 fs2 : FIdx} {op : Block → Block → Block} {s : State}
    (hi : workOf i = fieldOp2 i fd fs1 fs2 op) (hd : FIdx.writable fd = true) (h1 : s.readable fs1 = true)
    (h2 : s.readable fs2 = true) :
    ∃ t, exec i s = .next t ∧ FieldFrame fd s t ∧ t.field fd = op (s.field fs1) (s.field fs2) := by
  rw [exec_eq_command, hi]
  exact ⟨_, fieldOp2_ok hd h1 h2, fieldFrame_withField _ _ _, State.field_withField_same _ _ hd⟩

theorem exec_fieldOp1 {i : Instr} {fd fs1 : FIdx} {op : Block → Block} {s : State} (hi : workOf i = fieldOp1 i fd fs1 op)
    (hd : FIdx.writable fd = true) (h1 : s.readable fs1 = true) :
    ∃ t, exec i s = .next t ∧ FieldFrame fd s t ∧ t.field fd = op (s.field fs1) := by
  rw [exec_eq_command, hi]
  exact ⟨_, fieldOp1_ok hd h1, fieldFrame_withField _ _ _, State.field_withField_same _ _ hd⟩

/-- Settles O27: the work of XOR is the exclusive or, taken bit by bit. -/
theorem xorWritesTheExclusiveOr : Obligations.XorWritesTheExclusiveOr := by
  unfold Obligations.XorWritesTheExclusiveOr
  intro fd fs1 fs2 s hd h1 h2
  obtain ⟨t, hexec, hframe, hfd⟩ := exec_fieldOp2 (i := .xor fd fs1 fs2) rfl hd h1 h2
  exact ⟨t, hexec, hframe, fun k _ => by rw [hfd, BitVec.getLsbD_xor]⟩

/-- Settles O28: the halves that the four names select are `lo` and `hi` of the sources. -/
theorem clmulMultipliesTheSelectedHalves : Obligations.ClmulMultipliesTheSelectedHalves := by
  unfold Obligations.ClmulMultipliesTheSelectedHalves
  intro fd fs1 fs2 s hd h1 h2
  exact ⟨exec_fieldOp2 (op := fun a b => clmul64 (lo a) (lo b)) rfl hd h1 h2,
    exec_fieldOp2 (op := fun a b => clmul64 (lo a) (hi b)) rfl hd h1 h2,
    exec_fieldOp2 (op := fun a b => clmul64 (hi a) (lo b)) rfl hd h1 h2,
    exec_fieldOp2 (op := fun a b => clmul64 (hi a) (hi b)) rfl hd h1 h2⟩

/-! Two halves put together, as a rotation and as shifts of 128 bits (R97–R99) -/

theorem shl64_eq_shiftLeft (v : Block) : shl64 v = v <<< 64 := by
  apply BitVec.eq_of_getLsbD_eq
  intro k hk
  simp only [shl64, lo, BitVec.getLsbD_append, BitVec.getLsbD_extractLsb', BitVec.getLsbD_shiftLeft]
  by_cases low : k < 64
  · simp [low]
  · have : k - 64 < 64 := by omega
    simp [low, hk, this]

theorem shr64_eq_shiftRight (v : Block) : shr64 v = v >>> 64 := by
  apply BitVec.eq_of_getLsbD_eq
  intro k hk
  simp only [shr64, hi, BitVec.getLsbD_append, BitVec.getLsbD_extractLsb', BitVec.getLsbD_ushiftRight]
  by_cases low : k < 64
  · simp [low]
  · have : 128 ≤ 64 + k := by omega
    simp [low, BitVec.getLsbD_of_ge v _ this]

theorem swap64_eq_rotateLeft (v : Block) : swap64 v = v.rotateLeft 64 := by
  have halves : swap64 v = shl64 v ||| shr64 v := by
    rw [swap64, shl64, shr64, BitVec.or_append]
    simp only [BitVec.ofNat_eq_ofNat, BitVec.or_zero, BitVec.zero_or]
  rw [halves, shl64_eq_shiftLeft, shr64_eq_shiftRight]
  rfl

/-- Settles O29: each half move is the rotation or the shift by 64. -/
theorem halfMovesPlaceTheHalves : Obligations.HalfMovesPlaceTheHalves := by
  unfold Obligations.HalfMovesPlaceTheHalves
  intro fd fs1 s hd h1
  rw [← swap64_eq_rotateLeft, ← shl64_eq_shiftLeft, ← shr64_eq_shiftRight]
  exact ⟨exec_fieldOp1 (op := swap64) rfl hd h1, exec_fieldOp1 (op := shl64) rfl hd h1, exec_fieldOp1 (op := shr64) rfl hd h1⟩

/-! Montgomery reduction (R100, R102, R105) -/

/-- Settles O30: `reduce` divides the pair by x^128 in the field. -/
theorem reduceCommandReducesThePair : Obligations.ReduceCommandReducesThePair := by
  unfold Obligations.ReduceCommandReducesThePair
  intro fd fph fpl s hd h1 h2
  obtain ⟨t, hexec, hframe, hfd⟩ := exec_fieldOp2 (i := .reduce fd fph fpl) rfl hd h1 h2
  exact ⟨t, hexec, hframe, hfd, by rw [hfd, elem_reduce_mul]⟩

theorem elem_inj {u v : Block} : elem u = elem v ↔ u = v := ⟨elem_injective, congrArg elem⟩

theorem elem_reduce_eq_mul_xInv128 (p : Partial) : elem (reduce p) = (elem p.ph * fieldX ^ 128 + elem p.pl) * xInv128 := by
  rw [← elem_reduce_mul, mul_assoc, mul_comm (fieldX ^ 128), xInv128_mul, mul_one]

/-- Settles O32: a Block is determined by its element, and that of `reduce` is the one named. -/
theorem reduceIsTheUniqueMontgomeryResult : Obligations.ReduceIsTheUniqueMontgomeryResult := by
  unfold Obligations.ReduceIsTheUniqueMontgomeryResult
  intro ph pl r
  rw [← elem_inj, elem_reduce_eq_mul_xInv128]

/-- A pair without a low part is x^128 times its high part. -/
theorem reduce_zero_right (ph : Block) : reduce ⟨ph, 0#128⟩ = ph := by
  apply elem_injective
  rw [elem_reduce, elem_zero, zero_mul, add_zero]

/-- Settles O33: linearity and the values 0, PH and x^-128 hold in the field; (1, 0xc2…01) is P itself, whose element is 0. -/
theorem reduceIsLinear : Obligations.ReduceIsLinear := by
  unfold Obligations.ReduceIsLinear
  exact ⟨fun a a' b b' => reduce_xor ⟨a, b⟩ ⟨a', b'⟩, reduce_zero, reduce_zero_right, reduce_zero_one, reduce_one_c2⟩

end Sys2Proof.Machine
end

section
/-! BlockMul (spec/41_blockmul.md): its value and its laws in GF(2^128) (R110, R116), the Karatsuba schedule of its product (R111),
and the two commands that compute it (R112, R113). -/

namespace Sys2Proof.Machine

/-! The value of BlockMul (R110) -/

/-- Settles O35: a Block is determined by its element, and that of BlockMul is the one named. -/
theorem blockMulIsTheMontgomeryProduct : Obligations.BlockMulIsTheMontgomeryProduct := by
  unfold Obligations.BlockMulIsTheMontgomeryProduct
  intro a b r
  rw [← elem_inj, elem_blockMul]

/-! The Karatsuba schedule (R111) -/

/-- Karatsuba's identity: the product of the sums less the two outer products is the sum of the cross products. -/
theorem clmul64_sums (a0 a1 b0 b1 : Half) :
    clmul64 (a0 ^^^ a1) (b0 ^^^ b1) ^^^ clmul64 a0 b0 ^^^ clmul64 a1 b1 = clmul64 a0 b1 ^^^ clmul64 a1 b0 := by
  apply poly_injective
  simp only [poly_xor, poly_clmul64]
  linear_combination add_self_poly (poly a0 * poly b0) + add_self_poly (poly a1 * poly b1)

theorem lo_xor_swap64 (v : Block) : lo (v ^^^ swap64 v) = lo v ^^^ hi v := by rw [lo_xor, lo_swap64]

/-- Settles O36: the two schedules differ in the middle product only, and there by Karatsuba's identity they agree. -/
theorem karatsubaGivesTheSamePair : Obligations.KaratsubaGivesTheSamePair := by
  unfold Obligations.KaratsubaGivesTheSamePair
  intro a b
  simp only [karatsuba, clmul128, lo_xor_swap64, clmul64_sums]

/-! The laws of BlockMul (R116) -/

theorem blockMul_comm (a b : Block) : blockMul a b = blockMul b a := by
  apply elem_injective
  rw [elem_blockMul, elem_blockMul, mul_comm (elem a)]

theorem blockMul_assoc (a b c : Block) : blockMul (blockMul a b) c = blockMul a (blockMul b c) := by
  apply elem_injective
  simp only [elem_blockMul]
  ring

/-- `x^128 mod P` is the identity: its factor x^128 cancels the x^-128 of BlockMul. -/
theorem blockMul_c2 (a : Block) : blockMul a 0xc2000000000000000000000000000001#128 = a := by
  apply elem_injective
  rw [elem_blockMul, elem_c2, mul_assoc, mul_comm (fieldX ^ 128), xInv128_mul, mul_one]

theorem blockMul_xor (a b c : Block) : blockMul a (b ^^^ c) = blockMul a b ^^^ blockMul a c := by
  apply elem_injective
  rw [elem_xor, elem_blockMul, elem_blockMul, elem_blockMul, elem_xor]
  ring

/-- Settles O37: BlockMul is multiplication in the field followed by multiplication with x^-128. -/
theorem blockMulLaws : Obligations.BlockMulLaws := by
  unfold Obligations.BlockMulLaws
  exact ⟨blockMul_comm, blockMul_assoc, blockMul_c2, blockMul_xor⟩

/-! The commands (R112, R113) -/

/-- A command whose work raises before it writes memory takes the fault (R184, R192), with the accesses made until then. -/
theorem exec_raised_accesses {i : Instr} {s r : State} {t : Trap} (h : (workOf i).run s = .error t r) (hm : r.mem = s.mem) :
    ∃ u, exec i s = .next u ∧ Raised t.cause.code t.info s u ∧ u.accesses = r.accesses := by
  obtain ⟨u, hu, hraised, haccesses, -⟩ := raised_of_error h hm
  exact ⟨u, (exec_eq_command i s).trans hu, hraised, haccesses⟩

theorem exec_raised {i : Instr} {s r : State} {t : Trap} (h : (workOf i).run s = .error t r) (hm : r.mem = s.mem) :
    ∃ u, exec i s = .next u ∧ Raised t.cause.code t.info s u := by
  obtain ⟨u, hu, hraised, -⟩ := exec_raised_accesses h hm
  exact ⟨u, hu, hraised⟩

/-- Settles O38: BMUL is a command over two field registers, and so is its fault for a source that may not be read. -/
theorem bmulWritesTheBlockProduct : Obligations.BmulWritesTheBlockProduct := by
  unfold Obligations.BmulWritesTheBlockProduct
  intro fd fs1 fs2 s hd
  constructor
  · exact exec_fieldOp2 (i := .bmul fd fs1 fs2) rfl hd
  · exact fun h => exec_raised (i := .bmul fd fs1 fs2) (fieldOp2_keysInvalid hd h) rfl

theorem sameStatus_stored (s : State) (a : Addr) (v : Block) : SameStatus s (s.stored a v) :=
  ⟨State.stored_status .., State.stored_finfo ..⟩

theorem sameStreamer_stored (s : State) (a : Addr) (v : Block) : SameStreamer s (s.stored a v) :=
  ⟨State.stored_streamer .., State.stored_free .., State.stored_phases ..⟩

theorem sameHost_stored (s : State) (a : Addr) (v : Block) : SameHost s (s.stored a v) :=
  ⟨State.stored_inputs .., State.stored_refused ..⟩

/-- The state after both operands are read, in which the product is stored. -/
def State.operandsRead (s : State) (a b : Addr) : State := (s.logged .read a).logged .read b

/-- Both operands are read before the product is stored, so it is their product also when the two addresses are one (R113). -/
theorem exec_blockmul {xa xb : XIdx} {s : State} (ha : aligned16 (s.scalar xa) = true) (hb : aligned16 (s.scalar xb) = true)
    (h1 : s.memOK (s.scalar xa) .read = true) (h2 : s.memOK (s.scalar xb) .read = true)
    (h3 : s.memOK (s.scalar xa) .write = true) :
    exec (.blockmul xa xb) s = .next ((s.operandsRead (s.scalar xa) (s.scalar xb)).stored (s.scalar xa)
      (blockMul (Memory.readBlock s.mem (s.scalar xa).toNat) (Memory.readBlock s.mem (s.scalar xb).toNat))) :=
  command_ok (blockMulInMemory_ok ha hb h1 h2 h3)

/-- Settles O39: a BLOCKMUL that completes has stored one Block, last; each fault is one way its work can stop before that. -/
theorem blockmulReplacesTheFirstOperand : Obligations.BlockmulReplacesTheFirstOperand := by
  unfold Obligations.BlockmulReplacesTheFirstOperand
  intro xa xb s hs
  refine ⟨fun ha hb h1 h2 h3 => ?completes, fun ha => ?misalignedFirst, fun ha hb => ?misalignedSecond,
    fun ha hb => ⟨fun h1 => ?refusedFirst, fun h1 h2 => ?refusedSecond, fun h1 h2 h3 => ?refusedWrite⟩⟩
  case completes =>
    refine ⟨_, exec_blockmul ha hb h1 h2 h3, ?_, sameMemoryOutside_stored (s.operandsRead _ _) _ _,
      sameRegisters_stored (s.operandsRead _ _) _ _, sameStatus_stored (s.operandsRead _ _) _ _,
      sameStreamer_stored (s.operandsRead _ _) _ _, sameHost_stored (s.operandsRead _ _) _ _⟩
    rw [State.stored_mem]
    exact Memory.readBlock_writeBlock_same _ hs.memory_canonical (aligned16_room ha)
  case misalignedFirst => exact exec_raised_accesses (i := .blockmul xa xb) (blockMulInMemory_misaligned_first ha) rfl
  case misalignedSecond => exact exec_raised_accesses (i := .blockmul xa xb) (blockMulInMemory_misaligned_second ha hb) rfl
  case refusedFirst => exact exec_raised (i := .blockmul xa xb) (blockMulInMemory_refused_first ha hb h1) rfl
  case refusedSecond => exact exec_raised (i := .blockmul xa xb) (blockMulInMemory_refused_second ha hb h1 h2) rfl
  case refusedWrite => exact exec_raised (i := .blockmul xa xb) (blockMulInMemory_refused_write ha hb h1 h2 h3) rfl

end Sys2Proof.Machine
end

section
/-! KeyPowers (spec/42_keypowers.md): the table KEYEXP builds and its powers (R121, R123), the image KPLD loads and KPST stores
(R124, R125), the table destroyed (R126), and that no other command writes it (R127). -/

namespace Sys2Proof.Machine

/-! Who writes the table (R127) -/

/-- Settles O22: it is a clause of `Completes`. -/
theorem onlyTableWritersChangeTheTable : Obligations.OnlyTableWritersChangeTheTable := by
  unfold Obligations.OnlyTableWritersChangeTheTable
  intro i s t _ h ht
  exact (Completes.of_exec h ht).keys

/-! KEYEXP (R121, R123) -/

theorem exec_keyexp {fs1 : FIdx} {s : State} (h : s.readable fs1 = true) :
    exec (.keyexp fs1) s = .next (s.withKeys (keyTable (s.field fs1))) := command_ok (expandKey_ok h)

theorem State.keyPower_keyTable (s : State) (v : Block) {k : Nat} (h : k - 1 < 8) :
    (s.withKeys (keyTable v)).keyPower k = keyEntry v (k - 1) := by
  rw [State.keyPower_withKeys _ _ h, keyTable, Vector.getElem_ofFn]

/-- The entries multiply as powers of the raw key do; the entry numbered `i` is the power `i + 1`. -/
theorem keyEntry_add_succ (v : Block) (i j : Nat) : keyEntry v (i + j + 1) = blockMul (keyEntry v i) (keyEntry v j) := by
  induction j with
  | zero => rfl
  | succ j ih =>
    calc keyEntry v (i + j + 1 + 1)
        = blockMul (blockMul (keyEntry v i) (keyEntry v j)) v := by rw [← ih]; rfl
      _ = blockMul (keyEntry v i) (keyEntry v (j + 1)) := blockMul_assoc ..

/-- In the table of a raw key `KP[i+j]` is the product of `KP[i]` and `KP[j]` (R123). -/
theorem State.keyPower_keyTable_add (s : State) (v : Block) {i j : Nat} (hi : 1 ≤ i) (hj : 1 ≤ j) (hij : i + j ≤ 8) :
    (s.withKeys (keyTable v)).keyPower (i + j) =
      blockMul ((s.withKeys (keyTable v)).keyPower i) ((s.withKeys (keyTable v)).keyPower j) := by
  have hplace : i + j - 1 = (i - 1) + (j - 1) + 1 := by omega
  rw [State.keyPower_keyTable s v (by omega), State.keyPower_keyTable s v (by omega),
    State.keyPower_keyTable s v (by omega), hplace, keyEntry_add_succ]

theorem sameFields_withKeys (s : State) (t : Vector Block 8) : SameFields s (s.withKeys t) :=
  fun _ writable => State.field_withKeys_writable s t writable

/-- Settles O40: the table of the source is written, each entry the one before it times the first. -/
theorem keyexpBuildsTheTable : Obligations.KeyexpBuildsTheTable := by
  unfold Obligations.KeyexpBuildsTheTable
  intro fs1 s
  refine ⟨fun readable => ?_, fun unreadable => exec_raised (i := .keyexp fs1) (expandKey_keysInvalid unreadable) rfl⟩
  refine ⟨_, exec_keyexp readable, State.keyPower_keyTable _ _ (by decide), fun k h2 h8 => ?_, rfl, rfl,
    sameFields_withKeys _ _, fun _ => rfl, fun _ => rfl, ⟨rfl, rfl, rfl⟩, ⟨rfl, rfl⟩, rfl⟩
  have hk : k - 1 + 1 = k := by omega
  rw [← State.keyPower_keyTable_add s (s.field fs1) (by omega) (by decide) (by omega), hk]

/-- Settles O41: both halves are the rule of powers, the first with j = 1. -/
theorem keyexpTableIsSelfConsistent : Obligations.KeyexpTableIsSelfConsistent := by
  unfold Obligations.KeyexpTableIsSelfConsistent
  intro fs1 s t readable h
  rw [exec_keyexp readable] at h
  cases h
  exact ⟨fun i h1 h7 => State.keyPower_keyTable_add s _ h1 (by decide) (by omega), fun i j => State.keyPower_keyTable_add s _⟩

/-! KPLD (R124) -/

/-- A command that raises before it writes memory takes the fault, and the table is as it was. -/
theorem exec_raised_keys {i : Instr} {s r : State} {t : Trap} (h : (workOf i).run s = .error t r) (hm : r.mem = s.mem) :
    ∃ u, exec i s = .next u ∧ Raised t.cause.code t.info s u ∧ SameKeys s u := by
  obtain ⟨u, hu, hraised, -, -, hkeys, -⟩ := raised_of_error h hm
  exact ⟨u, (exec_eq_command i s).trans hu, hraised, hkeys⟩

/-- Settles O42: the table is written once, after all eight reads; each fault is one way the work of KPLD can stop before that. -/
theorem kpldLoadsTheImage : Obligations.KpldLoadsTheImage := by
  unfold Obligations.KpldLoadsTheImage
  intro xa s
  refine ⟨fun ha hr hm => ?completes, fun ha => ?misaligned, fun ha hr => ?range, fun k hk ha hr hm hf => ?refused⟩
  case completes =>
    refine ⟨_, command_ok (loadKeys_ok ha hr hm), fun k h1 h8 => ?_, rfl, rfl, sameFields_withKeys { s with accesses := _ } _,
      fun _ => rfl, fun _ => rfl, ⟨rfl, rfl, rfl⟩, ⟨rfl, rfl⟩⟩
    rw [State.keyPower_withKeys _ _ (by omega), Vector.getElem_ofFn, State.messageBlock]
  case misaligned => exact exec_raised_keys (i := .kpld xa) (loadKeys_misaligned ha) rfl
  case range => exact exec_raised_keys (i := .kpld xa) (loadKeys_range ha hr) rfl
  case refused => exact exec_raised_keys (i := .kpld xa) (loadKeys_refused hk ha hr hm hf) rfl

/-! KPST (R125) -/

/-- The first `n` entries of the table written from a base on, which a KPST does before it stops at entry `n + 1` (R192). -/
def State.partialImage (s : State) (base : Addr) (n : Nat) : Memory :=
  Memory.writeBlocks s.mem base.toNat (s.kp.toList.take n) 0

theorem length_take_kp (s : State) {n : Nat} (hn : n ≤ 8) : (s.kp.toList.take n).length = n := by
  rw [List.length_take, Vector.length_toList, Nat.min_eq_left hn]

/-- An entry that has been written stands at its offset 16·(k-1) (R61). -/
theorem readBlock_partialImage {s : State} {base : Addr} {n k : Nat} (hs : s.Inv) (hr : inRange base 8) (hn : n ≤ 8) (h1 : 1 ≤ k)
    (hk : k ≤ n) : Memory.readBlock (s.partialImage base n) (base.toNat + 16 * (k - 1)) = s.keyPower k := by
  have hroom : base.toNat + 16 * 8 ≤ 2 ^ 64 := hr
  have hlen := length_take_kp s hn
  have hread := Memory.readBlock_writeBlocks (base := base.toNat) (s.kp.toList.take n) s.mem 0 (k - 1) (by omega)
    hs.memory_canonical (by omega)
  rw [Nat.zero_add] at hread
  rw [State.partialImage, hread, List.getElem_take, Vector.getElem_toList, State.keyPower_eq_getElem s (by omega)]

theorem read_partialImage_other (s : State) {base : Addr} {n c : Nat} (hn : n ≤ 8)
    (outside : c < base.toNat ∨ base.toNat + 16 * n ≤ c) :
    Memory.read (s.partialImage base n) c = Memory.read s.mem c :=
  Memory.read_writeBlocks_other _ _ _ (by rwa [length_take_kp s hn, Nat.mul_zero, Nat.add_zero, Nat.zero_add])

/-- All eight entries are the whole table. -/
theorem partialImage_eight (s : State) (base : Addr) :
    s.partialImage base 8 = Memory.writeBlocks s.mem base.toNat s.kp.toList 0 := by
  rw [State.partialImage, List.take_of_length_le (Nat.le_of_eq Vector.length_toList)]

/-- A KPST whose checks pass and whose writes are admitted. -/
theorem exec_kpst {xa : XIdx} {s : State} (hv : s.status.kpv = true) (ha : aligned16 (s.scalar xa) = true)
    (hr : inRange (s.scalar xa) 8) (hm : s.admitsBlocks (s.scalar xa) 8 .write) :
    exec (.kpst xa) s = .next { s with
      mem := s.partialImage (s.scalar xa) 8
      accesses := s.accesses ++ writesOf (s.scalar xa) 0 8 } := by
  rw [partialImage_eight]
  exact command_ok (storeKeys_ok hv ha hr hm)

/-- Settles O43: KPST writes the entries in order, all eight or those before the first refused one; no other fault writes memory. -/
theorem kpstStoresTheImage : Obligations.KpstStoresTheImage := by
  unfold Obligations.KpstStoresTheImage
  intro xa s hs
  refine ⟨fun hv ha hr hm => ?completes, fun hv => ?keysInvalid, fun hv ha => ?misaligned, fun hv ha hr => ?range,
    fun k hk hv ha hr hm hf => ?refused⟩
  case completes =>
    exact ⟨_, exec_kpst hv ha hr hm, fun _ => readBlock_partialImage hs hr le_rfl, fun _ => read_partialImage_other s le_rfl,
      ⟨fun _ _ => rfl, fun _ _ _ => rfl, fun _ => rfl⟩, ⟨rfl, rfl⟩, ⟨rfl, rfl, rfl⟩, ⟨rfl, rfl⟩⟩
  case keysInvalid => exact exec_raised (i := .kpst xa) (storeKeys_keysInvalid hv) rfl
  case misaligned => exact exec_raised (i := .kpst xa) (storeKeys_misaligned hv ha) rfl
  case range => exact exec_raised (i := .kpst xa) (storeKeys_range hv ha hr) rfl
  case refused =>
    exact ⟨_, command_error (storeKeys_refused hk hv ha hr hm hf), rfl, rfl, fun _ => readBlock_partialImage hs hr hk.le,
      fun _ => read_partialImage_other s hk.le⟩

/-! KPCLR (R126) -/

theorem State.keyPower_withoutKeys (s : State) {k : Nat} (h : k - 1 < 8) : s.withoutKeys.keyPower k = 0 := by
  have zeros : (#v[0, 0, 0, 0, 0, 0, 0, 0] : Vector Block 8) = Vector.replicate 8 0 := rfl
  rw [State.keyPower_eq_getElem _ h]
  simp only [State.withoutKeys_kp, zeros, Vector.getElem_replicate]

theorem State.readable_withoutKeys (s : State) {i : FIdx} (h : 8 ≤ i.val) : s.withoutKeys.readable i = false := by
  rw [State.readable, State.withoutKeys_status, Status.withKpv_kpv, Bool.or_false, decide_eq_false_iff_not]
  omega

/-- Settles O44: KPCLR has no check, and with KPV = 0 no entry may be read. -/
theorem kpclrDestroysTheTable : Obligations.KpclrDestroysTheTable := by
  unfold Obligations.KpclrDestroysTheTable
  intro s
  exact ⟨_, exec_kpclr s, fun k h1 h8 => s.keyPower_withoutKeys (by omega), rfl, fun _ => s.readable_withoutKeys, rfl,
    fun _ writable => s.field_withoutKeys_writable writable, fun _ => rfl, fun _ => rfl, ⟨rfl, rfl, rfl⟩, ⟨rfl, rfl⟩, rfl⟩

end Sys2Proof.Machine
end

section
/-! The Streamer (spec/43_streamer.md): the phases, accesses and faults of UPDATE (R138, R139, R159), the value its phase machine
leaves (R136, R146–R151) and that value as one multiplication per block and as a polynomial in H (R135, R143, R156, R157); and that
no command's addresses, phases or fault depend on data (R161, R232). -/

namespace Sys2Proof.Machine

/-! Addresses, phases and faults do not depend on data (R161, R232) -/

/-- The state with the data of another: its F0–F5, S, KP and memory, and all else that no check, address or phase looks at. -/
def State.withDataOf (s d : State) : State :=
  { s with
    f := d.f, accS := d.accS, kp := d.kp, mem := d.mem, streamer := d.streamer, inputs := d.inputs, free := d.free }

theorem State.eq_withDataOf {s s' : State} (hx : s.x = s'.x) (hst : s.status = s'.status) (hf : s.finfo = s'.finfo)
    (hr : s.refused = s'.refused) (ha : s.accesses = s'.accesses) (hp : s.phases = s'.phases) : s' = s.withDataOf s' := by
  simp only [State.withDataOf, hx, hst, hf, hr, ha, hp]

section WithDataOf

variable (i : Instr) (s d : State)

@[simp] theorem State.withDataOf_status : (s.withDataOf d).status = s.status := rfl
@[simp] theorem State.withDataOf_finfo : (s.withDataOf d).finfo = s.finfo := rfl
@[simp] theorem State.withDataOf_accesses : (s.withDataOf d).accesses = s.accesses := rfl
@[simp] theorem State.withDataOf_phases : (s.withDataOf d).phases = s.phases := rfl

@[simp] theorem firstFault_withDataOf : firstFault i (s.withDataOf d) = firstFault i s := rfl
@[simp] theorem accessesOf_withDataOf : accessesOf i (s.withDataOf d) = accessesOf i s := rfl
@[simp] theorem phasesOf_withDataOf : phasesOf i (s.withDataOf d) = phasesOf i s := rfl
@[simp] theorem statusAfter_withDataOf : statusAfter i (s.withDataOf d) = statusAfter i s := rfl
@[simp] theorem admittedAccesses_withDataOf : admittedAccesses i (s.withDataOf d) = admittedAccesses i s := rfl
@[simp] theorem refusedPhases_withDataOf : refusedPhases i (s.withDataOf d) = refusedPhases i s := rfl

end WithDataOf

/-- What a host and an observer of the bus see of two runs is the same: the accesses, the phases, ST and FINFO. -/
def SameObserved (t t' : State) : Prop :=
  t.accesses = t'.accesses ∧ t.phases = t'.phases ∧ t.status = t'.status ∧ t.finfo = t'.finfo

theorem Completes.sameObserved {i : Instr} {s d t t' : State} (h : Completes i s t) (h' : Completes i (s.withDataOf d) t') :
    SameObserved t t' := by
  refine ⟨?_, ?_, ?_, ?_⟩
  · rw [h.accesses, h'.accesses, State.withDataOf_accesses, accessesOf_withDataOf]
  · rw [h.phases, h'.phases, State.withDataOf_phases, phasesOf_withDataOf]
  · rw [h.status, h'.status, statusAfter_withDataOf]
  · rw [h.finfo, h'.finfo, State.withDataOf_finfo]

theorem Stops.sameObserved {i : Instr} {s d r r' : State} {code : BitVec 4} {info : BitVec 64} {tr tr' : Trap}
    (h : Stops i s code info tr r) (h' : Stops i (s.withDataOf d) code info tr' r') :
    SameObserved (takeFault tr (atRaise s r)) (takeFault tr' (atRaise (s.withDataOf d) r')) := by
  obtain ⟨hacc, hph⟩ : r.accesses = r'.accesses ∧ r.phases = r'.phases := by
    by_cases h4 : code = 4
    · obtain ⟨ha, hp⟩ := h.at_access h4
      obtain ⟨ha', hp'⟩ := h'.at_access h4
      simp [ha, hp, ha', hp']
    · obtain ⟨ha, hp⟩ := h.before_access h4
      obtain ⟨ha', hp'⟩ := h'.before_access h4
      simp [ha, hp, ha', hp']
  refine ⟨hacc, hph, ?_, h.info_eq.trans h'.info_eq.symm⟩
  simp only [takeFault_status, atRaise_status, State.withDataOf_status, Status.record, h.code_eq, h'.code_eq]

/-- Settles O23: `firstFault` does not look at data, so two runs both complete or both take one fault. -/
theorem addressesAndPhasesAreIndependentOfData : Obligations.AddressesAndPhasesAreIndependentOfData := by
  unfold Obligations.AddressesAndPhasesAreIndependentOfData
  intro i s s' t t' hx hst hf hr ha hp h h'
  rw [State.eq_withDataOf hx hst hf hr ha hp] at h'
  rcases exec_cases h with ⟨hff, completes⟩ | ⟨code, info, tr, r, hff, rfl, stops⟩
  · rcases exec_cases h' with ⟨-, completes'⟩ | ⟨_, _, _, _, hff', -, -⟩
    · exact completes.sameObserved completes'
    · simp [hff] at hff'
  · rcases exec_cases h' with ⟨hff', -⟩ | ⟨code', info', tr', r', hff', rfl, stops'⟩
    · simp [hff] at hff'
    · rw [firstFault_withDataOf, hff, Option.some_inj, Prod.mk.injEq] at hff'
      obtain ⟨rfl, rfl⟩ := hff'
      exact stops.sameObserved stops'

/-! UPDATE by its two ways to complete (R139, R159) -/

/-- The state after an UPDATE of no blocks. -/
def State.updatedByNone (s : State) : State :=
  { s with phases := s.phases ++ phaseTrace 0, streamer := Streamer.released s.free, free := s.free + 1 }

theorem exec_update_none {xin xn xacc : XIdx} {s : State} (h : s.scalar xn = 0) :
    exec (.update xin xn xacc) s = .next s.updatedByNone := execUpdate_zero (by rw [h]; rfl)

theorem exec_update {xin xn xacc : XIdx} {s : State} (h : UpdateRuns xin xn xacc s) :
    exec (.update xin xn xacc) s = .next (s.updated (s.scalar xin) (s.scalar xn) (s.scalar xacc)) := execUpdate_ok h

theorem updatedByNone_phases (s : State) : s.updatedByNone.phases = s.phases ++ [.init, .aligned, .done] := rfl

theorem sameRegisters_updatedByNone (s : State) : SameRegisters s s.updatedByNone :=
  ⟨fun _ _ => rfl, fun _ _ _ => rfl, fun _ => rfl⟩

/-- Settles O46: only the Streamer's own state and the trace are touched. -/
theorem updateOfNoBlocksDoesNothing : Obligations.UpdateOfNoBlocksDoesNothing := by
  unfold Obligations.UpdateOfNoBlocksDoesNothing
  intro xin xn xacc s h
  exact ⟨_, exec_update_none h, sameRegisters_updatedByNone s, ⟨rfl, rfl⟩, fun _ => rfl, ⟨rfl, rfl⟩, rfl, updatedByNone_phases s⟩

/-- Settles O49: the trace is `phaseTrace`, and the model's reads ascend, which is one of the orders R63 allows. -/
theorem updatePhaseTraces : Obligations.UpdatePhaseTraces := by
  unfold Obligations.UpdatePhaseTraces
  intro xin xn xacc s
  refine ⟨fun h => ⟨_, exec_update_none h, updatedByNone_phases s, rfl⟩, fun h => ⟨_, exec_update h, ?_, _, rfl, .refl _⟩⟩
  show s.phases ++ phaseTrace _ = _
  simp only [phaseTrace, List.append_assoc]

/-! The faults of UPDATE (R138) -/

/-- A command but KPST that stops has written no memory, and the host sees its fault (R184, R192). -/
theorem Stops.raised {i : Instr} {s r : State} {code : BitVec 4} {info : BitVec 64} {t : Trap} (h : Stops i s code info t r)
    (hi : ∀ xa, i ≠ .kpst xa) : Raised code info s (takeFault t (atRaise s r)) where
  err := rfl
  cause := h.code_eq
  kpv := rfl
  finfo := h.info_eq
  memory a := by rw [takeFault_mem, atRaise_mem, h.memory hi]
  host := ⟨rfl, rfl⟩

/-- With the checks of R138 passed, the first refused access decides. -/
theorem firstFault_update {xin xn xacc : XIdx} {s : State} (hn : 0 < (s.scalar xn).toNat) (hk : s.status.kpv = true)
    (hi : aligned16 (s.scalar xin) = true) (ha : aligned16 (s.scalar xacc) = true)
    (hr : inRange (s.scalar xin) (s.scalar xn).toNat) :
    firstFault (.update xin xn xacc) s = refusedAccess (.update xin xn xacc) s := by
  rw [aligned16_iff] at hi ha
  have aligned : misalignment (.update xin xn xacc) s = none := by
    rw [misalignment, operandAddresses, if_pos hn]
    simp [hi, ha]
  have fits : rangeOverrun (.update xin xn xacc) s = none := by
    rw [rangeOverrun, blockBuffer, if_pos hn, Option.filter_some, decide_eq_false (Nat.not_lt.mpr hr)]
    rfl
  rw [firstFault_of_keys rfl fun _ => hk, aligned, fits, Option.none_or, Option.none_or]

/-- Settles O48: the four checks stop INIT before any access; after them `firstFault` is the first refused access. -/
theorem updateChecksInOrder : Obligations.UpdateChecksInOrder := by
  unfold Obligations.UpdateChecksInOrder
  intro xin xn xacc s hn
  refine ⟨fun hk => ?keysInvalid, fun hk hi => ?misalignedInput, fun hk hi ha => ?misalignedAcc, fun hk hi ha hr => ?range,
    fun hk hi ha hr a h => ?refused⟩
  case keysInvalid =>
    exact exec_raised_accesses (i := .update xin xn xacc) (updateAccumulator_check (phaseInit_keysInvalid hn hk)) rfl
  case misalignedInput =>
    exact exec_raised_accesses (i := .update xin xn xacc) (updateAccumulator_check (phaseInit_misaligned_input hn hk hi)) rfl
  case misalignedAcc =>
    exact exec_raised_accesses (i := .update xin xn xacc) (updateAccumulator_check (phaseInit_misaligned_acc hn hk hi ha)) rfl
  case range =>
    exact exec_raised_accesses (i := .update xin xn xacc) (updateAccumulator_check (phaseInit_range hn hk hi ha hr)) rfl
  case refused =>
    have hff : firstFault (.update xin xn xacc) s = some (4, a.addr) := by
      rw [firstFault_update hn hk hi ha hr, refusedAccess, h, Option.map_some]
    obtain ⟨t, r, hexec, stops⟩ := exec_stops hff
    exact ⟨_, hexec, stops.raised nofun⟩

/-! What UPDATE leaves (R136, R146–R151) -/

section Updated

variable (s : State) (input n acc : Addr)

/-- The value an UPDATE computes from the state it finds. -/
def State.updateValue : Block :=
  streamValue s.keyPower (Memory.readBlock s.mem acc.toNat) (s.messageBlock input) n.toNat

theorem updated_field_six : (s.updated input n acc).field 6 = s.updateValue input n acc := rfl

theorem updated_mem : (s.updated input n acc).mem = Memory.writeBlock s.mem acc.toNat (s.updateValue input n acc) := by
  simp only [State.updated, State.updateValue]

theorem updated_field_other {j : FIdx} (h : j ≠ 6) : (s.updated input n acc).field j = s.field j := by
  have h6 : j.val ≠ 6 := fun e => h (Fin.ext e)
  simp only [State.field, h6, if_false]
  rfl

theorem sameMemoryOutside_updated : SameMemoryOutside acc.toNat 16 s (s.updated input n acc) := fun _ outside => by
  rw [updated_mem]
  exact Memory.read_writeBlock_other _ _ outside

theorem readBlock_updated (hm : Memory.wf s.mem = true) (ha : aligned16 acc = true) :
    Memory.readBlock (s.updated input n acc).mem acc.toNat = s.updateValue input n acc := by
  rw [updated_mem]
  exact Memory.readBlock_writeBlock_same _ hm (aligned16_room ha)

end Updated

/-- Settles O47: the value written is `streamValue`, and the rest is the frame of `State.updated`. -/
theorem updateComputesThePhaseMachinesValue : Obligations.UpdateComputesThePhaseMachinesValue := by
  unfold Obligations.UpdateComputesThePhaseMachinesValue
  intro xin xn xacc s hs h
  exact ⟨_, exec_update h, rfl, readBlock_updated s _ _ _ hs.memory_canonical h.acc_aligned, sameMemoryOutside_updated s _ _ _,
    fun _ => updated_field_other s _ _ _, fun _ _ _ => rfl, fun _ => rfl, ⟨rfl, rfl⟩, ⟨rfl, rfl⟩, rfl, rfl⟩

/-! One reduction per group (R143) -/

theorem reduce_groupSum (key : Nat → Block) (r : Nat) (acc : Block) (m : Nat → Block) (n j : Nat) :
    reduce (groupSum key r acc m n j) = productSum key r acc m n j := by
  induction n generalizing j with
  | zero => exact reduce_zero
  | succ n ih => rw [groupSum, productSum, reduce_xor, ih, blockMul]

/-- Settles O50: `reduce` is linear, so it may be taken product by product. -/
theorem oneReductionPerGroup : Obligations.OneReductionPerGroup := by
  unfold Obligations.OneReductionPerGroup
  exact fun key r acc m => reduce_groupSum key r acc m r 0

/-! A consistent table holds the powers of H = KP[1]·x^-128 (R123, R135) -/

/-- H, the factor by which one step of the scalar reference multiplies (R135). -/
noncomputable def hashKey (key : Nat → Block) : Field128 := elem (key 1) * xInv128

/-- Each entry `KP[k]` is the key of a multiplication by `H^k` in the field. -/
def HoldsPowers (key : Nat → Block) : Prop := ∀ k, 1 ≤ k → k ≤ 8 → elem (key k) * xInv128 = hashKey key ^ k

theorem State.keysConsistent.holdsPowers {s : State} (h : s.keysConsistent) : HoldsPowers s.keyPower := by
  intro k h1 h8
  induction k, h1 using Nat.le_induction with
  | base => rw [pow_one, hashKey]
  | succ k h1 ih =>
    calc elem (s.keyPower (k + 1)) * xInv128
        = (elem (s.keyPower k) * xInv128) * hashKey s.keyPower := by rw [h k h1 (by omega), elem_blockMul, hashKey]; ring
      _ = hashKey s.keyPower ^ (k + 1) := by rw [ih (by omega), pow_succ]

theorem elem_blockMul_key {key : Nat → Block} (hk : HoldsPowers key) (v : Block) {k : Nat} (h1 : 1 ≤ k) (h8 : k ≤ 8) :
    elem (blockMul v (key k)) = hashKey key ^ k * elem v := by
  rw [elem_blockMul, mul_assoc, hk k h1 h8, mul_comm]

/-! The scalar reference (R156) -/

/-- The scalar reference is the contract's polynomial in H (R135). -/
theorem elem_scalarReference (key : Nat → Block) (acc : Block) (m : Nat → Block) (n : Nat) :
    elem (scalarReference (key 1) acc m n) =
      hashKey key ^ n * elem acc + ∑ i ∈ Finset.range n, hashKey key ^ (n - i) * elem (m i) := by
  induction n with
  | zero => simp [scalarReference]
  | succ n ih =>
    have shift : ∑ i ∈ Finset.range n, hashKey key ^ (n + 1 - i) * elem (m i) =
        hashKey key * ∑ i ∈ Finset.range n, hashKey key ^ (n - i) * elem (m i) := by
      rw [Finset.mul_sum]
      refine Finset.sum_congr rfl fun i hi => ?_
      rw [Nat.succ_sub (Finset.mem_range.mp hi).le, pow_succ', mul_assoc]
    have last : hashKey key ^ (n + 1 - n) = hashKey key := by rw [Nat.add_sub_cancel_left, pow_one]
    rw [scalarReference, elem_blockMul, mul_assoc, ← hashKey, elem_xor, ih, Finset.sum_range_succ, shift, last]
    ring

/-- A message may be absorbed in two parts. -/
theorem scalarReference_add (h acc : Block) (m : Nat → Block) (a b : Nat) :
    scalarReference h acc m (a + b) = scalarReference h (scalarReference h acc m a) (fun j => m (a + j)) b := by
  induction b with
  | zero => rfl
  | succ b ih => rw [← Nat.add_assoc, scalarReference, scalarReference, ih]

/-- Only the blocks of the message matter. -/
theorem scalarReference_congr {h acc : Block} {m m' : Nat → Block} {n : Nat} (hm : ∀ i, i < n → m i = m' i) :
    scalarReference h acc m n = scalarReference h acc m' n := by
  induction n with
  | zero => rfl
  | succ n ih => rw [scalarReference, scalarReference, ih fun i hi => hm i (Nat.lt_succ_of_lt hi), hm n (Nat.lt_succ_self n)]

/-! The phase machine against the scalar reference (R155, R156) -/

section HoldsPowers

variable {key : Nat → Block} (hk : HoldsPowers key)
include hk

/-- The last `n` blocks of a group of `r`, block 0 not among them: block `j + i` has the factor `H^(n-i)` (R142). -/
theorem elem_productSum {r : Nat} (acc : Block) (m : Nat → Block) (hr : r ≤ 8) {n j : Nat} (hj : 0 < j) (hn : j + n = r) :
    elem (productSum key r acc m n j) = ∑ i ∈ Finset.range n, hashKey key ^ (n - i) * elem (m (j + i)) := by
  induction n generalizing j with
  | zero => exact elem_zero
  | succ n ih =>
    have place : r - j = n + 1 := by omega
    rw [productSum, elem_xor, if_neg hj.ne', place, elem_blockMul_key hk _ (by omega) (by omega),
      ih (Nat.succ_pos j) (by omega), Finset.sum_range_succ', add_comm]
    simp only [Nat.add_sub_add_right, Nat.add_right_comm j 1, Nat.add_assoc, Nat.sub_zero, Nat.add_zero]

/-- A group of blocks does what the scalar reference does one block at a time. -/
theorem groupValue_eq_scalarReference {r : Nat} (acc : Block) (m : Nat → Block) (h0 : 0 < r) (h8 : r ≤ 8) :
    groupValue key r acc m = scalarReference (key 1) acc m r := by
  apply elem_injective
  cases r with
  | zero => exact absurd h0 (Nat.lt_irrefl 0)
  | succ n =>
    rw [groupValue, reduce_groupSum, productSum, if_pos rfl, Nat.sub_zero, elem_xor, elem_blockMul_key hk _ h0 h8,
      elem_productSum hk acc m h8 Nat.one_pos (Nat.add_comm 1 n), elem_scalarReference, elem_xor, Finset.sum_range_succ']
    simp only [Nat.add_sub_add_right, Nat.add_comm 1, Nat.sub_zero]
    ring

/-- The strides from block `b` on do what the scalar reference does on their blocks. -/
theorem strideValue_eq_scalarReference (acc : Block) (m : Nat → Block) (b q : Nat) :
    strideValue key acc m b q = scalarReference (key 1) acc (fun j => m (b + j)) (8 * q) := by
  induction q with
  | zero => rfl
  | succ q ih =>
    rw [strideValue, groupValue_eq_scalarReference hk _ _ (by decide) le_rfl, ih, Nat.mul_succ, scalarReference_add]
    simp only [Nat.add_assoc]

theorem tailValue_eq_scalarReference (acc : Block) (m : Nat → Block) (n : Nat) :
    tailValue key acc m n = scalarReference (key 1) acc m (n % 8) := by
  unfold tailValue
  split
  · next h => exact groupValue_eq_scalarReference hk acc m h (Nat.mod_lt n (by decide)).le
  · next h => rw [Nat.eq_zero_of_not_pos h, scalarReference]

/-- The phase machine's value is the scalar reference's. -/
theorem streamValue_eq_scalarReference (acc : Block) (m : Nat → Block) (n : Nat) :
    streamValue key acc m n = scalarReference (key 1) acc m n := by
  rw [streamValue, tailValue_eq_scalarReference hk, strideValue_eq_scalarReference hk, ← scalarReference_add, Nat.mod_add_div]

end HoldsPowers

theorem updateValue_eq_scalarReference {s : State} (hk : s.keysConsistent) (input n acc : Addr) :
    s.updateValue input n acc =
      scalarReference (s.keyPower 1) (Memory.readBlock s.mem acc.toNat) (s.messageBlock input) n.toNat :=
  streamValue_eq_scalarReference hk.holdsPowers _ _ _

/-- Settles O51: the value is the scalar reference's, which is the polynomial in H. -/
theorem updateMeetsTheContract : Obligations.UpdateMeetsTheContract := by
  unfold Obligations.UpdateMeetsTheContract
  intro xin xn xacc s hs h hk
  refine ⟨_, exec_update h, ?_, readBlock_updated s _ _ _ hs.memory_canonical h.acc_aligned, sameMemoryOutside_updated s _ _ _⟩
  rw [updated_field_six, updateValue_eq_scalarReference hk]
  exact elem_scalarReference s.keyPower _ _ _

/-- Settles O52: the Block stored is the phase machine's value, which is the scalar reference's. -/
theorem updateEqualsTheScalarReference : Obligations.UpdateEqualsTheScalarReference := by
  unfold Obligations.UpdateEqualsTheScalarReference
  intro xin xn xacc s hs h hk
  refine ⟨_, exec_update h, ?_⟩
  rw [readBlock_updated s _ _ _ hs.memory_canonical h.acc_aligned, updateValue_eq_scalarReference hk]

/-! A message in two parts (R157) -/

theorem UpdateRuns.eq_updated {xin xn xacc : XIdx} {s t : State} (h : UpdateRuns xin xn xacc s)
    (ht : exec (.update xin xn xacc) s = .next t) : t = s.updated (s.scalar xin) (s.scalar xn) (s.scalar xacc) := by
  rw [exec_update h] at ht
  cases ht
  rfl

theorem State.keysConsistent.congr {s u : State} (hk : s.keysConsistent) (h : ∀ k, u.keyPower k = s.keyPower k) :
    u.keysConsistent := fun i h1 h7 => by simpa only [h] using hk i h1 h7

theorem State.messageBlock_congr {s u : State} (hm : u.mem = s.mem) : u.messageBlock = s.messageBlock := by
  funext input i
  rw [State.messageBlock, hm, State.messageBlock]

/-- The rest of a message, from block `a` on, reads as before when the Block stored since lies outside it. -/
theorem messageBlock_rest {s u : State} {acc a b j : Nat} {v : Block} {input rest : Addr}
    (hm : u.mem = Memory.writeBlock s.mem acc v) (hrest : rest.toNat = input.toNat + 16 * a)
    (apart : acc + 16 ≤ rest.toNat ∨ rest.toNat + 16 * b ≤ acc) (hj : j < b) :
    u.messageBlock rest j = s.messageBlock input (a + j) := by
  rw [State.messageBlock, hm, Memory.readBlock_writeBlock_other _ _ (by omega), State.messageBlock, hrest, Nat.mul_add,
    Nat.add_assoc]

/-- Settles O53: both ways the value is the scalar reference's, which absorbs a message in two parts as it does in one. -/
theorem updateOfASplitMessage : Obligations.UpdateOfASplitMessage := by
  unfold Obligations.UpdateOfASplitMessage
  intro xin xn xacc s s1 t1 u t2 t hs hk hrun hrun1 hrunu hmem1 hkeys1 hin1 hacc1 hexec1 hmemu hkeysu haccu hinu hn apart
    hexec2 hexec
  obtain rfl := hrun.eq_updated hexec
  obtain rfl := hrun1.eq_updated hexec1
  obtain rfl := hrunu.eq_updated hexec2
  have hwf : Memory.wf s.mem = true := hs.memory_canonical
  have room := aligned16_room hrun.acc_aligned
  have first : s1.updateValue (s1.scalar xin) (s1.scalar xn) (s1.scalar xacc) =
      scalarReference (s.keyPower 1) (Memory.readBlock s.mem (s.scalar xacc).toNat) (s.messageBlock (s.scalar xin))
        (s1.scalar xn).toNat := by
    rw [updateValue_eq_scalarReference (hk.congr hkeys1), hkeys1, hin1, hacc1, hmem1, State.messageBlock_congr hmem1]
  rw [updated_mem, first, hmem1, hacc1] at hmemu
  have whole : u.updateValue (u.scalar xin) (u.scalar xn) (u.scalar xacc) =
      s.updateValue (s.scalar xin) (s.scalar xn) (s.scalar xacc) := by
    rw [updateValue_eq_scalarReference (hk.congr hkeysu), hkeysu, haccu, updateValue_eq_scalarReference hk, hn,
      scalarReference_add, hmemu, Memory.readBlock_writeBlock_same _ hwf room]
    exact scalarReference_congr fun j hj => messageBlock_rest hmemu hinu apart hj
  have hwfu : Memory.wf u.mem = true := by
    rw [hmemu]
    exact Memory.wf_writeBlock _ hwf room
  refine ⟨?_, whole⟩
  rw [← haccu, readBlock_updated u _ _ _ hwfu hrunu.acc_aligned, whole, haccu,
    readBlock_updated s _ _ _ hwf hrun.acc_aligned]

end Sys2Proof.Machine
end

section
/-! The host data-movement commands (spec/44_host_commands.md): a Block loaded into a field register (R170) and one stored from it
(R171), and the halfwords of a scalar register, bit by bit (R172, R173). -/

namespace Sys2Proof.Machine

/-! LDB (R170) -/

/-- A fault of LDB before which no memory was written leaves its destination as it was. -/
theorem exec_ldb_raised {fd : FIdx} {xa : XIdx} {s r : State} {t : Trap} (hd : FIdx.writable fd = true)
    (h : (loadBlock fd xa).run s = .error t r) (hm : r.mem = s.mem) :
    ∃ u, exec (.ldb fd xa) s = .next u ∧ Raised t.cause.code t.info s u ∧ u.field fd = s.field fd := by
  obtain ⟨u, hu, hraised, -, hfields, -, -⟩ := raised_of_error h hm
  exact ⟨u, hu, hraised, hfields fd hd⟩

/-- Settles O54: an LDB that completes has noted one read and written `fd`; each fault is one way its work can stop before that. -/
theorem ldbLoadsABlock : Obligations.LdbLoadsABlock := by
  unfold Obligations.LdbLoadsABlock
  intro fd xa s hd
  refine ⟨fun ha hm => ?completes, fun ha => ?misaligned, fun ha hm => ?refused⟩
  case completes =>
    obtain ⟨others, keys, scalars, status, memory, -, streamer, host⟩ :=
      fieldFrame_withField (s.logged .read (s.scalar xa)) fd (Memory.readBlock s.mem (s.scalar xa).toNat)
    exact ⟨_, command_ok (loadBlock_ok hd ha hm), State.field_withField_same _ _ hd, others, keys, scalars, status, memory,
      streamer, host⟩
  case misaligned => exact exec_ldb_raised hd (loadBlock_misaligned hd ha) rfl
  case refused => exact exec_ldb_raised hd (loadBlock_refused hd ha hm) rfl

/-! STB (R171) -/

theorem exec_stb {fs : FIdx} {xa : XIdx} {s : State} (hr : s.readable fs = true) (ha : aligned16 (s.scalar xa) = true)
    (hm : s.memOK (s.scalar xa) .write = true) :
    exec (.stb fs xa) s = .next (s.stored (s.scalar xa) (s.field fs)) := command_ok (storeBlock_ok hr ha hm)

/-- Settles O55: an STB that completes has stored one Block and nothing else; each fault is one way its work can stop before that. -/
theorem stbStoresABlock : Obligations.StbStoresABlock := by
  unfold Obligations.StbStoresABlock
  intro fs xa s hs
  refine ⟨fun hr ha hm => ?completes, fun hr => ?keysInvalid, fun hr ha => ?misaligned, fun hr ha hm => ?refused⟩
  case completes =>
    refine ⟨_, exec_stb hr ha hm, ?_, sameMemoryOutside_stored _ _ _, sameRegisters_stored _ _ _, sameStatus_stored _ _ _,
      sameStreamer_stored _ _ _, sameHost_stored _ _ _⟩
    rw [State.stored_mem]
    exact Memory.readBlock_writeBlock_same _ hs.memory_canonical (aligned16_room ha)
  case keysInvalid => exact exec_raised (i := .stb fs xa) (storeBlock_keysInvalid hr) rfl
  case misaligned => exact exec_raised (i := .stb fs xa) (storeBlock_misaligned hr ha) rfl
  case refused => exact exec_raised (i := .stb fs xa) (storeBlock_refused hr ha hm) rfl

/-! SETXZ and SETXK (R172, R173) -/

/-- A written scalar register is all that SETXZ and SETXK change. -/
theorem scalarFrame_withScalar (s : State) (xd : XIdx) (v : Addr) : ScalarFrame xd s (s.withScalar xd v) where
  other_scalars _ h := State.scalar_withScalar_other s v h
  fields _ _ := rfl
  keys _ _ _ := rfl
  status := ⟨rfl, rfl⟩
  memory _ := rfl
  accesses := rfl
  streamer := ⟨rfl, rfl, rfl⟩
  host := ⟨rfl, rfl⟩

theorem exec_setxz (xd : XIdx) (hw : HalfwordIdx) (imm16 : BitVec 16) (s : State) :
    exec (.setxz xd hw imm16) s = .next (s.withScalar xd (immAtHalfword hw imm16)) := command_ok (writeScalar_apply ..)

theorem keepHalfwords_apply (xd : XIdx) (hw : HalfwordIdx) (imm16 : BitVec 16) (s : State) :
    (keepHalfwords xd hw imm16).run s = .ok () (s.withScalar xd (insertHalfword (s.scalar xd) hw imm16)) := rfl

theorem exec_setxk (xd : XIdx) (hw : HalfwordIdx) (imm16 : BitVec 16) (s : State) :
    exec (.setxk xd hw imm16) s = .next (s.withScalar xd (insertHalfword (s.scalar xd) hw imm16)) :=
  command_ok (keepHalfwords_apply ..)

/-- Bit `k` of an immediate placed at halfword `hw` is bit `k mod 16` of it inside that halfword, and 0 outside (R80). -/
theorem getLsbD_immAtHalfword (hw : HalfwordIdx) (imm16 : BitVec 16) {k : Nat} (hk : k < 64) :
    (immAtHalfword hw imm16).getLsbD k = (decide (k / 16 = hw.val) && imm16.getLsbD (k % 16)) := by
  rw [immAtHalfword, BitVec.getLsbD_shiftLeft, BitVec.getLsbD_setWidth]
  by_cases inside : k / 16 = hw.val
  · have hmod : k % 16 = k - 16 * hw.val := by omega
    have above : ¬ k < 16 * hw.val := by omega
    have hk' : k - 16 * hw.val < 64 := by omega
    simp [inside, hmod, above, hk, hk']
  · by_cases below : k < 16 * hw.val
    · simp [inside, below]
    · have beyond : 16 ≤ k - 16 * hw.val := by omega
      simp [inside, BitVec.getLsbD_of_ge imm16 _ beyond]

/-- The mask of SETXK covers halfword `hw` exactly. -/
theorem getLsbD_halfwordMask (hw : HalfwordIdx) {k : Nat} (hk : k < 64) :
    (immAtHalfword hw 0xFFFF).getLsbD k = decide (k / 16 = hw.val) := by
  have ones : (0xFFFF : BitVec 16) = BitVec.allOnes 16 := rfl
  have hmod : k % 16 < 16 := by omega
  rw [getLsbD_immAtHalfword hw _ hk, ones, BitVec.getLsbD_allOnes, decide_eq_true hmod, Bool.and_true]

theorem getLsbD_insertHalfword (old : Addr) (hw : HalfwordIdx) (imm16 : BitVec 16) {k : Nat} (hk : k < 64) :
    (insertHalfword old hw imm16).getLsbD k = if k / 16 = hw.val then imm16.getLsbD (k % 16) else old.getLsbD k := by
  rw [insertHalfword, BitVec.getLsbD_or, BitVec.getLsbD_and, BitVec.getLsbD_not, getLsbD_halfwordMask hw hk,
    getLsbD_immAtHalfword hw imm16 hk]
  by_cases inside : k / 16 = hw.val
  · simp [inside]
  · simp [inside, hk]

/-- Settles O56: what X[xd] held does not occur in the value written. -/
theorem setxzDefinesTheWholeRegister : Obligations.SetxzDefinesTheWholeRegister := by
  unfold Obligations.SetxzDefinesTheWholeRegister
  intro xd hw imm16 s
  refine ⟨_, exec_setxz xd hw imm16 s, scalarFrame_withScalar .., fun k hk => ?_⟩
  rw [State.scalar_withScalar_same, getLsbD_immAtHalfword hw imm16 hk]

/-- Settles O57: the old value shows outside the mask, the immediate inside it. -/
theorem setxkReplacesOneHalfword : Obligations.SetxkReplacesOneHalfword := by
  unfold Obligations.SetxkReplacesOneHalfword
  intro xd hw imm16 s
  refine ⟨_, exec_setxk xd hw imm16 s, scalarFrame_withScalar .., fun k hk => ?_⟩
  rw [State.scalar_withScalar_same, getLsbD_insertHalfword _ hw imm16 hk]

end Sys2Proof.Machine
end

section
/-! Faults (spec/60_exceptions.md): an illegal word (R190), the halted state (R185, R193, R194), and the two ends of a command,
completion or the first fault of R189's order (R182–R184). -/

namespace Sys2Proof.Machine

/-! An illegal word (R190) -/

theorem takeFault_eq_faulted (t : Trap) (s : State) : takeFault t s = faulted s t.cause.code t.info := rfl

/-- Settles O10: the step on a word that decodes to nothing is the taking of a fault. -/
theorem illegalWordRaisesIllegalCommand : Obligations.IllegalWordRaisesIllegalCommand := by
  unfold Obligations.IllegalWordRaisesIllegalCommand
  intro s w rest hin he hd
  rw [step_of_illegal hin he hd, takeFault_eq_faulted]
  rfl

/-! The halted state (R185, R193, R194) -/

theorem step_command_of_halted {s : State} {w : CmdWord} {rest : List HostInput} (hin : s.inputs = .command w :: rest)
    (he : s.status.err = true) : step s = .next { s with inputs := rest } :=
  (step_command hin).trans (acceptCommand_of_halted w he)

/-- Until a reset a step of the halted block changes only what belongs to the host and the platform. -/
theorem step_of_halted {s t : State} (he : s.status.err = true) (hno : ∀ rest, s.inputs ≠ .reset :: rest)
    (h : step s = .next t) : ∃ inputs mem refused, t = { s with inputs := inputs, mem := mem, refused := refused } := by
  cases hin : s.inputs with
  | nil =>
    rw [step_of_inputs_nil hin] at h
    cases h
    exact ⟨_, _, _, rfl⟩
  | cons inp rest =>
    cases inp with
    | command w =>
      rw [step_command_of_halted hin he] at h
      cases h
      exact ⟨_, _, _, rfl⟩
    | reset => exact absurd hin (hno rest)
    | poke a b =>
      rw [step_poke hin] at h
      cases h
      exact ⟨_, _, _, rfl⟩
    | platform ws =>
      rw [step_platform hin] at h
      cases h
      exact ⟨_, _, _, rfl⟩

/-- Settles O8: a step of the halted block that takes no reset keeps ST, and so ERR. -/
theorem haltedBlockDiscardsCommandWords : Obligations.HaltedBlockDiscardsCommandWords := by
  unfold Obligations.HaltedBlockDiscardsCommandWords
  refine ⟨fun _ _ _ => step_command_of_halted, fun s t he h ht => ?_⟩
  by_contra hno
  obtain ⟨_, _, _, rfl⟩ := step_of_halted he (not_exists.mp hno) h
  exact Bool.false_ne_true (ht.symm.trans he)

/-- Settles O9: none of the registers is among what `step_of_halted` lets change. -/
theorem haltedBlockIsFrozenUntilReset : Obligations.HaltedBlockIsFrozenUntilReset := by
  unfold Obligations.HaltedBlockIsFrozenUntilReset
  intro s t he hno h
  obtain ⟨_, _, _, rfl⟩ := step_of_halted he hno h
  exact ⟨⟨rfl, rfl⟩, ⟨fun _ _ => rfl, fun _ _ _ => rfl, fun _ => rfl⟩, ⟨rfl, rfl, rfl⟩, rfl⟩

/-! A command completes or faults (R182–R184) -/

theorem Completes.err {i : Instr} {s t : State} (h : Completes i s t) : t.status.err = s.status.err := by
  rw [h.status, statusAfter_err]

theorem Completes.cause {i : Instr} {s t : State} (h : Completes i s t) : t.status.cause = s.status.cause := by
  rw [h.status, statusAfter_cause]

theorem Stops.accesses_before {i : Instr} {s r : State} {code : BitVec 4} {info : BitVec 64} {t : Trap}
    (h : Stops i s code info t r) (h4 : code ≠ 4) : (takeFault t (atRaise s r)).accesses = s.accesses := (h.before_access h4).1

/-- A command whose destination no word may name stops on that check, before any access (R83, R189, R190). -/
theorem Stops.of_not_wf {i : Instr} {s r : State} {code : BitVec 4} {info : BitVec 64} {t : Trap} (h : Stops i s code info t r)
    (hf : firstFault i s = some (code, info)) (hwf : i.wf = false) :
    Raised 1 ((encode i).setWidth 64) s (takeFault t (atRaise s r)) ∧ (takeFault t (atRaise s r)).accesses = s.accesses := by
  rw [firstFault_illegal hwf] at hf
  cases hf
  have notKpst : ∀ xa, i ≠ .kpst xa := by
    rintro xa rfl
    exact Bool.false_ne_true hwf.symm
  exact ⟨h.raised notKpst, h.accesses_before (by decide)⟩

/-- Settles O16: a command without a first fault completes; one with a first fault takes it, and its code is that of a cause. -/
theorem commandCompletesOrFaults : Obligations.CommandCompletesOrFaults := by
  unfold Obligations.CommandCompletesOrFaults
  intro i s he
  cases hf : firstFault i s with
  | none =>
    obtain ⟨t, hexec, completes⟩ := exec_completes hf
    refine ⟨t, hexec, .inl ⟨completes.err.trans he, completes.cause, completes.finfo⟩, fun hwf => ?_⟩
    rw [firstFault_illegal hwf] at hf
    cases hf
  | some p =>
    obtain ⟨code, info⟩ := p
    obtain ⟨tr, r, hexec, stops⟩ := exec_stops hf
    obtain ⟨hpos, hle⟩ := tr.cause.code_range
    exact ⟨_, hexec, .inr ⟨rfl, hpos, hle, rfl⟩, stops.of_not_wf hf⟩

/-! A command word completes or reports the first fault (R189) -/

theorem acceptCommand_of_no_fault {s : State} {w : CmdWord} (he : s.status.err = false) (hf : faultOfWord w s = none) :
    ∃ t, acceptCommand w s = .next t ∧ t.status.err = false := by
  unfold faultOfWord at hf
  cases hd : decode w with
  | none => simp [hd] at hf
  | some i =>
    rw [hd] at hf
    obtain ⟨t, hexec, completes⟩ := exec_completes hf
    exact ⟨t, (acceptCommand_of_decode he hd).trans hexec, completes.err.trans he⟩

/-- What a word that faults leaves as it was, beside the record that `acceptCommand_of_fault` gives (R189, R192). -/
theorem acceptCommand_of_fault_frame {s t : State} {w : CmdWord} {code : BitVec 4} {info : BitVec 64}
    (he : s.status.err = false) (hf : faultOfWord w s = some (code, info)) (h : acceptCommand w s = .next t) :
    (code ≠ 4 → t.accesses = s.accesses) ∧ ((∀ xa, decode w ≠ some (.kpst xa)) → SameMemory s t) := by
  unfold faultOfWord at hf
  cases hd : decode w with
  | none =>
    rw [acceptCommand_of_illegal he hd] at h
    cases h
    exact ⟨fun _ => rfl, fun _ _ => rfl⟩
  | some i =>
    rw [hd] at hf
    obtain ⟨tr, r, hexec, stops⟩ := exec_stops hf
    rw [acceptCommand_of_decode he hd, hexec] at h
    cases h
    exact ⟨stops.accesses_before, fun notKpst => (stops.raised fun xa hi => notKpst xa (congrArg some hi)).memory⟩

/-- Settles O17: `faultOfWord` tells the two ends of a word apart, as `firstFault` does those of its command. -/
theorem faultReportedIsTheFirstInOrder : Obligations.FaultReportedIsTheFirstInOrder := by
  unfold Obligations.FaultReportedIsTheFirstInOrder
  intro s w rest hin he
  rw [step_command hin]
  cases hf : faultOfWord w s with
  | none => exact acceptCommand_of_no_fault (s := { s with inputs := rest }) he hf
  | some p =>
    obtain ⟨code, info⟩ := p
    obtain ⟨t, haccept, herr, hcause, hkpv, hinfo⟩ := acceptCommand_of_fault (s := { s with inputs := rest }) he hf
    exact ⟨t, haccept, herr, hcause, hkpv, hinfo, acceptCommand_of_fault_frame (s := { s with inputs := rest }) he hf haccept⟩

end Sys2Proof.Machine
end

section
/-! The words the spec prints (spec/95_test_vectors.md V100–V119): each is the word of the command printed beside it (R72–R77), and the
decoder gives a well-formed command back from its word. -/

namespace Sys2Proof

theorem decode_of_encode_eq {w : CmdWord} {i : Instr} (hwf : i.wf = true) (hw : encode i = w) : decode w = some i := by
  rw [← hw]
  exact decodeInvertsEncode i hwf

/-- Settles O6: each word is the encoding of the well-formed command printed beside it. -/
theorem specWordsDecodeAsPrinted : Obligations.SpecWordsDecodeAsPrinted := by
  unfold Obligations.SpecWordsDecodeAsPrinted
  and_intros <;> exact decode_of_encode_eq (by decide) (by decide)

end Sys2Proof
end
